-- ==== Sys2Proof/Word.lean ====
section
/-! DEFINITION. The word types of the machine (00_scope.md R6). Every value is unsigned. -/

namespace Sys2Proof

/-- 4 bits: a nibble (R6). -/
abbrev Nibble := BitVec 4

/-- 8 bits: a byte, the width of a memory cell and of an immediate (R6, R60, R91). -/
abbrev Byte := BitVec 8

/-- 12 bits: the width of an address immediate (R91). -/
abbrev Addr12 := BitVec 12

/-- 16 bits: an instruction word (R6, R90). The widths of the registers are in Config.lean. -/
abbrev Word := BitVec 16

end Sys2Proof
end

