-- ==== Sys2Proof/Config.lean ====
section
/-! DEFINITION. The fixed sizes of 00_scope.md R5, the one open parameter, and the free values: opaque
constants without a body, so that nothing can be proved of what they are. The parameters a correction
could change (FONT_BASE, GLYPH_DATA, PROGRAM_BASE, SHL_FLAG) stand in Machine/Params.lean. -/

namespace Sys2Proof

/-- `MEM_SIZE` (R5): addresses 0x000..0xFFF. -/
abbrev Config.memSize : Nat := 4096
/-- `NUM_V` (R5). -/
abbrev Config.numV : Nat := 16
/-- `STACK_DEPTH` (R5). -/
abbrev Config.stackDepth : Nat := 16
/-- `SCREEN_W` (R5). -/
abbrev Config.screenW : Nat := 64
/-- `SCREEN_H` (R5). -/
abbrev Config.screenH : Nat := 32
/-- `NUM_KEYS` (R5). -/
abbrev Config.numKeys : Nat := 16
/-- `V_WIDTH` (R5): bits of a general register. -/
abbrev Config.vWidth : Nat := 8
/-- `I_WIDTH` (R5): bits of the index register. -/
abbrev Config.iWidth : Nat := 16
/-- `PC_WIDTH` (R5): bits of the program counter. -/
abbrev Config.pcWidth : Nat := 16
/-- `STACK_ENTRY_WIDTH` (R5): bits of a return address on the stack. -/
abbrev Config.stackEntryWidth : Nat := 16
/-- `TIMER_WIDTH` (R5): bits of a timer. -/
abbrev Config.timerWidth : Nat := 8

/-! The values of each kind of register. Where a value goes from one kind to another it is zero-extended or
truncated to the width of its destination (R7), by `BitVec.setWidth`. -/

/-- What a general register holds (R20). -/
abbrev RegValue := BitVec Config.vWidth
/-- What the index register holds (R24). -/
abbrev IndexValue := BitVec Config.iWidth
/-- What the program counter holds (R25). -/
abbrev PcValue := BitVec Config.pcWidth
/-- What a stack entry holds (R29). -/
abbrev EntryValue := BitVec Config.stackEntryWidth
/-- What a timer holds (R34). -/
abbrev TimerValue := BitVec Config.timerWidth

/-- `TIMER_HZ` (R5, R312): timing only, no rule of the model reads it. -/
def Config.timerHz : Nat := 60

/-- `INSTR_CLOCK_HZ` (R5, D31): OPEN; no rule of the model reads it (log 10). -/
opaque Config.instrClockHz : Nat

/-- The byte RND draws (R174, D20; log 2): free, one for each value of the counter `draws`. -/
opaque Config.randomByte : Nat → Byte

/-! The state after a fault is any value (R304, D22; log 3): one free value for each piece of state that
the report does not fix, for each value of the counter `draws`. -/

/-- The general registers after a fault. -/
opaque Config.faultV : Nat → Vector RegValue Config.numV
/-- The index register after a fault. -/
opaque Config.faultI : Nat → IndexValue
/-- The call stack's entries after a fault. -/
opaque Config.faultStack : Nat → Vector EntryValue Config.stackDepth
/-- The stack pointer after a fault: still a count 0..16 (R30). -/
opaque Config.faultSp : Nat → Fin (Config.stackDepth + 1)
/-- The delay timer after a fault. -/
opaque Config.faultDt : Nat → TimerValue
/-- The sound timer after a fault. -/
opaque Config.faultSt : Nat → TimerValue
/-- The byte of memory at an address after a fault: counter, then address. -/
opaque Config.faultMem : Nat → Nat → Byte
/-- The Raster Buffer after a fault. -/
opaque Config.faultScreen : Nat → Vector (Vector Bool Config.screenW) Config.screenH
/-- The keypad flags after a fault. -/
opaque Config.faultKey : Nat → Vector Bool Config.numKeys

end Sys2Proof
end

