-- ==== Sys2Proof/Syntax.lean ====
section
/-! DEFINITION. The instructions: one constructor per row of spec/opcode_table.json (34 rows, in its
order), over the operand fields of 30_encoding.md R91 and R92. -/

namespace Sys2Proof

/-- A register index 0x0..0xF, the fields X and Y (R20, R92). -/
abbrev Reg := Fin Config.numV

/-- VF, register 0xF, the flag register (R21). -/
abbrev Reg.vf : Reg := 15

/-- The 34 instructions (30_encoding.md section 4). An `ignored` operand holds the bits the decoder ignores
(R96): no effect depends on it, but the instruction word that a fault reports (R302) has those bits, so the
syntax keeps them (log 4). `n` is DRW's count of rows, a number that `Instr.WellFormed` bounds (R92). -/
inductive Instr where
  /-- 0-E0 CLS (R235) -/
  | cls (ignored : Nibble)
  /-- 0-EE RET (R122) -/
  | ret (ignored : Nibble)
  /-- 1NNN JP NNN (R123) -/
  | jp (nnn : Addr12)
  /-- 2NNN CALL NNN (R124) -/
  | call (nnn : Addr12)
  /-- 3XNN SE Vx, NN (R125) -/
  | seByte (x : Reg) (nn : Byte)
  /-- 4XNN SNE Vx, NN (R126) -/
  | sneByte (x : Reg) (nn : Byte)
  /-- 5XY0 SE Vx, Vy (R127) -/
  | seReg (x y : Reg)
  /-- 6XNN LD Vx, NN (R163) -/
  | ldByte (x : Reg) (nn : Byte)
  /-- 7XNN ADD Vx, NN (R164) -/
  | addByte (x : Reg) (nn : Byte)
  /-- 8XY0 LD Vx, Vy (R165) -/
  | ldReg (x y : Reg)
  /-- 8XY1 OR Vx, Vy (R166) -/
  | orReg (x y : Reg)
  /-- 8XY2 AND Vx, Vy (R167) -/
  | andReg (x y : Reg)
  /-- 8XY3 XOR Vx, Vy (R168) -/
  | xorReg (x y : Reg)
  /-- 8XY4 ADD Vx, Vy (R169) -/
  | addReg (x y : Reg)
  /-- 8XY5 SUB Vx, Vy (R170) -/
  | subReg (x y : Reg)
  /-- 8XY6 SHR Vx (R171) -/
  | shr (x : Reg) (ignored : Nibble)
  /-- 8XY7 SUBN Vx, Vy (R172) -/
  | subnReg (x y : Reg)
  /-- 8XYE SHL Vx (R173) -/
  | shl (x : Reg) (ignored : Nibble)
  /-- 9XY0 SNE Vx, Vy (R128) -/
  | sneReg (x y : Reg)
  /-- ANNN LD I, NNN (R200) -/
  | ldI (nnn : Addr12)
  /-- BNNN JP V0, NNN (R129) -/
  | jpV0 (nnn : Addr12)
  /-- CXNN RND Vx, NN (R174) -/
  | rnd (x : Reg) (nn : Byte)
  /-- DXYN DRW Vx, Vy, N (R236) -/
  | drw (x y : Reg) (n : Nat)
  /-- EX9E SKP Vx (R260) -/
  | skp (x : Reg)
  /-- EXA1 SKNP Vx (R261) -/
  | sknp (x : Reg)
  /-- FX07 LD Vx, DT (R262) -/
  | ldFromDt (x : Reg)
  /-- FX0A LD Vx, K (R265) -/
  | ldKey (x : Reg)
  /-- FX15 LD DT, Vx (R263) -/
  | ldDt (x : Reg)
  /-- FX18 LD ST, Vx (R264) -/
  | ldSt (x : Reg)
  /-- FX1E ADD I, Vx (R201) -/
  | addI (x : Reg)
  /-- FX29 LD F, Vx (R202) -/
  | ldF (x : Reg)
  /-- FX33 LD B, Vx (R203) -/
  | ldB (x : Reg)
  /-- FX55 LD [I], Vx (R204) -/
  | storeRegs (x : Reg)
  /-- FX65 LD Vx, [I] (R205) -/
  | loadRegs (x : Reg)
deriving DecidableEq, Repr

end Sys2Proof
end

