-- ==== Sys2Proof/WellFormed.lean ====
section
/-! DEFINITION. Which terms of `Instr` are instructions of the machine (30_encoding.md R92). Register
indexes and byte and address immediates are bounded by their types; the one check left is the bound of
DRW's count of rows. -/

namespace Sys2Proof

/-- `N` is an unsigned count 0..15 (R92); every other operand has exactly the values of its field. -/
def Instr.wellFormed : Instr → Bool
  | .drw _ _ n => decide (n ≤ 15)
  | .cls _ | .ret _ | .jp _ | .call _ | .seByte _ _ | .sneByte _ _ | .seReg _ _ | .ldByte _ _
  | .addByte _ _ | .ldReg _ _ | .orReg _ _ | .andReg _ _ | .xorReg _ _ | .addReg _ _ | .subReg _ _
  | .shr _ _ | .subnReg _ _ | .shl _ _ | .sneReg _ _ | .ldI _ | .jpV0 _ | .rnd _ _ | .skp _
  | .sknp _ | .ldFromDt _ | .ldKey _ | .ldDt _ | .ldSt _ | .addI _ | .ldF _ | .ldB _
  | .storeRegs _ | .loadRegs _ => true

/-- The decidable proposition that an instruction is well-formed. -/
abbrev Instr.WellFormed (i : Instr) : Prop := i.wellFormed = true

end Sys2Proof
end

