-- ==== Sys2Proof/Decode.lean ====
section
/-! DEFINITION. Fields, decoding, encoding and the opcode map (30_encoding.md R90 to R97). The field
positions and opcode values are the standard ones the spec adopts (D1; log 5). -/

namespace Sys2Proof

/-! ## Fields -/

/-- `w[hi:lo]` read as an unsigned number (R6). -/
def bits (w : Word) (hi lo : Nat) : Nat := w.toNat / 2 ^ lo % 2 ^ (hi - lo + 1)

theorem bits_lt (w : Word) (hi lo : Nat) : bits w hi lo < 2 ^ (hi - lo + 1) :=
  Nat.mod_lt _ (Nat.two_pow_pos _)

/-- `F = w[15:12]`, the family (R91). -/
def fieldF (w : Word) : Nat := bits w 15 12
/-- `X = w[11:8]` (R91). -/
def fieldX (w : Word) : Reg := ⟨bits w 11 8, bits_lt w 11 8⟩
/-- `Y = w[7:4]` (R91). -/
def fieldY (w : Word) : Reg := ⟨bits w 7 4, bits_lt w 7 4⟩
/-- `N = w[3:0]` (R91). -/
def fieldN (w : Word) : Nat := bits w 3 0
/-- `NN = w[7:0]` (R91). -/
def fieldNN (w : Word) : Byte := BitVec.ofNat 8 (bits w 7 0)
/-- `NNN = w[11:0]` (R91). -/
def fieldNNN (w : Word) : Addr12 := BitVec.ofNat 12 (bits w 11 0)
/-- The ignored bits 11..8 of CLS and RET (R96). -/
def ignoredX (w : Word) : Nibble := BitVec.ofNat 4 (bits w 11 8)
/-- The ignored Y field of SHR and SHL (R96). -/
def ignoredY (w : Word) : Nibble := BitVec.ofNat 4 (bits w 7 4)

/-! ## Decode -/

/-- Why bytes are no instruction. -/
inductive DecodeError where
  /-- fewer than the 2 bytes of an instruction (R90) -/
  | truncated
  /-- an illegal word, with its exact value (R94) -/
  | unknownOpcode (w : Word)
deriving DecidableEq, Repr

/-- Family 0x0: dispatch on the low byte, bits 11..8 ignored (R93, D3). -/
def decodeFamily0 (w : Word) : Except DecodeError Instr :=
  match bits w 7 0 with
  | 0xE0 => .ok (.cls (ignoredX w))
  | 0xEE => .ok (.ret (ignoredX w))
  | _ => .error (.unknownOpcode w)

/-- Family 0x5: dispatch on the low nibble (R93). -/
def decodeFamily5 (w : Word) : Except DecodeError Instr :=
  match fieldN w with
  | 0x0 => .ok (.seReg (fieldX w) (fieldY w))
  | _ => .error (.unknownOpcode w)

/-- Family 0x8: dispatch on the low nibble (R93). -/
def decodeFamily8 (w : Word) : Except DecodeError Instr :=
  match fieldN w with
  | 0x0 => .ok (.ldReg (fieldX w) (fieldY w))
  | 0x1 => .ok (.orReg (fieldX w) (fieldY w))
  | 0x2 => .ok (.andReg (fieldX w) (fieldY w))
  | 0x3 => .ok (.xorReg (fieldX w) (fieldY w))
  | 0x4 => .ok (.addReg (fieldX w) (fieldY w))
  | 0x5 => .ok (.subReg (fieldX w) (fieldY w))
  | 0x6 => .ok (.shr (fieldX w) (ignoredY w))
  | 0x7 => .ok (.subnReg (fieldX w) (fieldY w))
  | 0xE => .ok (.shl (fieldX w) (ignoredY w))
  | _ => .error (.unknownOpcode w)

/-- Family 0x9: dispatch on the low nibble (R93). -/
def decodeFamily9 (w : Word) : Except DecodeError Instr :=
  match fieldN w with
  | 0x0 => .ok (.sneReg (fieldX w) (fieldY w))
  | _ => .error (.unknownOpcode w)

/-- Family 0xE: dispatch on the low byte (R93). -/
def decodeFamilyE (w : Word) : Except DecodeError Instr :=
  match bits w 7 0 with
  | 0x9E => .ok (.skp (fieldX w))
  | 0xA1 => .ok (.sknp (fieldX w))
  | _ => .error (.unknownOpcode w)

/-- Family 0xF: dispatch on the low byte (R93). -/
def decodeFamilyF (w : Word) : Except DecodeError Instr :=
  match bits w 7 0 with
  | 0x07 => .ok (.ldFromDt (fieldX w))
  | 0x0A => .ok (.ldKey (fieldX w))
  | 0x15 => .ok (.ldDt (fieldX w))
  | 0x18 => .ok (.ldSt (fieldX w))
  | 0x1E => .ok (.addI (fieldX w))
  | 0x29 => .ok (.ldF (fieldX w))
  | 0x33 => .ok (.ldB (fieldX w))
  | 0x55 => .ok (.storeRegs (fieldX w))
  | 0x65 => .ok (.loadRegs (fieldX w))
  | _ => .error (.unknownOpcode w)

/-- Decode of a word (R93): total on all 65536 words, and it reads nothing but the word. (A nibble is at most
0xF: the last arm is never taken.) -/
def decode (w : Word) : Except DecodeError Instr :=
  match fieldF w with
  | 0x0 => decodeFamily0 w
  | 0x1 => .ok (.jp (fieldNNN w))
  | 0x2 => .ok (.call (fieldNNN w))
  | 0x3 => .ok (.seByte (fieldX w) (fieldNN w))
  | 0x4 => .ok (.sneByte (fieldX w) (fieldNN w))
  | 0x5 => decodeFamily5 w
  | 0x6 => .ok (.ldByte (fieldX w) (fieldNN w))
  | 0x7 => .ok (.addByte (fieldX w) (fieldNN w))
  | 0x8 => decodeFamily8 w
  | 0x9 => decodeFamily9 w
  | 0xA => .ok (.ldI (fieldNNN w))
  | 0xB => .ok (.jpV0 (fieldNNN w))
  | 0xC => .ok (.rnd (fieldX w) (fieldNN w))
  | 0xD => .ok (.drw (fieldX w) (fieldY w) (fieldN w))
  | 0xE => decodeFamilyE w
  | 0xF => decodeFamilyF w
  | _ => .error (.unknownOpcode w)

/-- The word of two bytes, the byte at the lower address in bits 15..8 (R64): `(hi << 8) | lo` (R7). -/
def wordOfBytes (hi lo : Byte) : Word := (hi.setWidth 16 <<< 8) ||| lo.setWidth 16

/-- The byte of a word at the lower address (R64). -/
def highByte (w : Word) : Byte := (w >>> 8).setWidth 8
/-- The byte of a word at the higher address (R64). -/
def lowByte (w : Word) : Byte := w.setWidth 8

/-- Decode of a list of bytes: an instruction and the rest, total on any bytes (R90, R93, R97). -/
def decodeBytes : List Byte → Except DecodeError (Instr × List Byte)
  | hi :: lo :: rest =>
    match decode (wordOfBytes hi lo) with
    | .ok i => .ok (i, rest)
    | .error e => .error e
  | _ => .error .truncated

/-! ## Encode -/

/-- The word of four nibbles, the family first (R91). -/
def word4 (f x y n : Nat) : Word := BitVec.ofNat 16 (f * 4096 + x * 256 + y * 16 + n)
/-- The word of a family, a register and a low byte (R91). -/
def wordXB (f x b : Nat) : Word := BitVec.ofNat 16 (f * 4096 + x * 256 + b)
/-- The word of a family and a 12-bit address (R91). -/
def wordA (f nnn : Nat) : Word := BitVec.ofNat 16 (f * 4096 + nnn)

/-- The word of an instruction, from the formats and the opcode map of 30_encoding.md sections 2 and 4. -/
def encode : Instr → Word
  | .cls k => wordXB 0x0 k.toNat 0xE0
  | .ret k => wordXB 0x0 k.toNat 0xEE
  | .jp nnn => wordA 0x1 nnn.toNat
  | .call nnn => wordA 0x2 nnn.toNat
  | .seByte x nn => wordXB 0x3 x.val nn.toNat
  | .sneByte x nn => wordXB 0x4 x.val nn.toNat
  | .seReg x y => word4 0x5 x.val y.val 0x0
  | .ldByte x nn => wordXB 0x6 x.val nn.toNat
  | .addByte x nn => wordXB 0x7 x.val nn.toNat
  | .ldReg x y => word4 0x8 x.val y.val 0x0
  | .orReg x y => word4 0x8 x.val y.val 0x1
  | .andReg x y => word4 0x8 x.val y.val 0x2
  | .xorReg x y => word4 0x8 x.val y.val 0x3
  | .addReg x y => word4 0x8 x.val y.val 0x4
  | .subReg x y => word4 0x8 x.val y.val 0x5
  | .shr x k => word4 0x8 x.val k.toNat 0x6
  | .subnReg x y => word4 0x8 x.val y.val 0x7
  | .shl x k => word4 0x8 x.val k.toNat 0xE
  | .sneReg x y => word4 0x9 x.val y.val 0x0
  | .ldI nnn => wordA 0xA nnn.toNat
  | .jpV0 nnn => wordA 0xB nnn.toNat
  | .rnd x nn => wordXB 0xC x.val nn.toNat
  | .drw x y n => word4 0xD x.val y.val n
  | .skp x => wordXB 0xE x.val 0x9E
  | .sknp x => wordXB 0xE x.val 0xA1
  | .ldFromDt x => wordXB 0xF x.val 0x07
  | .ldKey x => wordXB 0xF x.val 0x0A
  | .ldDt x => wordXB 0xF x.val 0x15
  | .ldSt x => wordXB 0xF x.val 0x18
  | .addI x => wordXB 0xF x.val 0x1E
  | .ldF x => wordXB 0xF x.val 0x29
  | .ldB x => wordXB 0xF x.val 0x33
  | .storeRegs x => wordXB 0xF x.val 0x55
  | .loadRegs x => wordXB 0xF x.val 0x65

/-- The bytes of an instruction as memory holds them, the first at the lowest address (R64). -/
def encodeBytes (i : Instr) : List Byte := [highByte (encode i), lowByte (encode i)]

/-! ## The opcode map -/

/-- One row of the opcode map (30_encoding.md section 4). -/
structure OpcodeRow where
  mnemonic : String
  value : Word
  mask : Word
deriving DecidableEq, Repr

/-- A word selects a row when `w & mask == match`. -/
def OpcodeRow.selects (r : OpcodeRow) (w : Word) : Bool := w &&& r.mask == r.value

/-- The row of the opcode map that an instruction stands for. -/
def Instr.row : Instr → OpcodeRow
  | .cls _ => ⟨"CLS", 0x00E0, 0xF0FF⟩
  | .ret _ => ⟨"RET", 0x00EE, 0xF0FF⟩
  | .jp _ => ⟨"JP_NNN", 0x1000, 0xF000⟩
  | .call _ => ⟨"CALL_NNN", 0x2000, 0xF000⟩
  | .seByte _ _ => ⟨"SE_Vx__NN", 0x3000, 0xF000⟩
  | .sneByte _ _ => ⟨"SNE_Vx__NN", 0x4000, 0xF000⟩
  | .seReg _ _ => ⟨"SE_Vx__Vy", 0x5000, 0xF00F⟩
  | .ldByte _ _ => ⟨"LD_Vx__NN", 0x6000, 0xF000⟩
  | .addByte _ _ => ⟨"ADD_Vx__NN", 0x7000, 0xF000⟩
  | .ldReg _ _ => ⟨"LD_Vx__Vy", 0x8000, 0xF00F⟩
  | .orReg _ _ => ⟨"OR_Vx__Vy", 0x8001, 0xF00F⟩
  | .andReg _ _ => ⟨"AND_Vx__Vy", 0x8002, 0xF00F⟩
  | .xorReg _ _ => ⟨"XOR_Vx__Vy", 0x8003, 0xF00F⟩
  | .addReg _ _ => ⟨"ADD_Vx__Vy", 0x8004, 0xF00F⟩
  | .subReg _ _ => ⟨"SUB_Vx__Vy", 0x8005, 0xF00F⟩
  | .shr _ _ => ⟨"SHR_Vx", 0x8006, 0xF00F⟩
  | .subnReg _ _ => ⟨"SUBN_Vx__Vy", 0x8007, 0xF00F⟩
  | .shl _ _ => ⟨"SHL_Vx", 0x800E, 0xF00F⟩
  | .sneReg _ _ => ⟨"SNE_Vx__Vy", 0x9000, 0xF00F⟩
  | .ldI _ => ⟨"LD_I__NNN", 0xA000, 0xF000⟩
  | .jpV0 _ => ⟨"JP_V0__NNN", 0xB000, 0xF000⟩
  | .rnd _ _ => ⟨"RND_Vx__NN", 0xC000, 0xF000⟩
  | .drw _ _ _ => ⟨"DRW_Vx__Vy__N", 0xD000, 0xF000⟩
  | .skp _ => ⟨"SKP_Vx", 0xE09E, 0xF0FF⟩
  | .sknp _ => ⟨"SKNP_Vx", 0xE0A1, 0xF0FF⟩
  | .ldFromDt _ => ⟨"LD_Vx__DT", 0xF007, 0xF0FF⟩
  | .ldKey _ => ⟨"LD_Vx__K", 0xF00A, 0xF0FF⟩
  | .ldDt _ => ⟨"LD_DT__Vx", 0xF015, 0xF0FF⟩
  | .ldSt _ => ⟨"LD_ST__Vx", 0xF018, 0xF0FF⟩
  | .addI _ => ⟨"ADD_I__Vx", 0xF01E, 0xF0FF⟩
  | .ldF _ => ⟨"LD_F__Vx", 0xF029, 0xF0FF⟩
  | .ldB _ => ⟨"LD_B__Vx", 0xF033, 0xF0FF⟩
  | .storeRegs _ => ⟨"LD__I___Vx", 0xF055, 0xF0FF⟩
  | .loadRegs _ => ⟨"LD_Vx___I", 0xF065, 0xF0FF⟩

/-! ## The host's table words -/

/-- The word of `nbits` bits numbered as spec/opcode_table.json numbers them; bits above `nbits` are 0. -/
def tableWord (nbits w : Nat) : Word := BitVec.ofNat 16 (w % 2 ^ nbits)

/-- The instruction the decoder reads from a table word, laid out in bytes as memory holds it (R64). -/
def decodeTableWord (nbits w : Nat) : Option Instr :=
  match decodeBytes [highByte (tableWord nbits w), lowByte (tableWord nbits w)] with
  | .ok (i, _) => some i
  | .error _ => none

end Sys2Proof
end

