-- ==== Sys2Proof/Machine/Params.lean ====
section
/-! DEFINITION. The parameters of 00_scope.md R5 that a correction of the spec could change. -/

namespace Sys2Proof

/-- `PROGRAM_BASE` (R5, R344): where programs are loaded and where PC points after reset. -/
def Config.programBase : Nat := 0x200

/-- `FONT_BASE` (R5, D14; log 5). -/
def Config.fontBase : Nat := 0x000

/-- `GLYPH_COUNT` (R5): glyphs of the table, one for each digit. -/
abbrev Config.glyphCount : Nat := 16

/-- `GLYPH_BYTES` (R5): bytes of one glyph. -/
def Config.glyphBytes : Nat := 5

/-- `GLYPH_DATA`: the rows of the 16 glyphs, digit after digit (42_index_memory.md R206, D15; log 5). -/
def Config.glyphData : List Byte :=
  [0xF0, 0x90, 0x90, 0x90, 0xF0] ++
  [0x20, 0x60, 0x20, 0x20, 0x70] ++
  [0xF0, 0x10, 0xF0, 0x80, 0xF0] ++
  [0xF0, 0x10, 0xF0, 0x10, 0xF0] ++
  [0x90, 0x90, 0xF0, 0x10, 0x10] ++
  [0xF0, 0x80, 0xF0, 0x10, 0xF0] ++
  [0xF0, 0x80, 0xF0, 0x90, 0xF0] ++
  [0xF0, 0x10, 0x20, 0x40, 0x40] ++
  [0xF0, 0x90, 0xF0, 0x90, 0xF0] ++
  [0xF0, 0x90, 0xF0, 0x10, 0xF0] ++
  [0xF0, 0x90, 0xF0, 0x90, 0x90] ++
  [0xE0, 0x90, 0xE0, 0x90, 0xE0] ++
  [0xF0, 0x80, 0x80, 0x80, 0xF0] ++
  [0xE0, 0x90, 0x90, 0x90, 0xE0] ++
  [0xF0, 0x80, 0xF0, 0x80, 0xF0] ++
  [0xF0, 0x80, 0xF0, 0x80, 0x80]

/-- `SHL_FLAG` (R5, U1, D5): false, the raw mask `Vx & 0x80`; true would reduce the flag to 0 or 1. -/
def Config.shlFlagNormalised : Bool := false

end Sys2Proof
end

