-- ==== Sys2Proof/Machine/Memory.lean ====
section
/-! DEFINITION. The Address Space (20_memory.md): 4096 plain bytes, held as the list of the cells that
differ from what they hold after boot, addresses strictly rising. -/

namespace Sys2Proof.Machine

open Sys2Proof

/-- The Address Space as plain data (R38, R60). -/
abbrev Memory := List Host.Cell

/-- What an unlisted address reads as: its content after reset and glyph preload, that is the glyph table
at FONT_BASE and zero elsewhere (R70, R340, R342; log 6). -/
def Memory.bootByte (a : Nat) : Byte :=
  if a < Config.fontBase then 0 else Config.glyphData.getD (a - Config.fontBase) 0

/-- The content of an address. -/
def Memory.peek : Memory → Nat → Byte
  | [], a => Memory.bootByte a
  | (b, v) :: m, a => if a = b then v else Memory.peek m a

/-- The memory with one byte replaced, in canonical form. -/
def Memory.poke : Memory → Nat → Byte → Memory
  | [], a, v => if v = Memory.bootByte a then [] else [(a, v)]
  | (b, u) :: m, a, v =>
    if a < b then
      if v = Memory.bootByte a then (b, u) :: m else (a, v) :: (b, u) :: m
    else if a = b then
      if v = Memory.bootByte a then m else (a, v) :: m
    else (b, u) :: Memory.poke m a v

/-- The canonical form: addresses strictly rising and inside the space, no cell equal to what an unlisted
address reads as. -/
abbrev Memory.wf (m : Memory) : Prop :=
  m.Pairwise (fun c d => c.1 < d.1) ∧ ∀ c ∈ m, c.1 < Config.memSize ∧ c.2 ≠ Memory.bootByte c.1

/-- `MemRead(addr, 1)` (R61): none is OutOfRange. -/
def Memory.read (m : Memory) (a : Nat) : Option Byte :=
  if a < Config.memSize then some (Memory.peek m a) else none

/-- `MemWrite(addr, 1, v)` (R62): none is OutOfRange. -/
def Memory.write (m : Memory) (a : Nat) (v : Byte) : Option Memory :=
  if a < Config.memSize then some (Memory.poke m a v) else none

/-- `n` reads at `a`, `a + 1`, … in increasing order (R67); none if one of them is OutOfRange. -/
def Memory.readBytes (m : Memory) (a : Nat) : Nat → Option (List Byte)
  | 0 => some []
  | n + 1 =>
    match Memory.read m a with
    | none => none
    | some b =>
      match Memory.readBytes m (a + 1) n with
      | none => none
      | some bs => some (b :: bs)

/-- Writes of a list of bytes at `a`, `a + 1`, … in increasing order (R67); none if one is OutOfRange. -/
def Memory.writeBytes (m : Memory) (a : Nat) : List Byte → Option Memory
  | [] => some m
  | b :: bs =>
    match Memory.write m a b with
    | none => none
    | some m' => Memory.writeBytes m' (a + 1) bs

/-- The memory with the given content, in canonical form. -/
def Memory.ofBytes (f : Nat → Byte) : Memory :=
  (List.range Config.memSize).filterMap fun a =>
    if f a = Memory.bootByte a then none else some (a, f a)

end Sys2Proof.Machine
end

