-- ==== Sys2Proof/Machine/Raster.lean ====
section
/-! DEFINITION. The Raster Buffer and its two mutators, Clear and Blit (43_raster.md R230 to R234). -/

namespace Sys2Proof.Machine

open Sys2Proof

/-- The 64×32 grid of 1-bit cells, row-major: rows top to bottom, each of columns left to right (R37). -/
abbrev Screen := Vector (Vector Bool Config.screenW) Config.screenH

/-- `SCREEN[x][y]` at the wrapped coordinates `(x mod 64, y mod 32)` (R8, R230). -/
def Screen.cell (sc : Screen) (x y : Nat) : Bool :=
  (sc[y % Config.screenH]'(Nat.mod_lt _ (by decide)))[x % Config.screenW]'(Nat.mod_lt _ (by decide))

/-- `SCREEN[x][y] <- SCREEN[x][y] ^ 1` at the wrapped coordinates (R230). -/
def Screen.toggle (sc : Screen) (x y : Nat) : Screen :=
  sc.set (y % Config.screenH)
    ((sc[y % Config.screenH]'(Nat.mod_lt _ (by decide))).set (x % Config.screenW)
      (!(sc.cell x y)) (Nat.mod_lt _ (by decide)))
    (Nat.mod_lt _ (by decide))

/-- `Clear()`: every cell 0 (R231). -/
def Screen.blank : Screen :=
  Vector.replicate Config.screenH (Vector.replicate Config.screenW false)

/-- One set bit of a sprite at `(x, y)`: note a collision, then toggle the cell (R230, R233). -/
def Screen.blitBit (acc : Screen × Bool) (x y : Nat) : Screen × Bool :=
  (acc.1.toggle x y, acc.2 || acc.1.cell x y)

/-- One row of a sprite at `(x, y)`: `bit_index` 0, the leftmost, is bit 7 of the byte (R230, R232). -/
def Screen.blitRow (acc : Screen × Bool) (x y : Nat) (row : Byte) : Screen × Bool :=
  (List.range 8).foldl
    (fun acc bit => if row.getLsbD (7 - bit) then Screen.blitBit acc (x + bit) y else acc) acc

/-- The rows of a sprite, the first at `y` (R230). -/
def Screen.blitRows (acc : Screen × Bool) (x y : Nat) : List Byte → Screen × Bool
  | [] => acc
  | row :: rows => Screen.blitRows (Screen.blitRow acc x y row) x (y + 1) rows

/-- `Blit(x, y, rows)`: the new buffer and whether any cell collided (R230, R233). -/
def Screen.blit (sc : Screen) (x y : Nat) (rows : List Byte) : Screen × Bool :=
  Screen.blitRows (sc, false) x y rows

end Sys2Proof.Machine
end

