-- ==== Sys2Proof/Machine/State.lean ====
section
/-! DEFINITION. The state of the block (10_state.md), the reasons a step can stop, and the state after
reset (70_reset_and_hazards.md R340 to R342). -/

namespace Sys2Proof.Machine

open Sys2Proof

/-- The kinds of core fault (60_exceptions.md R300). -/
inductive FaultKind where
  /-- an access outside the Address Space: fetch, DRW, LD B, LD [I], LD Vx,[I] (R301) -/
  | outOfRange
  /-- CALL with 16 entries in use (R124) -/
  | stackOverflow
  /-- RET with no entry in use (R122) -/
  | stackUnderflow
  /-- an illegal word (R94) -/
  | unknownOpcode
  /-- a key or digit operand above 0xF: SKP, SKNP, LD F (R300, D18) -/
  | unmodelledOperand
deriving DecidableEq, Repr

/-- The run state RUN (R36). -/
inductive RunState where
  /-- the core takes fetch-decode-execute steps -/
  | running
  /-- the core executed FX0A with register index `x` and waits for a key-down (R265, R266) -/
  | awaitingKey (x : Reg)
  /-- a fatal fault stopped the run: kind, instruction word if one was fetched, PC (R302) -/
  | faulted (kind : FaultKind) (word : Option Word) (pc : PcValue)
deriving DecidableEq, Repr

/-- The stage of the boot order (70_reset_and_hazards.md R341, R343; log 8). -/
inductive BootStage where
  /-- reset and glyph preload are done and no core step has been taken: the host may load (R72) -/
  | loading
  /-- the last load did not fit: OutOfRange was reported to the host and the run does not start (R343) -/
  | loadFailed
  /-- the instruction clock has started: no agent but the core touches memory (R69) -/
  | started
deriving DecidableEq, Repr

/-- The two countdown timers (R34). -/
inductive Timer where
  | delay
  | sound
deriving DecidableEq, Repr

/-- An event at an input port of the block (60_exceptions.md R315). -/
inductive Input where
  /-- `clk_instr`: one core step -/
  | clkInstr
  /-- `tick_dt`, `tick_st`: one tick of a timer (R309) -/
  | tick (t : Timer)
  /-- `key_down(k)` (R316) -/
  | keyDown (k : Fin Config.numKeys)
  /-- `key_up(k)` (R316) -/
  | keyUp (k : Fin Config.numKeys)
  /-- `reset` (R340) -/
  | reset
  /-- `load`: write bytes at an offset (20_memory.md R72) -/
  | load (offset : Nat) (bytes : List Byte)
deriving DecidableEq, Repr

/-- The complete state of the block (10_state.md), the stage of its boot (R341), and two fields of the model's own. -/
structure State where
  /-- V0..VF (R20) -/
  v : Vector RegValue Config.numV
  /-- the index register I (R24) -/
  i : IndexValue
  /-- the program counter PC (R25) -/
  pc : PcValue
  /-- STACK[0..15] (R29) -/
  stack : Vector EntryValue Config.stackDepth
  /-- SP, the number of entries in use, 0..16 (R30) -/
  sp : Fin (Config.stackDepth + 1)
  /-- the delay timer DT (R34) -/
  dt : TimerValue
  /-- the sound timer ST (R34) -/
  st : TimerValue
  /-- MEM, the Address Space (R38) -/
  mem : Memory
  /-- SCREEN, the Raster Buffer (R37) -/
  screen : Screen
  /-- KEY[0..15], true when the key is down (R35) -/
  key : Vector Bool Config.numKeys
  /-- RUN (R36) -/
  run : RunState
  /-- the stage of the boot order (R341; log 8) -/
  stage : BootStage
  /-- the model's own: how many free values have been drawn (log 2) -/
  draws : Nat
  /-- the model's own: the events of the other agents and of the clock still to come, the next first;
  when none is left the instruction clock goes on alone (log 1) -/
  inputs : List Input
deriving DecidableEq, Repr

/-- Why a step of the model stops. A core fault is no `Fault`: it is a next state with RUN = FAULTED (R302). -/
inductive Fault where
  /-- raised by `step` when RUN = FAULTED and no event is pending: the core takes no step (R306), and the
  report (kind, word, pc) is what the block presents (R303, R319). Safe: the model stops (log 9). -/
  | halted (kind : FaultKind) (word : Option Word) (pc : PcValue)
  /-- raised by a `load` event that comes when execution has started, which R72 excludes and R69 denies: no run of
  the block has such an event. Safe: the model stops (log 8). -/
  | loadAfterStart
deriving DecidableEq, Repr

/-- Why the model gives no meaning. -/
inductive Refusal where
  /-- raised by an arm of `exec` whose instruction has no meaning yet; no arm does. Safe. -/
  | notModelled (mnemonic : String)
deriving DecidableEq, Repr

/-- The answer of a meaning and of a step. -/
abbrev Result := Host.Outcome State Fault Refusal

/-- The state after reset and glyph preload (R340, R341 steps 1 and 2, R342): memory lists nothing, since an
unlisted address reads as its boot content (log 6). `draws` and `inputs` are the model's (logs 1, 2). -/
def State.reset : State where
  v := Vector.replicate Config.numV 0
  i := 0
  pc := BitVec.ofNat Config.pcWidth Config.programBase
  stack := Vector.replicate Config.stackDepth 0
  sp := 0
  dt := 0
  st := 0
  mem := []
  screen := Screen.blank
  key := Vector.replicate Config.numKeys false
  run := .running
  stage := .loading
  draws := 0
  inputs := []

end Sys2Proof.Machine
end

