-- ==== Sys2Proof/Machine/Ops.lean ====
section
/-! DEFINITION. The named operations over State: registers, PC, stack, timers, memory, taking a fault,
and the host's reset, the only way out of a fault. -/

namespace Sys2Proof.Machine

open Sys2Proof

/-! ## Registers -/

/-- `V[x]` (R8, R20). -/
def State.getV (s : State) (x : Reg) : RegValue := s.v[x]

/-- `V[x] <- b` (R8, R20). -/
def State.setV (s : State) (x : Reg) (b : RegValue) : State := { s with v := s.v.set x.val b x.isLt }

/-- `VF <- b`, the flag write (R21). -/
def State.setFlag (s : State) (b : RegValue) : State := s.setV Reg.vf b

/-- `I <- w` (R24). -/
def State.setI (s : State) (w : IndexValue) : State := { s with i := w }

/-- `PC <- w` (R25). -/
def State.setPc (s : State) (w : PcValue) : State := { s with pc := w }

/-- The straight-line advance, `PC <- PC + 2` (R121). -/
def State.advance (s : State) : State := s.setPc (s.pc + 2)

/-- The advance of a conditional skip: `PC + 4` if the condition holds, else `PC + 2` (R121). -/
def State.skipIf (s : State) (c : Bool) : State := s.setPc (if c then s.pc + 4 else s.pc + 2)

/-- `RUN <- r` (R36). -/
def State.setRun (s : State) (r : RunState) : State := { s with run := r }

/-- The boot goes to a stage (R341). -/
def State.setStage (s : State) (g : BootStage) : State := { s with stage := g }

/-- The instruction clock starts, if it has not (R341 step 4). -/
def State.start (s : State) : State := s.setStage .started

/-- `KEY[k] <- b`, by the host alone (R35, R316). -/
def State.setKey (s : State) (k : Fin Config.numKeys) (b : Bool) : State :=
  { s with key := s.key.set k.val b k.isLt }

/-- `KEY[k]` (R35): `is_down(k)` (R316). -/
def State.keyDown? (s : State) (k : Fin Config.numKeys) : Bool := s.key[k]

/-- A new Raster Buffer (R231: only Clear and Blit make one). -/
def State.setScreen (s : State) (sc : Screen) : State := { s with screen := sc }

/-- A new content of the Address Space (R62). -/
def State.setMem (s : State) (m : Memory) : State := { s with mem := m }

/-- The pending events (log 1). -/
def State.setInputs (s : State) (l : List Input) : State := { s with inputs := l }

/-- One free value has been drawn: the next draw is a fresh one (R9, log 2). -/
def State.countDraw (s : State) : State := { s with draws := s.draws + 1 }

/-- V0, V1, … from register `r` on take the bytes of a list (R205). -/
def loadV (v : Vector RegValue Config.numV) (r : Nat) : List Byte → Vector RegValue Config.numV
  | [] => v
  | b :: bs => loadV (v.setIfInBounds r (b.setWidth Config.vWidth)) (r + 1) bs

/-- `V[r] <- bytes[r]` for the bytes of a list, from V0 on (R205). -/
def State.setVs (s : State) (bytes : List Byte) : State := { s with v := loadV s.v 0 bytes }

/-! ## The call stack -/

/-- `STACK[k] <- w` (R29). -/
def State.setEntry (s : State) (k : Fin Config.stackDepth) (w : EntryValue) : State :=
  { s with stack := s.stack.set k.val w k.isLt }

/-- `SP <- n`, a count 0..16 (R30). -/
def State.setSp (s : State) (n : Fin (Config.stackDepth + 1)) : State := { s with sp := n }

/-- `STACK[SP] <- w; SP <- SP + 1` (R124); none when 16 entries are in use (R30). -/
def State.push (s : State) (w : EntryValue) : Option State :=
  if h : s.sp.val < Config.stackDepth then
    some ((s.setEntry ⟨s.sp.val, h⟩ w).setSp ⟨s.sp.val + 1, Nat.succ_lt_succ h⟩)
  else none

/-- `SP <- SP - 1`, and the entry STACK[SP] (R122), which stays in place (D38); none when no entry is in
use (R30). -/
def State.pop (s : State) : Option (EntryValue × State) :=
  match s.sp with
  | ⟨0, _⟩ => none
  | ⟨n + 1, h⟩ => some (s.stack[n]'(Nat.lt_of_succ_lt_succ h), s.setSp ⟨n, Nat.lt_of_succ_lt h⟩)

/-! ## The timers -/

/-- `TimerRead(t)` (R311). -/
def State.timerRead (s : State) : Timer → TimerValue
  | .delay => s.dt
  | .sound => s.st

/-- `TimerWrite(t, b)` (R311). -/
def State.timerWrite (s : State) (t : Timer) (b : TimerValue) : State :=
  match t with
  | .delay => { s with dt := b }
  | .sound => { s with st := b }

/-! ## Memory through the state -/

/-- `MemRead(a, 1)` (R61). -/
def State.memRead (s : State) (a : Nat) : Option Byte := Memory.read s.mem a

/-- `MemWrite(a, 1, b)` (R62). -/
def State.memWrite (s : State) (a : Nat) (b : Byte) : Option State :=
  (Memory.write s.mem a b).map s.setMem

/-- The word fetched at PC: two reads, big-endian (R64, R90); none is OutOfRange. -/
def State.fetchWord (s : State) : Option Word :=
  match s.memRead s.pc.toNat with
  | none => none
  | some b0 =>
    match s.memRead (s.pc.toNat + 1) with
    | none => none
    | some b1 => some (wordOfBytes b0 b1)

/-! ## Taking a fault, and leaving it -/

/-- `raise Fault(kind, word)` (R302): RUN := FAULTED(kind, word, PC), PC unchanged, and every other piece of
state any value (R304), the free values numbered by `draws` (log 3). Nothing is saved elsewhere. -/
def State.takeFault (s : State) (kind : FaultKind) (word : Option Word) : State where
  v := Config.faultV s.draws
  i := Config.faultI s.draws
  pc := s.pc
  stack := Config.faultStack s.draws
  sp := Config.faultSp s.draws
  dt := Config.faultDt s.draws
  st := Config.faultSt s.draws
  mem := Memory.ofBytes (Config.faultMem s.draws)
  screen := Config.faultScreen s.draws
  key := Config.faultKey s.draws
  run := .faulted kind word s.pc
  stage := s.stage
  draws := s.draws + 1
  inputs := s.inputs

/-- A meaning that ends in a core fault: the state after its entry (R302). -/
def raise (kind : FaultKind) (word : Option Word) (s : State) : Result := .next (s.takeFault kind word)

/-- The host's reset (R340 to R342), in any run state: the one way out of FAULTED (R306). The events still
pending stay, and free values are not drawn again (log 2). -/
def State.hostReset (s : State) : State :=
  { State.reset with draws := s.draws, inputs := s.inputs }

end Sys2Proof.Machine
end

