-- ==== Sys2Proof/Machine/Flags.lean ====
section
/-! DEFINITION. The results and flags of the arithmetic instructions, on naturals and integers and then
narrowed (10_state.md R32, 41_alu.md R160, R169 to R173). -/

namespace Sys2Proof.Machine

open Sys2Proof

/-- A flag value 1 or 0. -/
def flagOf (c : Bool) : RegValue := if c then 1 else 0

/-- `(a + b) mod 256` (R160, R169). -/
def addResult (a b : RegValue) : RegValue := BitVec.ofNat Config.vWidth (a.toNat + b.toNat)

/-- The carry: 1 if the unsigned sum exceeds the range of a register, 255 (R169). -/
def addFlag (a b : RegValue) : RegValue := flagOf (decide (a.toNat + b.toNat ≥ 2 ^ Config.vWidth))

/-- `(a - b) mod 256` on integers (R160, R170). -/
def subResult (a b : RegValue) : RegValue := BitVec.ofInt Config.vWidth ((a.toNat : Int) - (b.toNat : Int))

/-- 1 if the minuend is strictly greater than the subtrahend (R170, R172). -/
def subFlag (a b : RegValue) : RegValue := flagOf (decide (a.toNat > b.toNat))

/-- `a div 2` (R171). -/
def shrResult (a : RegValue) : RegValue := BitVec.ofNat Config.vWidth (a.toNat / 2)

/-- The pre-shift least significant bit (R171). -/
def shrFlag (a : RegValue) : RegValue := a &&& 0x01

/-- `(a * 2) mod 256` (R173). -/
def shlResult (a : RegValue) : RegValue := BitVec.ofNat Config.vWidth (a.toNat * 2)

/-- The mask of a register's most significant bit, 0x80 (R173). -/
def msbMask : RegValue := BitVec.ofNat Config.vWidth (2 ^ (Config.vWidth - 1))

/-- `a & 0x80`, not reduced to 0 or 1 unless the parameter SHL_FLAG says so (R173, D5). -/
def shlFlag (a : RegValue) : RegValue :=
  if Config.shlFlagNormalised then flagOf (decide (a &&& msbMask ≠ 0)) else a &&& msbMask

/-- The result to V[x] first, then the flag to VF (R162, D6). -/
def State.setResultFlag (s : State) (x : Reg) (result flag : RegValue) : State :=
  (s.setV x result).setFlag flag

end Sys2Proof.Machine
end

