-- ==== Sys2Proof/Machine/Operands.lean ====
section
/-! DEFINITION. The operand forms of the instructions (30_encoding.md R92, 20_memory.md R63). -/

namespace Sys2Proof.Machine

open Sys2Proof

/-- `zext_16(NNN)`: an address immediate as a value of PC (R92). -/
def pcOfAddr (nnn : Addr12) : PcValue := nnn.setWidth Config.pcWidth

/-- `zext_16(NNN)`: an address immediate as a value of I (R92). -/
def indexOfAddr (nnn : Addr12) : IndexValue := nnn.setWidth Config.iWidth

/-- An immediate byte as a register's value (R92). -/
def regOfByte (nn : Byte) : RegValue := nn.setWidth Config.vWidth

/-- A register's value as a byte of memory (R67). -/
def byteOfReg (b : RegValue) : Byte := b.setWidth 8

/-- The effective address `I + k`, an unbounded natural (R63, D12). -/
def State.effAddr (s : State) (k : Nat) : Nat := s.i.toNat + k

/-- The value of a register as a number below a bound; none at or above it. -/
def State.operandBelow (s : State) (n : Nat) (x : Reg) : Option (Fin n) :=
  if h : (s.getV x).toNat < n then some ⟨(s.getV x).toNat, h⟩ else none

/-- The key a register names; none above 0xF (R260, R261, D18). -/
def State.keyOperand (s : State) (x : Reg) : Option (Fin Config.numKeys) := s.operandBelow Config.numKeys x

/-- The hexadecimal digit a register holds; none above 0xF (R202, D18). -/
def State.digitOperand (s : State) (x : Reg) : Option (Fin Config.glyphCount) :=
  s.operandBelow Config.glyphCount x

/-- The bytes V0..VX in increasing order (R204). -/
def State.regBytes (s : State) (x : Reg) : List Byte := (s.v.toList.take (x.val + 1)).map byteOfReg

/-- The address of the glyph of a digit, `FONT_BASE + 5 * d` (R202). -/
def glyphAddr (d : Nat) : IndexValue := BitVec.ofNat Config.iWidth (Config.fontBase + Config.glyphBytes * d)

/-- The three decimal digits of a register's value: hundreds, tens, ones (R203). -/
def bcdDigits (b : RegValue) : List Byte :=
  [BitVec.ofNat 8 (b.toNat / 100), BitVec.ofNat 8 (b.toNat / 10 % 10), BitVec.ofNat 8 (b.toNat % 10)]

end Sys2Proof.Machine
end

