-- ==== Sys2Proof/Machine/Alu.lean ====
section
/-! DEFINITION. Register arithmetic, logic and random (41_alu.md). Operands are read first, then the
result is written, then the flag, then PC advances by 2 (R162). -/

namespace Sys2Proof.Machine

open Sys2Proof

/-- LD Vx, NN (R163). -/
def execLdByte (x : Reg) (nn : Byte) (s : State) : Result := .next (s.setV x (regOfByte nn)).advance

/-- ADD Vx, NN (R164, D8): no flag. -/
def execAddByte (x : Reg) (nn : Byte) (s : State) : Result :=
  .next (s.setV x (addResult (s.getV x) (regOfByte nn))).advance

/-- LD Vx, Vy (R165, D2). -/
def execLdReg (x y : Reg) (s : State) : Result := .next (s.setV x (s.getV y)).advance

/-- OR Vx, Vy (R166): no flag. -/
def execOrReg (x y : Reg) (s : State) : Result := .next (s.setV x (s.getV x ||| s.getV y)).advance

/-- AND Vx, Vy (R167): no flag. -/
def execAndReg (x y : Reg) (s : State) : Result := .next (s.setV x (s.getV x &&& s.getV y)).advance

/-- XOR Vx, Vy (R168): no flag. -/
def execXorReg (x y : Reg) (s : State) : Result := .next (s.setV x (s.getV x ^^^ s.getV y)).advance

/-- ADD Vx, Vy (R169). -/
def execAddReg (x y : Reg) (s : State) : Result :=
  .next (s.setResultFlag x (addResult (s.getV x) (s.getV y)) (addFlag (s.getV x) (s.getV y))).advance

/-- SUB Vx, Vy (R170): V[x] - V[y]. -/
def execSubReg (x y : Reg) (s : State) : Result :=
  .next (s.setResultFlag x (subResult (s.getV x) (s.getV y)) (subFlag (s.getV x) (s.getV y))).advance

/-- SUBN Vx, Vy (R172): V[y] - V[x]. -/
def execSubnReg (x y : Reg) (s : State) : Result :=
  .next (s.setResultFlag x (subResult (s.getV y) (s.getV x)) (subFlag (s.getV y) (s.getV x))).advance

/-- SHR Vx (R171, D4): the Y field is not read. -/
def execShr (x : Reg) (_ignored : Nibble) (s : State) : Result :=
  .next (s.setResultFlag x (shrResult (s.getV x)) (shrFlag (s.getV x))).advance

/-- SHL Vx (R173, D4, D5): the Y field is not read. -/
def execShl (x : Reg) (_ignored : Nibble) (s : State) : Result :=
  .next (s.setResultFlag x (shlResult (s.getV x)) (shlFlag (s.getV x))).advance

/-- RND Vx, NN with the byte drawn (R174). -/
def rndWith (draw : Byte) (x : Reg) (nn : Byte) (s : State) : State := (s.setV x (regOfByte (draw &&& nn))).advance

/-- RND Vx, NN (R174, D20): a fresh free byte on every execution (log 2). -/
def execRnd (x : Reg) (nn : Byte) (s : State) : Result :=
  .next (rndWith (Config.randomByte s.draws) x nn s.countDraw)

end Sys2Proof.Machine
end

