-- ==== Sys2Proof/Machine/ControlFlow.lean ====
section
/-! DEFINITION. Control transfer (40_control_flow.md). -/

namespace Sys2Proof.Machine

open Sys2Proof

/-- RET (R122). -/
def execRet (ignored : Nibble) (s : State) : Result :=
  match s.pop with
  | none => raise .stackUnderflow (some (encode (.ret ignored))) s
  | some (target, s') => .next (s'.setPc (target.setWidth Config.pcWidth))

/-- JP NNN (R123). -/
def execJp (nnn : Addr12) (s : State) : Result := .next (s.setPc (pcOfAddr nnn))

/-- CALL NNN (R124): push the address of the following instruction, then jump. -/
def execCall (nnn : Addr12) (s : State) : Result :=
  match s.push ((s.pc + 2).setWidth Config.stackEntryWidth) with
  | none => raise .stackOverflow (some (encode (.call nnn))) s
  | some s' => .next (s'.setPc (pcOfAddr nnn))

/-- SE Vx, NN (R125). -/
def execSeByte (x : Reg) (nn : Byte) (s : State) : Result := .next (s.skipIf (s.getV x == regOfByte nn))

/-- SNE Vx, NN (R126). -/
def execSneByte (x : Reg) (nn : Byte) (s : State) : Result := .next (s.skipIf (s.getV x != regOfByte nn))

/-- SE Vx, Vy (R127). -/
def execSeReg (x y : Reg) (s : State) : Result := .next (s.skipIf (s.getV x == s.getV y))

/-- SNE Vx, Vy (R128). -/
def execSneReg (x y : Reg) (s : State) : Result := .next (s.skipIf (s.getV x != s.getV y))

/-- JP V0, NNN (R129, D9): the sum is not reduced to 12 bits. -/
def execJpV0 (nnn : Addr12) (s : State) : Result :=
  .next (s.setPc (pcOfAddr nnn + (s.getV 0).setWidth Config.pcWidth))

end Sys2Proof.Machine
end

