-- ==== Sys2Proof/Machine/Display.lean ====
section
/-! DEFINITION. The display instructions (43_raster.md). -/

namespace Sys2Proof.Machine

open Sys2Proof

/-- CLS (R235). -/
def execCls (_ignored : Nibble) (s : State) : Result := .next (s.setScreen Screen.blank).advance

/-- DRW Vx, Vy, N (R236, D17): all reads precede the blit; the flag is written on every DRW. -/
def execDrw (x y : Reg) (n : Nat) (s : State) : Result :=
  match Memory.readBytes s.mem (s.effAddr 0) n with
  | none => raise .outOfRange (some (encode (.drw x y n))) s
  | some rows =>
    .next (((s.setScreen (s.screen.blit (s.getV x).toNat (s.getV y).toNat rows).1).setFlag
      (flagOf (s.screen.blit (s.getV x).toNat (s.getV y).toNat rows).2)).advance)

end Sys2Proof.Machine
end

