-- ==== Sys2Proof/Machine/IndexMemory.lean ====
section
/-! DEFINITION. The index register and memory transfer (42_index_memory.md). -/

namespace Sys2Proof.Machine

open Sys2Proof

/-- Store bytes at I, I + 1, … and advance; OutOfRange at the first byte outside the space (R67, R203, R204). -/
def storeAtI (word : Word) (bytes : List Byte) (s : State) : Result :=
  match Memory.writeBytes s.mem (s.effAddr 0) bytes with
  | none => raise .outOfRange (some word) s
  | some m => .next (s.setMem m).advance

/-- LD I, NNN (R200). -/
def execLdI (nnn : Addr12) (s : State) : Result := .next (s.setI (indexOfAddr nnn)).advance

/-- ADD I, Vx (R201, D12): wraps at 16 bits, no flag. -/
def execAddI (x : Reg) (s : State) : Result := .next (s.setI (s.i + (s.getV x).setWidth Config.iWidth)).advance

/-- LD F, Vx (R202, D14, D18). -/
def execLdF (x : Reg) (s : State) : Result :=
  match s.digitOperand x with
  | none => raise .unmodelledOperand (some (encode (.ldF x))) s
  | some d => .next (s.setI (glyphAddr d.val)).advance

/-- LD B, Vx (R203). -/
def execLdB (x : Reg) (s : State) : Result := storeAtI (encode (.ldB x)) (bcdDigits (s.getV x)) s

/-- LD [I], Vx (R204, D13): I is unchanged. -/
def execStoreRegs (x : Reg) (s : State) : Result := storeAtI (encode (.storeRegs x)) (s.regBytes x) s

/-- LD Vx, [I] (R205, D13): I is unchanged. -/
def execLoadRegs (x : Reg) (s : State) : Result :=
  match Memory.readBytes s.mem (s.effAddr 0) (x.val + 1) with
  | none => raise .outOfRange (some (encode (.loadRegs x))) s
  | some bytes => .next (s.setVs bytes).advance

end Sys2Proof.Machine
end

