-- ==== Sys2Proof/Machine/TimersKeypad.lean ====
section
/-! DEFINITION. The keypad and timer instructions (44_timers_keypad.md). -/

namespace Sys2Proof.Machine

open Sys2Proof

/-- SKP Vx (R260, D18). -/
def execSkp (x : Reg) (s : State) : Result :=
  match s.keyOperand x with
  | none => raise .unmodelledOperand (some (encode (.skp x))) s
  | some k => .next (s.skipIf (s.keyDown? k))

/-- SKNP Vx (R261, D18). -/
def execSknp (x : Reg) (s : State) : Result :=
  match s.keyOperand x with
  | none => raise .unmodelledOperand (some (encode (.sknp x))) s
  | some k => .next (s.skipIf (!(s.keyDown? k)))

/-- LD Vx, DT (R262). -/
def execLdFromDt (x : Reg) (s : State) : Result := .next (s.setV x ((s.timerRead .delay).setWidth Config.vWidth)).advance

/-- LD DT, Vx (R263). -/
def execLdDt (x : Reg) (s : State) : Result := .next (s.timerWrite .delay ((s.getV x).setWidth Config.timerWidth)).advance

/-- LD ST, Vx (R264). -/
def execLdSt (x : Reg) (s : State) : Result := .next (s.timerWrite .sound ((s.getV x).setWidth Config.timerWidth)).advance

/-- LD Vx, K (R265, D19): wait for a key; PC stays, and the wait ends by a key-down event (R266). -/
def execLdKey (x : Reg) (s : State) : Result := .next (s.setRun (.awaitingKey x))

end Sys2Proof.Machine
end

