-- ==== Sys2Proof/Machine/HostPorts.lean ====
section
/-! DEFINITION. What the agents other than the core do: timer ticks, key events, load and boot, and the
output ports (60_exceptions.md R309 to R319, 20_memory.md R72, 70_reset_and_hazards.md R341 to R343). -/

namespace Sys2Proof.Machine

open Sys2Proof

/-- One less, never below zero (R309). -/
def tickValue (b : TimerValue) : TimerValue := if b = 0 then 0 else b - 1

/-- One tick of a timer, through the accessors of R311 (R309). -/
def State.tick (s : State) (t : Timer) : State := s.timerWrite t (tickValue (s.timerRead t))

/-- `key_down(k)` (R316): KEY[k] := true; if the key was up and the core waits for a key, the wait ends in
the same event (R266). -/
def State.pressKey (s : State) (k : Fin Config.numKeys) : State :=
  match s.run with
  | .awaitingKey x =>
    if s.keyDown? k then s
    else (((s.setKey k true).setV x (BitVec.ofNat Config.vWidth k.val)).advance).setRun .running
  | .running => s.setKey k true
  | .faulted _ _ _ => s.setKey k true

/-- `key_up(k)` (R316). -/
def State.releaseKey (s : State) (k : Fin Config.numKeys) : State := s.setKey k false

/-- `load(bytes, offset)` (R72, D23): none, and nothing written, if the bytes do not fit. -/
def State.load (s : State) (offset : Nat) (bytes : List Byte) : Option State :=
  if offset + bytes.length > Config.memSize then none
  else (Memory.writeBytes s.mem offset bytes).map s.setMem

/-- What the `load` port answers the host (R315). -/
inductive LoadReply where
  | ok
  | outOfRange
deriving DecidableEq, Repr

/-- The answer of the `load` port to a load (R72, R315). -/
def State.loadReply (s : State) (offset : Nat) (bytes : List Byte) : LoadReply :=
  if (s.load offset bytes).isSome then .ok else .outOfRange

/-- A load before execution starts (R72, R343): the bytes are in place, or memory is as it was, OutOfRange is
reported and the run does not start; the host may load again or reset (log 8). -/
def State.hostLoad (s : State) (offset : Nat) (bytes : List Byte) : State :=
  match s.load offset bytes with
  | none => s.setStage .loadFailed
  | some s' => s'.setStage .loading

/-- A `load` event: only before execution starts (R72), since then the core alone touches memory (R69, log 8). -/
def loadEvent (offset : Nat) (bytes : List Byte) (s : State) : Result :=
  match s.stage with
  | .loading => .next (s.hostLoad offset bytes)
  | .loadFailed => .next (s.hostLoad offset bytes)
  | .started => .fault .loadAfterStart

/-! ## Boot (R341) -/

/-- The Address Space when reset has zeroed it and nothing is preloaded yet (R340). -/
def Memory.zeroed : Memory := Memory.ofBytes fun _ => 0

/-- Boot step 2: `MEM[FONT_BASE + k] <- GLYPH_DATA[k]` (R342). -/
def Memory.preloadGlyphs (m : Memory) : Option Memory :=
  Memory.writeBytes m Config.fontBase Config.glyphData

/-- Boot steps 1 to 3 (R341): reset, glyph preload, and the program at PROGRAM_BASE; none if it does not
fit (R343). -/
def boot (program : List Byte) : Option State := State.reset.load Config.programBase program

/-! ## Output ports (R315) -/

/-- The values at the output ports. -/
structure Outputs where
  /-- `screen`: cell (x, y) at bit y*64 + x -/
  screen : BitVec (Config.screenW * Config.screenH)
  /-- `dt_value` -/
  dtValue : TimerValue
  /-- `st_value` -/
  stValue : TimerValue
  /-- `awaiting_key` -/
  awaitingKey : Bool
  /-- `fault`: the report (kind, word, pc), present when RUN = FAULTED (R303, R319) -/
  fault : Option (FaultKind × Option Word × PcValue)
deriving DecidableEq, Repr

/-- The bits of a row-major grid, cell (x, y) at bit y*64 + x (R37, R315). -/
def Screen.snapshot (sc : Screen) : BitVec (Config.screenW * Config.screenH) :=
  BitVec.ofFnLE fun k => sc.cell (k.val % Config.screenW) (k.val / Config.screenW)

/-- The fault report of a run state (R303). -/
def RunState.report : RunState → Option (FaultKind × Option Word × PcValue)
  | .faulted kind word pc => some (kind, word, pc)
  | .running => none
  | .awaitingKey _ => none

/-- Whether a run state waits for a key (R321). -/
def RunState.awaiting : RunState → Bool
  | .awaitingKey _ => true
  | .running => false
  | .faulted _ _ _ => false

/-- The output ports, read between steps; reading changes no state (R315, R317). -/
def State.outputs (s : State) : Outputs where
  screen := s.screen.snapshot
  dtValue := s.timerRead .delay
  stValue := s.timerRead .sound
  awaitingKey := s.run.awaiting
  fault := s.run.report

end Sys2Proof.Machine
end

