-- ==== Sys2Proof/Machine/Clock.lean ====
section
/-! DEFINITION. One tick of the instruction clock, and the delivery of one event (R120, R310, R315). -/

namespace Sys2Proof.Machine

open Sys2Proof

/-- Fetch, decode, execute (R120), faulting in the order of R305. -/
def fetchDecodeExecute (s : State) : Result :=
  match s.fetchWord with
  | none => raise .outOfRange none s
  | some w =>
    match decode w with
    | .error _ => raise .unknownOpcode (some w) s
    | .ok i => exec i s

/-- One tick of the instruction clock (R120): the run starts if it has not, unless the load failed (R341,
R343); no fetch while the core waits for a key (R266), no step after a fault (R306). -/
def clockEdge (s : State) : Result :=
  match s.run with
  | .running => if s.stage = .loadFailed then .next s else fetchDecodeExecute s.start
  | .awaitingKey _ => .next s
  | .faulted _ _ _ => .next s

/-- One event at an input port (R315). -/
def deliver (e : Input) (s : State) : Result :=
  match e with
  | .clkInstr => clockEdge s
  | .tick t => .next (s.tick t)
  | .keyDown k => .next (s.pressKey k)
  | .keyUp k => .next (s.releaseKey k)
  | .reset => .next s.hostReset
  | .load offset bytes => loadEvent offset bytes s

/-- The core alone, no event pending: the instruction clock ticks, and a faulted run is over (R306, log 9). -/
def runAlone (s : State) : Result :=
  match s.run with
  | .faulted kind word pc => .fault (.halted kind word pc)
  | .running => clockEdge s
  | .awaitingKey _ => clockEdge s

/-- The next event: the first pending one, else the instruction clock (log 1). -/
def nextEvent (s : State) : Result :=
  match s.inputs with
  | [] => runAlone s
  | e :: rest => deliver e (s.setInputs rest)

/-! ## Placing a word where the next step fetches it (log 7) -/

/-- The PC from which a word can be fetched: the state's own unless the fetch would be OutOfRange. -/
def State.fetchablePc (s : State) : PcValue :=
  if s.pc.toNat + 1 < Config.memSize then s.pc else BitVec.ofNat Config.pcWidth Config.programBase

/-- The stage with a failed load made good: a word is in place. -/
def BootStage.loaded : BootStage → BootStage
  | .loading => .loading
  | .loadFailed => .loading
  | .started => .started

/-- The pending events with a tick of the instruction clock first. -/
def clockFirst : List Input → List Input
  | [] => []
  | e :: rest => .clkInstr :: e :: rest

/-- The state with a word at PC, running, and the instruction clock next. -/
def State.placeWord (s : State) (w : Word) : State :=
  { s with
    pc := s.fetchablePc
    mem := Memory.poke (Memory.poke s.mem s.fetchablePc.toNat (highByte w))
      (s.fetchablePc.toNat + 1) (lowByte w)
    run := .running
    stage := s.stage.loaded
    inputs := clockFirst s.inputs }

end Sys2Proof.Machine
end

