-- ==== Sys2Proof/Machine/Step.lean ====
section
/-! DEFINITION. The step of the model: one event of the block (log 1). -/

namespace Sys2Proof.Machine

open Sys2Proof

/-- One step: the next event. -/
def step (s : State) : Host.Outcome State Fault Refusal := nextEvent s

/-- The state with a table word stored where `step` fetches its next instruction (log 7). -/
def State.withFetchWord (s : State) (nbits w : Nat) : State := s.placeWord (tableWord nbits w)

end Sys2Proof.Machine
end

