-- ==== Sys2Proof/Safety.lean ====
section
/-! DEFINITION. Runs, schedules and what claims call a finished, a faulted and a consistent state
(60_exceptions.md R302 to R310, 70_reset_and_hazards.md R356, R357). -/

namespace Sys2Proof.Machine

open Sys2Proof

/-! ## Frames: what may differ between two states -/

/-- The pieces of state of 10_state.md, the stack's entries and SP apart, the stage of the boot, and the model's
own two. -/
inductive Part where
  | v
  | i
  | pc
  | stack
  | sp
  | dt
  | st
  | mem
  | screen
  | key
  | run
  | stage
  | draws
  | inputs
deriving DecidableEq, Repr

/-- Two states agree on a piece: on every register, every byte read, every cell, every key. -/
def State.same (s t : State) : Part → Prop
  | .v => ∀ r : Reg, t.getV r = s.getV r
  | .i => t.i = s.i
  | .pc => t.pc = s.pc
  | .stack => ∀ k : Fin Config.stackDepth, t.stack[k] = s.stack[k]
  | .sp => t.sp = s.sp
  | .dt => t.dt = s.dt
  | .st => t.st = s.st
  | .mem => ∀ a : Nat, t.memRead a = s.memRead a
  | .screen => ∀ x y : Nat, t.screen.cell x y = s.screen.cell x y
  | .key => ∀ k : Fin Config.numKeys, t.keyDown? k = s.keyDown? k
  | .run => t.run = s.run
  | .stage => t.stage = s.stage
  | .draws => t.draws = s.draws
  | .inputs => t.inputs = s.inputs

/-- The frame: `t` agrees with `s` on every piece that is not listed. -/
def State.sameBut (s : State) (parts : List Part) (t : State) : Prop :=
  ∀ p : Part, p ∉ parts → s.same t p

/-- Every register but the listed ones keeps its value. -/
def State.sameRegsBut (s : State) (dests : List Reg) (t : State) : Prop :=
  ∀ r : Reg, r ∉ dests → t.getV r = s.getV r

/-- `MEM[a]` (R8), for an address inside the space. -/
def State.byteAt (s : State) (a : Nat) : Byte := Memory.peek s.mem a

/-! ## Tables of the spec, as the statements read them -/

/-- The illegal words, by family (30_encoding.md R94). -/
def illegalWord (w : Word) : Prop :=
  (fieldF w = 0x0 ∧ bits w 7 0 ∉ [0xE0, 0xEE]) ∨
  (fieldF w = 0x5 ∧ fieldN w ≠ 0) ∨
  (fieldF w = 0x8 ∧ fieldN w ∈ [0x8, 0x9, 0xA, 0xB, 0xC, 0xD, 0xF]) ∨
  (fieldF w = 0x9 ∧ fieldN w ≠ 0) ∨
  (fieldF w = 0xE ∧ bits w 7 0 ∉ [0x9E, 0xA1]) ∨
  (fieldF w = 0xF ∧ bits w 7 0 ∉ [0x07, 0x0A, 0x15, 0x18, 0x1E, 0x29, 0x33, 0x55, 0x65])

/-- Which instruction faults in its execute phase, and when (60_exceptions.md R301). -/
def execFault : Instr → State → Option FaultKind
  | .ret _, s => if s.sp.val = 0 then some .stackUnderflow else none
  | .call _, s => if s.sp.val = 16 then some .stackOverflow else none
  | .drw _ _ n, s => if n ≥ 1 ∧ s.i.toNat + n - 1 ≥ 4096 then some .outOfRange else none
  | .skp x, s => if (s.getV x).toNat > 0xF then some .unmodelledOperand else none
  | .sknp x, s => if (s.getV x).toNat > 0xF then some .unmodelledOperand else none
  | .ldF x, s => if (s.getV x).toNat > 0xF then some .unmodelledOperand else none
  | .ldB _, s => if s.i.toNat + 2 ≥ 4096 then some .outOfRange else none
  | .storeRegs x, s => if s.i.toNat + x.val ≥ 4096 then some .outOfRange else none
  | .loadRegs x, s => if s.i.toNat + x.val ≥ 4096 then some .outOfRange else none
  | .cls _, _ | .jp _, _ | .seByte _ _, _ | .sneByte _ _, _ | .seReg _ _, _ | .ldByte _ _, _
  | .addByte _ _, _ | .ldReg _ _, _ | .orReg _ _, _ | .andReg _ _, _ | .xorReg _ _, _ | .addReg _ _, _
  | .subReg _ _, _ | .shr _ _, _ | .subnReg _ _, _ | .shl _ _, _ | .sneReg _ _, _ | .ldI _, _
  | .jpV0 _, _ | .rnd _ _, _ | .ldFromDt _, _ | .ldKey _, _ | .ldDt _, _ | .ldSt _, _ | .addI _, _ => none

/-- The fault a core step raises, if any, and the word it reports: fetch, then decode, then the execute
phase (60_exceptions.md R301, R302, R305). -/
def coreFault (s : State) : Option (FaultKind × Option Word) :=
  if s.pc.toNat ≥ 4096 ∨ s.pc.toNat + 1 ≥ 4096 then some (.outOfRange, none)
  else
    let w := wordOfBytes (s.byteAt s.pc.toNat) (s.byteAt (s.pc.toNat + 1))
    match decode w with
    | .error _ => some (.unknownOpcode, some w)
    | .ok i => (execFault i s).map fun kind => (kind, some w)

/-- The address RET pops: the entry below SP (40_control_flow.md R122). -/
def State.returnAddress (s : State) : EntryValue :=
  s.stack[s.sp.val - 1]'(by have := s.sp.isLt; simp only [Config.stackDepth] at *; omega)

/-- The PC after an instruction that does not fault (40_control_flow.md R121). -/
def pcAfter : Instr → State → PcValue
  | .ret _, s => s.returnAddress.setWidth Config.pcWidth
  | .jp nnn, _ => BitVec.ofNat Config.pcWidth nnn.toNat
  | .call nnn, _ => BitVec.ofNat Config.pcWidth nnn.toNat
  | .jpV0 nnn, s => BitVec.ofNat Config.pcWidth (nnn.toNat + (s.getV 0).toNat)
  | .seByte x nn, s => if s.getV x = nn then s.pc + 4 else s.pc + 2
  | .sneByte x nn, s => if s.getV x ≠ nn then s.pc + 4 else s.pc + 2
  | .seReg x y, s => if s.getV x = s.getV y then s.pc + 4 else s.pc + 2
  | .sneReg x y, s => if s.getV x ≠ s.getV y then s.pc + 4 else s.pc + 2
  | .skp x, s => if s.keyDown? (Fin.ofNat Config.numKeys (s.getV x).toNat) = true then s.pc + 4 else s.pc + 2
  | .sknp x, s => if s.keyDown? (Fin.ofNat Config.numKeys (s.getV x).toNat) = false then s.pc + 4 else s.pc + 2
  | .ldKey _, s => s.pc
  | .cls _, s | .ldByte _ _, s | .addByte _ _, s | .ldReg _ _, s | .orReg _ _, s | .andReg _ _, s
  | .xorReg _ _, s | .addReg _ _, s | .subReg _ _, s | .shr _ _, s | .subnReg _ _, s | .shl _ _, s
  | .ldI _, s | .rnd _ _, s | .drw _ _ _, s | .ldFromDt _, s | .ldDt _, s | .ldSt _, s | .addI _, s
  | .ldF _, s | .ldB _, s | .storeRegs _, s | .loadRegs _, s => s.pc + 2

/-- The pieces of state an instruction that does not fault may write, PC aside (10_state.md R22, R24, R31,
R34 to R37; the counter of draws is the model's). -/
def mayWrite : Instr → List Part
  | .cls _ => [.screen]
  | .ret _ => [.sp]
  | .call _ => [.stack, .sp]
  | .jp _ | .jpV0 _ | .seByte _ _ | .sneByte _ _ | .seReg _ _ | .sneReg _ _ | .skp _ | .sknp _ => []
  | .ldByte _ _ | .addByte _ _ | .ldReg _ _ | .orReg _ _ | .andReg _ _ | .xorReg _ _ | .addReg _ _
  | .subReg _ _ | .shr _ _ | .subnReg _ _ | .shl _ _ | .ldFromDt _ | .loadRegs _ => [.v]
  | .rnd _ _ => [.v, .draws]
  | .drw _ _ _ => [.v, .screen]
  | .ldI _ | .addI _ | .ldF _ => [.i]
  | .ldDt _ => [.dt]
  | .ldSt _ => [.st]
  | .ldB _ | .storeRegs _ => [.mem]
  | .ldKey _ => [.run]

/-- The general registers an instruction may write, VF as a flag among them (10_state.md R22, R32). FX0A writes
its register only when the key wait completes (R266). -/
def mayWriteReg : Instr → Reg → Prop
  | .ldByte x _, r | .addByte x _, r | .ldReg x _, r | .orReg x _, r | .andReg x _, r | .xorReg x _, r
  | .rnd x _, r | .ldFromDt x, r => r = x
  | .addReg x _, r | .subReg x _, r | .subnReg x _, r | .shr x _, r | .shl x _, r => r = x ∨ r = Reg.vf
  | .drw _ _ _, r => r = Reg.vf
  | .loadRegs x, r => r ≤ x
  | .cls _, _ | .ret _, _ | .jp _, _ | .call _, _ | .seByte _ _, _ | .sneByte _ _, _ | .seReg _ _, _
  | .sneReg _ _, _ | .ldI _, _ | .jpV0 _, _ | .skp _, _ | .sknp _, _ | .ldKey _, _ | .ldDt _, _
  | .ldSt _, _ | .addI _, _ | .ldF _, _ | .ldB _, _ | .storeRegs _, _ => False

/-- A sprite at `(x, y)` has a set bit for the cell `(cx, cy)`: bit 7 of a row is its leftmost pixel, and
coordinates wrap (43_raster.md R230, R232). -/
def spriteSets (rows : List Byte) (x y cx cy : Nat) : Prop :=
  ∃ r b : Nat, r < rows.length ∧ b < 8 ∧ (rows.getD r 0).getLsbD (7 - b) = true ∧
    cx = (x + b) % 64 ∧ cy = (y + r) % 32

/-! ## Ends of a run (R357) -/

/-- The core takes a step at the next tick of the instruction clock: RUN = RUNNING, and the load before the run
has not failed (R120, R343). -/
abbrev State.Runs (s : State) : Prop := s.run = .running ∧ s.stage ≠ .loadFailed

/-- FAULTED (R357). -/
def State.isFaulted (s : State) : Bool := s.run.report.isSome

/-- Finished (R357): RUNNING at `1NNN` with NNN = PC, a jump to itself. -/
def State.isFinished (s : State) : Bool :=
  decide s.Runs && s.fetchWord == some (wordA 0x1 s.pc.toNat) && decide (s.pc.toNat < 4096)

/-! ## Runs under a schedule (R310) -/

/-- An infinite schedule of events: which event comes at each moment. It is no part of State. -/
abbrev Schedule := Nat → Input

/-- The first `n` events of a schedule, one after the other, stopping at the first fault or refusal. -/
def runUnder (sched : Schedule) : Nat → State → Result
  | 0, s => .next s
  | n + 1, s =>
    match runUnder sched n s with
    | .next t => deliver (sched n) t
    | .fault r => .fault r
    | .refused r => .refused r

/-- `n` steps of the model, stopping at the first fault or refusal. -/
def runSteps : Nat → State → Result
  | 0, s => .next s
  | n + 1, s =>
    match step s with
    | .next t => runSteps n t
    | .fault r => .fault r
    | .refused r => .refused r

/-- The first `n` events of a schedule. -/
def Schedule.take (sched : Schedule) (n : Nat) : List Input := (List.range n).map sched

/-- Fairness of the core (R356): the instruction clock ticks again and again, so a RUNNING core eventually steps. -/
def Schedule.fairToCore (sched : Schedule) : Prop := ∀ n, ∃ m, n ≤ m ∧ sched m = .clkInstr

/-- Weak fairness of a timer's agent (R310): its ticks come again and again. -/
def Schedule.fairTo (sched : Schedule) (t : Timer) : Prop := ∀ n, ∃ m, n ≤ m ∧ sched m = .tick t

/-- The fairness every infinite run has (R310, R356): to the core and to each timer. -/
def Schedule.fair (sched : Schedule) : Prop := sched.fairToCore ∧ ∀ t : Timer, sched.fairTo t

/-- Events that neither press or release a key nor reset or load: clock and timer ticks (R321). -/
def Input.isTick : Input → Bool
  | .clkInstr => true
  | .tick _ => true
  | .keyDown _ => false
  | .keyUp _ => false
  | .reset => false
  | .load _ _ => false

/-! ## Invariants -/

/-- A fault report agrees with the state and with itself (R301 to R303): its pc is PC; no word only for a
fetch out of range; UnknownOpcode with a word no row matches, the stack faults with a CALL or a RET, and an
UnmodelledOperand with SKP, SKNP or LD F; an OutOfRange with a word is DRW, LD B, LD [I] or LD Vx,[I]. -/
def RunState.consistent (r : RunState) (pc : PcValue) : Prop :=
  match r with
  | .running => True
  | .awaitingKey _ => True
  | .faulted kind word p =>
    p = pc ∧
    match kind, word with
    | .outOfRange, none => pc.toNat + 1 ≥ Config.memSize
    | .outOfRange, some w =>
      (∃ x y n, decode w = .ok (.drw x y n)) ∨ (∃ x, decode w = .ok (.ldB x)) ∨
        (∃ x, decode w = .ok (.storeRegs x)) ∨ (∃ x, decode w = .ok (.loadRegs x))
    | .stackOverflow, some w => ∃ nnn, decode w = .ok (.call nnn)
    | .stackUnderflow, some w => ∃ k, decode w = .ok (.ret k)
    | .unknownOpcode, some w => decode w = .error (.unknownOpcode w)
    | .unmodelledOperand, some w =>
      (∃ x, decode w = .ok (.skp x)) ∨ (∃ x, decode w = .ok (.sknp x)) ∨ (∃ x, decode w = .ok (.ldF x))
    | .stackOverflow, none => False
    | .stackUnderflow, none => False
    | .unknownOpcode, none => False
    | .unmodelledOperand, none => False

/-- The memory is in canonical form, a fault report is consistent, and a core that waits or has faulted has
started (R341). -/
def State.Inv (s : State) : Prop :=
  Memory.wf s.mem ∧ s.run.consistent s.pc ∧ (s.run ≠ .running → s.stage = .started)

/-- PC stays where 16-bit arithmetic cannot overflow (R28): at most 0x10FE; while the core waits for a key
PC is the address of a fetched word; until a fault, a stack entry is the address after a CALL, at most 0x1000. -/
def State.PcBounded (s : State) : Prop :=
  s.pc.toNat ≤ 0x10FE ∧
  match s.run with
  | .running => ∀ k : Fin Config.stackDepth, s.stack[k].toNat ≤ 0x1000
  | .awaitingKey _ => s.pc.toNat ≤ 0xFFE ∧ ∀ k : Fin Config.stackDepth, s.stack[k].toNat ≤ 0x1000
  | .faulted _ _ _ => True

end Sys2Proof.Machine
end

