-- ==== Sys2Proof/Certificates/Slice0/Obligations.lean ====
section
/-! DEFINITION. The statements for the provers. Each docstring says which rule of spec/ it formalises. A
statement marked "Derived" rests, in the clause named, on one of the spec's own decisions (D<n> of
92_eei_decisions.md, log 5), on an inference, or on a choice of the model (a log row). -/

open Sys2Proof Sys2Proof.Machine

/-! ## Decoding and encoding -/

/-- Derived (D1, D3): decoding the word of a well-formed instruction gives it back, with every operand. -/
def Obligations.DecodeOfEncodeIsIdentity : Prop :=
  ∀ i : Instr, i.WellFormed → decode (encode i) = .ok i

/-- Derived (D1, D3): a word that decodes is the word of its instruction, bit for bit, and the
instruction is well-formed. That no bit of a legal word is dropped, the ignored bits of CLS, RET, SHR and SHL
among them, is the model's choice of syntax (log 4). -/
def Obligations.EncodeOfDecodeIsIdentity : Prop :=
  ∀ (w : Word) (i : Instr), decode w = .ok i → encode i = w ∧ i.WellFormed

/-- Derived (R94, D3): the illegal words, by family, are exactly those that decode to UnknownOpcode with
their exact value; every other word is an instruction. -/
def Obligations.UnknownOpcodeExactlyOnIllegalWords : Prop :=
  ∀ w : Word, (illegalWord w → decode w = .error (.unknownOpcode w)) ∧
    (¬ illegalWord w → ∃ i, decode w = .ok i)

/-- Derived (opcode map, D1): a row's mask and match select a word exactly when the word decodes to an
instruction of that row; so no word selects two rows, and an illegal word selects none. -/
def Obligations.DecodeFollowsOpcodeMap : Prop :=
  ∀ (w : Word) (j : Instr), j.row.selects w = true ↔ ∃ i, decode w = .ok i ∧ i.row = j.row

/-- Derived (R93, D1 to D3): words written out from the formats of 30_encoding.md decode as it says. -/
def Obligations.WrittenWordsDecode : Prop :=
  decode 0b0000001111100000 = .ok (.cls 3) ∧
  decode 0b0010001100000000 = .ok (.call 0x300) ∧
  decode 0b0101000100100000 = .ok (.seReg 1 2) ∧
  decode 0b1000000000010101 = .ok (.subReg 0 1) ∧
  decode 0b1010001011110000 = .ok (.ldI 0x2F0) ∧
  decode 0b1101000000010101 = .ok (.drw 0 1 5) ∧
  decode 0b1110001010011110 = .ok (.skp 2) ∧
  decode 0b1111001100010101 = .ok (.ldDt 3) ∧
  decode 0b0101000000000001 = .error (.unknownOpcode 0x5001)

/-! ## Memory and fetch -/

/-- Derived (R61, R62): an access at or above 4096 is OutOfRange (none, which the meanings turn into the fault of
R301); below, a write makes the address read as the value. The premise that memory is in canonical form is an
invariant of the model (log 6). Every other address and every other piece of state stays. -/
def Obligations.ReadAfterWrite : Prop :=
  ∀ (s : State) (a : Nat) (b : Byte), Memory.wf s.mem →
    (4096 ≤ a → s.memRead a = none ∧ s.memWrite a b = none) ∧
    (a < 4096 → ∃ t, s.memWrite a b = some t ∧ Memory.wf t.mem ∧ t.memRead a = some b ∧
      (∀ c, c ≠ a → t.memRead c = s.memRead c) ∧ s.sameBut [.mem] t)

/-- R64: fetch is big-endian at any PC, even or odd: the byte at PC gives bits 15..8 of the word and the byte at
PC + 1 bits 7..0. -/
def Obligations.FetchIsBigEndian : Prop :=
  ∀ (s : State) (b0 b1 : Byte), s.memRead s.pc.toNat = some b0 → s.memRead (s.pc.toNat + 1) = some b1 →
    ∃ w, s.fetchWord = some w ∧ w.toNat = b0.toNat * 256 + b1.toNat ∧ bits w 15 8 = b0.toNat ∧
      bits w 7 0 = b1.toNat

/-- Derived (R72, R343, D23; log 8): before execution starts a load that fits puts each byte at its address, answers
ok and changes nothing else. One that does not fit answers OutOfRange to the host and leaves memory, and the
run does not start: a tick of the instruction clock then does nothing. That a later load may still succeed, and that a
load after the start stops the model, is the model's choice (log 8). -/
def Obligations.LoadPlacesBytesOrReportsOutOfRange : Prop :=
  ∀ (s : State) (offset : Nat) (bytes : List Byte), Memory.wf s.mem →
    (s.stage ≠ .started → offset + bytes.length ≤ 4096 → ∃ t, deliver (.load offset bytes) s = .next t ∧
      s.loadReply offset bytes = .ok ∧ (∀ k, (h : k < bytes.length) → t.memRead (offset + k) = some bytes[k]) ∧
      (∀ a, a < offset ∨ offset + bytes.length ≤ a → t.memRead a = s.memRead a) ∧ t.stage = .loading ∧
      s.sameBut [.mem, .stage] t) ∧
    (s.stage ≠ .started → 4096 < offset + bytes.length → ∃ t, deliver (.load offset bytes) s = .next t ∧
      s.loadReply offset bytes = .outOfRange ∧ t.stage = .loadFailed ∧ s.sameBut [.stage] t ∧
      clockEdge t = .next t) ∧
    (s.stage = .started → deliver (.load offset bytes) s = .fault .loadAfterStart)

/-- Derived (R69, R72; log 8): once execution has started, no event but the core's own step and a reset changes
memory or the Raster Buffer. -/
def Obligations.OnlyTheCoreWritesMemoryOnceStarted : Prop :=
  ∀ (e : Input) (s t : State), s.stage = .started → e ≠ .clkInstr → e ≠ .reset → deliver e s = .next t →
    (∀ a, t.memRead a = s.memRead a) ∧ ∀ x y : Nat, t.screen.cell x y = s.screen.cell x y

/-! ## Reset and boot -/

/-- Derived (R340, R342 with D14, D15, D22, D28): a reset in any run state gives every piece of state its reset
value, the glyph table at 0x000 and zero elsewhere in memory. -/
def Obligations.ResetGivesResetValues : Prop :=
  ∀ s : State, ∃ t, deliver .reset s = .next t ∧ (∀ r : Reg, t.getV r = 0) ∧ t.i = 0 ∧ t.pc = 0x200 ∧
    (∀ k : Fin Config.stackDepth, t.stack[k] = 0) ∧ t.sp = 0 ∧ t.dt = 0 ∧ t.st = 0 ∧
    (∀ a, a < 80 → t.memRead a = Config.glyphData[a]?) ∧
    (∀ a, 80 ≤ a → a < 4096 → t.memRead a = some 0) ∧ (∀ x y, t.screen.cell x y = false) ∧
    (∀ k, t.keyDown? k = false) ∧ t.run = .running ∧ t.stage = .loading

/-- Derived (R341, R342, D15): from the memory that reset zeroed, the glyph preload gives the memory of the
model's reset state. -/
def Obligations.GlyphPreloadGivesResetMemory : Prop :=
  (∀ a, a < 4096 → Memory.read Memory.zeroed a = some 0) ∧
    Memory.preloadGlyphs Memory.zeroed = some State.reset.mem

/-- Derived (R341, R343, D23): a program of at most 3584 bytes boots to a running core at 0x200 with the
program's bytes from 0x200 on and everything else as after reset; a longer one does not boot. -/
def Obligations.BootPlacesProgramAt0x200 : Prop :=
  ∀ program : List Byte,
    (program.length ≤ 3584 → ∃ t, boot program = some t ∧ t.run = .running ∧ t.pc = 0x200 ∧
      (∀ k, (h : k < program.length) → t.memRead (0x200 + k) = some program[k]) ∧
      (∀ a, a < 0x200 ∨ 0x200 + program.length ≤ a → t.memRead a = State.reset.memRead a) ∧
      State.reset.sameBut [.mem] t) ∧
    (3584 < program.length → boot program = none)

/-! ## The step -/

/-- Derived (R120, R315; log 1, log 8): a step delivers the next pending event; with none pending and no fault it is a
tick of the instruction clock. When the core runs and the two bytes at PC decode to an instruction, that tick is the
instruction's execution, after the boot's last stage is noted (`State.start`); the step adds nothing else. -/
def Obligations.StepRunsDecodedInstruction : Prop :=
  (∀ (s : State) (e : Input) (rest : List Input), s.inputs = e :: rest → step s = deliver e (s.setInputs rest)) ∧
  (∀ s : State, s.inputs = [] → s.isFaulted = false → step s = clockEdge s) ∧
  (∀ (s : State) (b0 b1 : Byte) (i : Instr), s.Runs → s.memRead s.pc.toNat = some b0 →
    s.memRead (s.pc.toNat + 1) = some b1 → decode (wordOfBytes b0 b1) = .ok i →
    clockEdge s = exec i s.start ∧ (s.inputs = [] → step s = exec i s.start) ∧
    (∀ rest, s.inputs = .clkInstr :: rest → step s = exec i (s.setInputs rest).start))

/-- Derived (log 7): the word the host places is the word the next step runs: from any state, the step after
`withFetchWord` is the execution of the decoded instruction, with the pending events as they were. -/
def Obligations.PlacedWordRunsNext : Prop :=
  ∀ (s : State) (w : Nat) (i : Instr), Memory.wf s.mem → decodeTableWord 16 w = some i →
    step (s.withFetchWord 16 w) = exec i ((s.withFetchWord 16 w).setInputs s.inputs).start

/-- Derived (R301, R319): a running core's step raises exactly the fault the table names, under the condition it names,
and the block then presents its report; no other instruction and no other condition faults. A load that does not fit
is reported to the host and is no core fault (R301; that the model goes on is log 8). The order is R305's (D37), the
report's words D22's, PC at the faulting instruction D34's, UnmodelledOperand D18's. -/
def Obligations.CoreFaultsExactlyPerTable : Prop :=
  (∀ (s : State) (kind : FaultKind) (word : Option Word), s.Runs → coreFault s = some (kind, word) →
    ∃ t, clockEdge s = .next t ∧ t.run = .faulted kind word s.pc ∧ t.pc = s.pc ∧
      t.outputs.fault = some (kind, word, s.pc)) ∧
  (∀ s : State, s.Runs → coreFault s = none →
    ∃ t, clockEdge s = .next t ∧ t.isFaulted = false ∧ t.outputs.fault = none) ∧
  (∀ (s : State) (offset : Nat) (bytes : List Byte), s.stage ≠ .started → 4096 < offset + bytes.length →
    ∃ t, deliver (.load offset bytes) s = .next t ∧ s.loadReply offset bytes = .outOfRange ∧ t.run = s.run ∧
      t.outputs.fault = s.outputs.fault)

/-- Derived (R306, D35, log 9): in FAULTED a tick of the instruction clock does nothing, and with no event
pending the model stops with the report. -/
def Obligations.FaultedCoreTakesNoStep : Prop :=
  ∀ (s : State) (kind : FaultKind) (word : Option Word) (p : Word), s.run = .faulted kind word p →
    clockEdge s = .next s ∧ (s.inputs = [] → step s = .fault (.halted kind word p))

/-- Derived (R306): no event but a reset changes RUN or PC of a faulted run, and a reset makes it run at 0x200. -/
def Obligations.OnlyResetLeavesFaulted : Prop :=
  ∀ (s t : State) (kind : FaultKind) (word : Option Word) (p : Word) (e : Input),
    s.run = .faulted kind word p → deliver e s = .next t →
    (e ≠ .reset → t.run = s.run ∧ t.pc = s.pc) ∧ (e = .reset → t.run = .running ∧ t.pc = 0x200)

/-! ## Control flow -/

/-- R121: how each instruction changes PC: the table, for every instruction and state; an instruction that
faults leaves PC, and FX0A leaves it until a key-down event completes the wait. -/
def Obligations.PcFollowsTable : Prop :=
  (∀ (i : Instr) (s : State), s.run = .running → ∃ t, exec i s = .next t ∧
    (t.isFaulted = true → t.pc = s.pc) ∧ (t.isFaulted = false → t.pc = pcAfter i s)) ∧
  (∀ (s : State) (x : Reg) (k : Fin Config.numKeys), s.run = .awaitingKey x → s.keyDown? k = false →
    ∃ t, deliver (.keyDown k) s = .next t ∧ t.pc = s.pc + 2)

/-- R122: RET. An empty stack faults with StackUnderflow carrying the word; otherwise SP goes down by one, PC becomes
the entry there as it is, and nothing else changes; a popped address at or above 0xFFF faults at the next fetch. -/
def Obligations.RetPopsReturnAddress : Prop :=
  (∀ w : Word, w &&& 0xF0FF = 0x00EE → decode w = .ok (.ret (ignoredX w))) ∧
  (∀ (k : Nibble) (s : State), s.sp.val = 0 → ∃ t p, exec (.ret k) s = .next t ∧
    t.run = .faulted .stackUnderflow (some (encode (.ret k))) p) ∧
  (∀ (k : Nibble) (s : State) (n : Nat) (h : n < 16), s.sp.val = n + 1 → ∃ t, exec (.ret k) s = .next t ∧
    t.sp.val = n ∧ t.pc = s.stack[n] ∧ s.sameBut [.pc, .sp] t ∧
    (s.Runs → 0xFFF ≤ s.stack[n].toNat → ∃ u w p, clockEdge t = .next u ∧
      u.run = .faulted .outOfRange w p))

/-- R123: JP NNN, and NNN = 0xFFF faults at the next fetch. -/
def Obligations.JumpSetsPc : Prop :=
  (∀ w : Word, w &&& 0xF000 = 0x1000 → decode w = .ok (.jp (fieldNNN w))) ∧
  (∀ (nnn : Addr12) (s : State), ∃ t, exec (.jp nnn) s = .next t ∧ t.pc.toNat = nnn.toNat ∧
    s.sameBut [.pc] t ∧ (s.Runs → nnn = 0xFFF → ∃ u w p, clockEdge t = .next u ∧
      u.run = .faulted .outOfRange w p))

/-- R124: CALL NNN. A full stack faults with StackOverflow carrying the word; otherwise the address of the following
instruction goes to STACK[SP], SP goes up by one and PC becomes NNN; every other entry and every other
piece of state stays. -/
def Obligations.CallPushesReturnAddress : Prop :=
  (∀ w : Word, w &&& 0xF000 = 0x2000 → decode w = .ok (.call (fieldNNN w))) ∧
  (∀ (nnn : Addr12) (s : State), s.sp.val = 16 → ∃ t p, exec (.call nnn) s = .next t ∧
    t.run = .faulted .stackOverflow (some (encode (.call nnn))) p) ∧
  (∀ (nnn : Addr12) (s : State) (h : s.sp.val < 16), ∃ t, exec (.call nnn) s = .next t ∧
    t.stack[s.sp.val] = s.pc + 2 ∧ (∀ k : Fin Config.stackDepth, k.val ≠ s.sp.val → t.stack[k] = s.stack[k]) ∧
    t.sp.val = s.sp.val + 1 ∧ t.pc.toNat = nnn.toNat ∧ s.sameBut [.pc, .stack, .sp] t)

/-- R125, R126, R127, R128: the four skips: PC + 4 if the condition holds, else PC + 2, and nothing else. -/
def Obligations.SkipsAdvanceByFourOrTwo : Prop :=
  (∀ w : Word, (w &&& 0xF000 = 0x3000 → decode w = .ok (.seByte (fieldX w) (fieldNN w))) ∧
    (w &&& 0xF000 = 0x4000 → decode w = .ok (.sneByte (fieldX w) (fieldNN w))) ∧
    (w &&& 0xF00F = 0x5000 → decode w = .ok (.seReg (fieldX w) (fieldY w))) ∧
    (w &&& 0xF00F = 0x9000 → decode w = .ok (.sneReg (fieldX w) (fieldY w))) ∧
    (fieldF w = 0x5 ∧ fieldN w ≠ 0 ∨ fieldF w = 0x9 ∧ fieldN w ≠ 0 → decode w = .error (.unknownOpcode w))) ∧
  (∀ (x : Reg) (nn : Byte) (s : State), ∃ t, exec (.seByte x nn) s = .next t ∧
    (s.getV x = nn → t.pc = s.pc + 4) ∧ (s.getV x ≠ nn → t.pc = s.pc + 2) ∧ s.sameBut [.pc] t) ∧
  (∀ (x : Reg) (nn : Byte) (s : State), ∃ t, exec (.sneByte x nn) s = .next t ∧
    (s.getV x ≠ nn → t.pc = s.pc + 4) ∧ (s.getV x = nn → t.pc = s.pc + 2) ∧ s.sameBut [.pc] t) ∧
  (∀ (x y : Reg) (s : State), ∃ t, exec (.seReg x y) s = .next t ∧
    (s.getV x = s.getV y → t.pc = s.pc + 4) ∧ (s.getV x ≠ s.getV y → t.pc = s.pc + 2) ∧ s.sameBut [.pc] t) ∧
  (∀ (x y : Reg) (s : State), ∃ t, exec (.sneReg x y) s = .next t ∧
    (s.getV x ≠ s.getV y → t.pc = s.pc + 4) ∧ (s.getV x = s.getV y → t.pc = s.pc + 2) ∧ s.sameBut [.pc] t)

/-- Derived (R129, D9): JP V0, NNN: PC becomes NNN + V0, not reduced to 12 bits, and nothing else changes. -/
def Obligations.JumpV0AddsWithoutMask : Prop :=
  ∀ (nnn : Addr12) (s : State), ∃ t, exec (.jpV0 nnn) s = .next t ∧
    t.pc.toNat = nnn.toNat + (s.getV 0).toNat ∧ s.sameBut [.pc] t

/-- Derived (R122, R124; 95_test_vectors.md S5): a CALL followed at once by a RET leaves PC at the instruction
after the call, SP and everything but the stack's entries as before. -/
def Obligations.CallThenReturnComesBack : Prop :=
  ∀ (nnn : Addr12) (k : Nibble) (s : State), s.sp.val < 16 → ∃ t u, exec (.call nnn) s = .next t ∧
    exec (.ret k) t = .next u ∧ u.pc = s.pc + 2 ∧ s.sameBut [.pc, .stack] u

/-! ## Arithmetic and logic -/

/-- R163: LD Vx, NN; no flag. -/
def Obligations.LoadImmediateWritesByte : Prop :=
  (∀ w : Word, w &&& 0xF000 = 0x6000 → decode w = .ok (.ldByte (fieldX w) (fieldNN w))) ∧
  (∀ (x : Reg) (nn : Byte) (s : State), ∃ t, exec (.ldByte x nn) s = .next t ∧ t.getV x = nn ∧
    s.sameRegsBut [x] t ∧ t.pc = s.pc + 2 ∧ s.sameBut [.v, .pc] t)

/-- Derived (R164, D8; R165, D2): ADD Vx, NN adds modulo 256 and LD Vx, Vy copies; no flag. -/
def Obligations.AddImmediateAndCopyWriteNoFlag : Prop :=
  (∀ (x : Reg) (nn : Byte) (s : State), ∃ t, exec (.addByte x nn) s = .next t ∧
    (t.getV x).toNat = ((s.getV x).toNat + nn.toNat) % 256 ∧
    s.sameRegsBut [x] t ∧ t.pc = s.pc + 2 ∧ s.sameBut [.v, .pc] t) ∧
  (∀ (x y : Reg) (s : State), ∃ t, exec (.ldReg x y) s = .next t ∧ t.getV x = s.getV y ∧
    s.sameRegsBut [x] t ∧ t.pc = s.pc + 2 ∧ s.sameBut [.v, .pc] t)

/-- R166, R167, R168: OR, AND and XOR, bit by bit; no flag. -/
def Obligations.LogicOpsWriteNoFlag : Prop :=
  (∀ w : Word, (w &&& 0xF00F = 0x8001 → decode w = .ok (.orReg (fieldX w) (fieldY w))) ∧
    (w &&& 0xF00F = 0x8002 → decode w = .ok (.andReg (fieldX w) (fieldY w))) ∧
    (w &&& 0xF00F = 0x8003 → decode w = .ok (.xorReg (fieldX w) (fieldY w)))) ∧
  (∀ (x y : Reg) (s : State), ∃ t, exec (.orReg x y) s = .next t ∧
    (∀ k, (t.getV x).getLsbD k = ((s.getV x).getLsbD k || (s.getV y).getLsbD k)) ∧
    s.sameRegsBut [x] t ∧ t.pc = s.pc + 2 ∧ s.sameBut [.v, .pc] t) ∧
  (∀ (x y : Reg) (s : State), ∃ t, exec (.andReg x y) s = .next t ∧
    (∀ k, (t.getV x).getLsbD k = ((s.getV x).getLsbD k && (s.getV y).getLsbD k)) ∧
    s.sameRegsBut [x] t ∧ t.pc = s.pc + 2 ∧ s.sameBut [.v, .pc] t) ∧
  (∀ (x y : Reg) (s : State), ∃ t, exec (.xorReg x y) s = .next t ∧
    (∀ k, (t.getV x).getLsbD k = ((s.getV x).getLsbD k ^^ (s.getV y).getLsbD k)) ∧
    s.sameRegsBut [x] t ∧ t.pc = s.pc + 2 ∧ s.sameBut [.v, .pc] t)

/-- R169: ADD Vx, Vy: the sum modulo 256, then VF = 1 if the sum of the old operands exceeds 255, else 0; with X = 0xF
the flag remains. -/
def Obligations.AddSetsCarry : Prop :=
  (∀ w : Word, w &&& 0xF00F = 0x8004 → decode w = .ok (.addReg (fieldX w) (fieldY w))) ∧
  (∀ (x y : Reg) (s : State), ∃ t, exec (.addReg x y) s = .next t ∧
    (x ≠ Reg.vf → (t.getV x).toNat = ((s.getV x).toNat + (s.getV y).toNat) % 256) ∧
    t.getV Reg.vf = (if (s.getV x).toNat + (s.getV y).toNat > 255 then 1 else 0) ∧
    s.sameRegsBut [x, Reg.vf] t ∧ t.pc = s.pc + 2 ∧ s.sameBut [.v, .pc] t)

/-- R170, R172: SUB and SUBN: the difference modulo 256 on integers, then VF = 1 if the minuend is strictly
greater, else 0; with X = 0xF the flag remains. -/
def Obligations.SubtractSetsStrictlyGreater : Prop :=
  (∀ w : Word, (w &&& 0xF00F = 0x8005 → decode w = .ok (.subReg (fieldX w) (fieldY w))) ∧
    (w &&& 0xF00F = 0x8007 → decode w = .ok (.subnReg (fieldX w) (fieldY w)))) ∧
  (∀ (x y : Reg) (s : State), ∃ t, exec (.subReg x y) s = .next t ∧
    (x ≠ Reg.vf → ((t.getV x).toNat : Int) = ((s.getV x).toNat - (s.getV y).toNat : Int) % 256) ∧
    t.getV Reg.vf = (if (s.getV x).toNat > (s.getV y).toNat then 1 else 0) ∧
    s.sameRegsBut [x, Reg.vf] t ∧ t.pc = s.pc + 2 ∧ s.sameBut [.v, .pc] t) ∧
  (∀ (x y : Reg) (s : State), ∃ t, exec (.subnReg x y) s = .next t ∧
    (x ≠ Reg.vf → ((t.getV x).toNat : Int) = ((s.getV y).toNat - (s.getV x).toNat : Int) % 256) ∧
    t.getV Reg.vf = (if (s.getV y).toNat > (s.getV x).toNat then 1 else 0) ∧
    s.sameRegsBut [x, Reg.vf] t ∧ t.pc = s.pc + 2 ∧ s.sameBut [.v, .pc] t)

/-- Derived (R171, R173, D4, D5): SHR and SHL of Vx, whatever the Y field; VF is the old bit 0 for SHR, and for
SHL 0x80 or 0x00 by the old bit 7, not reduced to 0 or 1. -/
def Obligations.ShiftsSetShiftedOutBit : Prop :=
  (∀ (x : Reg) (y : Nibble) (s : State), ∃ t, exec (.shr x y) s = .next t ∧
    (x ≠ Reg.vf → (t.getV x).toNat = (s.getV x).toNat / 2) ∧
    (t.getV Reg.vf).toNat = (s.getV x).toNat % 2 ∧
    s.sameRegsBut [x, Reg.vf] t ∧ t.pc = s.pc + 2 ∧ s.sameBut [.v, .pc] t) ∧
  (∀ (x : Reg) (y : Nibble) (s : State), ∃ t, exec (.shl x y) s = .next t ∧
    (x ≠ Reg.vf → (t.getV x).toNat = (s.getV x).toNat * 2 % 256) ∧
    (t.getV Reg.vf).toNat = (if (s.getV x).toNat ≥ 128 then 0x80 else 0x00) ∧
    s.sameRegsBut [x, Reg.vf] t ∧ t.pc = s.pc + 2 ∧ s.sameBut [.v, .pc] t)

/-- Derived (R174, D20, log 2): RND writes a free byte ANDed with NN and counts the draw, so that the next RND
draws anew; it holds for every value of the counter. -/
def Obligations.RandomByteUnderMask : Prop :=
  ∀ (x : Reg) (nn : Byte) (s : State), ∃ t, exec (.rnd x nn) s = .next t ∧
    (∀ k, (t.getV x).getLsbD k = ((Config.randomByte s.draws).getLsbD k && nn.getLsbD k)) ∧
    t.draws = s.draws + 1 ∧ s.sameRegsBut [x] t ∧ t.pc = s.pc + 2 ∧ s.sameBut [.v, .pc, .draws] t

/-! ## Index register and memory transfer -/

/-- R200: LD I, NNN. -/
def Obligations.LoadIndexWritesAddress : Prop :=
  (∀ w : Word, w &&& 0xF000 = 0xA000 → decode w = .ok (.ldI (fieldNNN w))) ∧
  (∀ (nnn : Addr12) (s : State), ∃ t, exec (.ldI nnn) s = .next t ∧ t.i.toNat = nnn.toNat ∧
    t.pc = s.pc + 2 ∧ s.sameBut [.i, .pc] t)

/-- Derived (R201, D12): ADD I, Vx wraps at 16 bits and writes no flag. -/
def Obligations.AddToIndexWrapsAt16Bits : Prop :=
  ∀ (x : Reg) (s : State), ∃ t, exec (.addI x) s = .next t ∧
    t.i.toNat = (s.i.toNat + (s.getV x).toNat) % 65536 ∧ t.pc = s.pc + 2 ∧ s.sameBut [.i, .pc] t

/-- Derived (R202, D14, D18): LD F, Vx sets I to the address of the glyph of a digit; above 0xF it faults. The word
and PC of the report are R302's with D22 and D34 (log 5). -/
def Obligations.LoadFontSetsGlyphAddress : Prop :=
  ∀ (x : Reg) (s : State),
    ((s.getV x).toNat ≤ 0xF → ∃ t, exec (.ldF x) s = .next t ∧ t.i.toNat = 5 * (s.getV x).toNat ∧
      t.pc = s.pc + 2 ∧ s.sameBut [.i, .pc] t) ∧
    (0xF < (s.getV x).toNat → ∃ t, exec (.ldF x) s = .next t ∧
      t.run = .faulted .unmodelledOperand (some (encode (.ldF x))) s.pc ∧ t.pc = s.pc)

/-- R203: LD B, Vx stores the three decimal digits at I, I + 1, I + 2, the most significant first; every other
byte and every other piece of state stays. With I + 2 >= 4096 it faults with OutOfRange. That memory is
in canonical form is an invariant of the model (log 6, `StepKeepsInvariant`). -/
def Obligations.BcdStoresThreeDigits : Prop :=
  (∀ w : Word, w &&& 0xF0FF = 0xF033 → decode w = .ok (.ldB (fieldX w))) ∧
  (∀ (x : Reg) (s : State), Memory.wf s.mem → s.effAddr 2 < 4096 → ∃ t, exec (.ldB x) s = .next t ∧
    (∃ h d o : Byte, t.memRead (s.effAddr 0) = some h ∧ t.memRead (s.effAddr 1) = some d ∧
      t.memRead (s.effAddr 2) = some o ∧ h.toNat = (s.getV x).toNat / 100 ∧
      d.toNat = (s.getV x).toNat / 10 % 10 ∧ o.toNat = (s.getV x).toNat % 10) ∧
    (∀ a, a < s.effAddr 0 ∨ s.effAddr 2 < a → t.memRead a = s.memRead a) ∧
    t.pc = s.pc + 2 ∧ s.sameBut [.mem, .pc] t) ∧
  (∀ (x : Reg) (s : State), 4096 ≤ s.effAddr 2 → ∃ t w p, exec (.ldB x) s = .next t ∧
    t.run = .faulted .outOfRange w p)

/-- Derived (R204, D13; log 6): LD [I], Vx stores V0..VX at I..I + X and leaves I; every other byte and every
other piece of state stays. With I + X >= 4096 it faults with OutOfRange. The word and PC of the report are R302's with
D22 and D34 (log 5). -/
def Obligations.BulkStoreWritesRegisters : Prop :=
  (∀ (x : Reg) (s : State), Memory.wf s.mem → s.effAddr x.val < 4096 → ∃ t, exec (.storeRegs x) s = .next t ∧
    (∀ r : Reg, r ≤ x → t.memRead (s.effAddr r.val) = some (s.getV r)) ∧
    (∀ a, a < s.effAddr 0 ∨ s.effAddr x.val < a → t.memRead a = s.memRead a) ∧
    t.pc = s.pc + 2 ∧ s.sameBut [.mem, .pc] t) ∧
  (∀ (x : Reg) (s : State), 4096 ≤ s.effAddr x.val → ∃ t, exec (.storeRegs x) s = .next t ∧
    t.run = .faulted .outOfRange (some (encode (.storeRegs x))) s.pc ∧ t.pc = s.pc)

/-- Derived (R205, D13): LD Vx, [I] loads V0..VX from I..I + X and leaves I and memory; registers above VX
stay. With I + X >= 4096 it faults with OutOfRange. The word and PC of the report are R302's with D22 and D34
(log 5). -/
def Obligations.BulkLoadReadsRegisters : Prop :=
  (∀ (x : Reg) (s : State), s.effAddr x.val < 4096 → ∃ t, exec (.loadRegs x) s = .next t ∧
    (∀ r : Reg, r ≤ x → some (t.getV r) = s.memRead (s.effAddr r.val)) ∧
    (∀ r : Reg, x < r → t.getV r = s.getV r) ∧ t.pc = s.pc + 2 ∧ s.sameBut [.v, .pc] t) ∧
  (∀ (x : Reg) (s : State), 4096 ≤ s.effAddr x.val → ∃ t, exec (.loadRegs x) s = .next t ∧
    t.run = .faulted .outOfRange (some (encode (.loadRegs x))) s.pc ∧ t.pc = s.pc)

/-- Derived (R78, R204, R351): a store over the bytes of the next instruction is seen by its fetch: after
LD [I], Vx, a PC that points at two stored bytes fetches the two registers' bytes. -/
def Obligations.StoreIsSeenByNextFetch : Prop :=
  ∀ (x r r' : Reg) (s : State), Memory.wf s.mem → s.effAddr x.val < 4096 → r' ≤ x → r'.val = r.val + 1 →
    (s.pc + 2).toNat = s.effAddr r.val →
    ∃ t, exec (.storeRegs x) s = .next t ∧ t.fetchWord = some (wordOfBytes (s.getV r) (s.getV r'))

/-! ## Raster -/

/-- Derived (R230, R232 with D16, R234): the blit loop XORs the sprite into the grid cell by cell: a cell the
sprite has a set bit for is inverted, every other cell stays; coordinates wrap. -/
def Obligations.BlitXorsEachCell : Prop :=
  ∀ (sc : Screen) (x y : Nat) (rows : List Byte), rows.length ≤ 15 → ∀ cx cy : Nat, cx < 64 → cy < 32 →
    (spriteSets rows x y cx cy → (sc.blit x y rows).1.cell cx cy = !(sc.cell cx cy)) ∧
    (¬ spriteSets rows x y cx cy → (sc.blit x y rows).1.cell cx cy = sc.cell cx cy)

/-- Derived (R233, R234; log 11): a blit's collision result is true exactly when some cell that was 1 received a
set bit, and so became 0. Blitting the same sprite again at the same place restores every cell, and it
collides exactly when the first blit set some cell, so always when the buffer was clear and the sprite is not
empty. R233's last sentence says so of every buffer; where the sprite's cells were all 1 its own definition gives
no second collision. A sprite has at most 15 rows (R92). -/
def Obligations.CollisionExactlyOnOneOverOne : Prop :=
  ∀ (sc : Screen) (x y : Nat) (rows : List Byte), rows.length ≤ 15 →
    ((sc.blit x y rows).2 = true ↔ ∃ cx cy : Nat, cx < 64 ∧ cy < 32 ∧ spriteSets rows x y cx cy ∧
      sc.cell cx cy = true ∧ (sc.blit x y rows).1.cell cx cy = false) ∧
    (((sc.blit x y rows).1.blit x y rows).2 = true ↔
      ∃ cx cy : Nat, spriteSets rows x y cx cy ∧ sc.cell cx cy = false) ∧
    (∀ cx cy : Nat, ((sc.blit x y rows).1.blit x y rows).1.cell cx cy = sc.cell cx cy)

/-- R235: CLS zeroes every cell, whatever bits 11..8 of its word, and changes nothing but PC besides. -/
def Obligations.ClsZeroesEveryCell : Prop :=
  (∀ w : Word, w &&& 0xF0FF = 0x00E0 → decode w = .ok (.cls (ignoredX w))) ∧
  (∀ (k : Nibble) (s : State), ∃ t, exec (.cls k) s = .next t ∧ (∀ x y : Nat, t.screen.cell x y = false) ∧
    t.pc = s.pc + 2 ∧ s.sameBut [.screen, .pc] t)

/-- Derived (R236, D17): DRW reads N bytes at I, blits them at (Vx, Vy) of the old registers and writes the
collision to VF; I and memory stay. With a row outside the space it faults with OutOfRange. The word and PC
of the report are R302's with D22 and D34 (log 5). -/
def Obligations.DrawBlitsBytesAtI : Prop :=
  (∀ (x y : Reg) (n : Nat) (s : State), n = 0 ∨ s.effAddr n ≤ 4096 → ∃ t rows, exec (.drw x y n) s = .next t ∧
    rows.length = n ∧ (∀ k, k < n → rows[k]? = s.memRead (s.effAddr k)) ∧
    (∀ cx cy : Nat, t.screen.cell cx cy =
      (s.screen.blit (s.getV x).toNat (s.getV y).toNat rows).1.cell cx cy) ∧
    t.getV Reg.vf = (if (s.screen.blit (s.getV x).toNat (s.getV y).toNat rows).2 then 1 else 0) ∧
    s.sameRegsBut [Reg.vf] t ∧ t.pc = s.pc + 2 ∧ s.sameBut [.v, .screen, .pc] t) ∧
  (∀ (x y : Reg) (n : Nat) (s : State), n ≠ 0 → 4096 < s.effAddr n → ∃ t, exec (.drw x y n) s = .next t ∧
    t.run = .faulted .outOfRange (some (encode (.drw x y n))) s.pc ∧ t.pc = s.pc)

/-- Derived (R315, D29; R317): the output ports show the state: cell (x, y) at bit y*64 + x of the snapshot, the
two timer values, the key wait, and the fault report exactly when RUN = FAULTED. -/
def Obligations.OutputPortsShowState : Prop :=
  ∀ s : State, (∀ x y : Nat, x < 64 → y < 32 → s.outputs.screen.getLsbD (y * 64 + x) = s.screen.cell x y) ∧
    s.outputs.dtValue = s.dt ∧ s.outputs.stValue = s.st ∧
    (s.outputs.awaitingKey = true ↔ ∃ x, s.run = .awaitingKey x) ∧
    (∀ kind word p, s.outputs.fault = some (kind, word, p) ↔ s.run = .faulted kind word p)

/-! ## Timers and keypad -/

/-- R262, R263, R264: LD Vx, DT copies the delay timer; LD DT, Vx and LD ST, Vx set one timer, not the other;
no flag. -/
def Obligations.TimerTransfers : Prop :=
  (∀ w : Word, (w &&& 0xF0FF = 0xF007 → decode w = .ok (.ldFromDt (fieldX w))) ∧
    (w &&& 0xF0FF = 0xF015 → decode w = .ok (.ldDt (fieldX w))) ∧
    (w &&& 0xF0FF = 0xF018 → decode w = .ok (.ldSt (fieldX w)))) ∧
  (∀ (x : Reg) (s : State), ∃ t, exec (.ldFromDt x) s = .next t ∧ t.getV x = s.dt ∧
    s.sameRegsBut [x] t ∧ t.pc = s.pc + 2 ∧ s.sameBut [.v, .pc] t) ∧
  (∀ (x : Reg) (s : State), ∃ t, exec (.ldDt x) s = .next t ∧ t.dt = s.getV x ∧
    t.pc = s.pc + 2 ∧ s.sameBut [.dt, .pc] t) ∧
  (∀ (x : Reg) (s : State), ∃ t, exec (.ldSt x) s = .next t ∧ t.st = s.getV x ∧
    t.pc = s.pc + 2 ∧ s.sameBut [.st, .pc] t)

/-- R309: a tick lowers its timer by one if it is nonzero and leaves it otherwise, never below zero, and
changes nothing else, the other timer included. -/
def Obligations.TickCountsDownToZero : Prop :=
  (∀ s : State, ∃ t, deliver (.tick .delay) s = .next t ∧
    (s.dt ≠ 0 → t.dt.toNat + 1 = s.dt.toNat) ∧ (s.dt = 0 → t.dt = 0) ∧ s.sameBut [.dt] t) ∧
  (∀ s : State, ∃ t, deliver (.tick .sound) s = .next t ∧
    (s.st ≠ 0 → t.st.toNat + 1 = s.st.toNat) ∧ (s.st = 0 → t.st = 0) ∧ s.sameBut [.st] t)

/-- Derived (R352; 95_test_vectors.md S6): n ticks after DT was written with Vx, and nothing else between, LD Vx, DT
reads the written value less n, zero at the least. -/
def Obligations.TimerReadsWrittenValueLessTicks : Prop :=
  ∀ (x r : Reg) (n : Nat) (s : State), ∃ t u z, exec (.ldDt x) s = .next t ∧
    runUnder (fun _ => .tick .delay) n t = .next u ∧ exec (.ldFromDt r) u = .next z ∧
    (z.getV r).toNat = (s.getV x).toNat - n

/-- Derived (R260, R261, D18): SKP and SKNP skip by the level of the key whose value Vx holds; above 0xF they
fault. The word and PC of the report are R302's with D22 and D34 (log 5). -/
def Obligations.KeyTestsSkipByLevel : Prop :=
  (∀ (x : Reg) (k : Fin Config.numKeys) (s : State), (s.getV x).toNat = k.val →
    (∃ t, exec (.skp x) s = .next t ∧ (s.keyDown? k = true → t.pc = s.pc + 4) ∧
      (s.keyDown? k = false → t.pc = s.pc + 2) ∧ s.sameBut [.pc] t) ∧
    (∃ t, exec (.sknp x) s = .next t ∧ (s.keyDown? k = false → t.pc = s.pc + 4) ∧
      (s.keyDown? k = true → t.pc = s.pc + 2) ∧ s.sameBut [.pc] t)) ∧
  (∀ (x : Reg) (s : State), 0xF < (s.getV x).toNat →
    (∃ t, exec (.skp x) s = .next t ∧
      t.run = .faulted .unmodelledOperand (some (encode (.skp x))) s.pc ∧ t.pc = s.pc) ∧
    (∃ t, exec (.sknp x) s = .next t ∧
      t.run = .faulted .unmodelledOperand (some (encode (.sknp x))) s.pc ∧ t.pc = s.pc))

/-- Derived (R265, R266, R316, D19): LD Vx, K waits with PC unchanged. A key-down of a key that was up completes the
wait in one event: the key is down, Vx holds its value, PC advances by 2 and the core runs. A key-down of a key
already down does not, and no other event but a reset does: the wait, PC and the registers stay. While the core runs, a
key-down only records the level; a key-up only clears it, in every run state. -/
def Obligations.KeyWaitCompletesOnNewKeyDown : Prop :=
  (∀ (x : Reg) (s : State), ∃ t, exec (.ldKey x) s = .next t ∧ t.run = .awaitingKey x ∧ s.sameBut [.run] t) ∧
  (∀ (x : Reg) (k : Fin Config.numKeys) (s : State), s.run = .awaitingKey x → s.keyDown? k = false →
    ∃ t, deliver (.keyDown k) s = .next t ∧ t.keyDown? k = true ∧
      (∀ j, j ≠ k → t.keyDown? j = s.keyDown? j) ∧ (t.getV x).toNat = k.val ∧ s.sameRegsBut [x] t ∧
      t.pc = s.pc + 2 ∧ t.run = .running ∧ s.sameBut [.v, .key, .pc, .run] t) ∧
  (∀ (x : Reg) (k : Fin Config.numKeys) (s : State), s.run = .awaitingKey x → s.keyDown? k = true →
    ∃ t, deliver (.keyDown k) s = .next t ∧ s.sameBut [] t) ∧
  (∀ (x : Reg) (e : Input) (s t : State), s.run = .awaitingKey x → (∀ k, e ≠ .keyDown k) → e ≠ .reset →
    deliver e s = .next t → t.run = .awaitingKey x ∧ t.pc = s.pc ∧ ∀ r : Reg, t.getV r = s.getV r) ∧
  (∀ (k : Fin Config.numKeys) (s : State), s.run = .running → ∃ t, deliver (.keyDown k) s = .next t ∧
    t.keyDown? k = true ∧ (∀ j, j ≠ k → t.keyDown? j = s.keyDown? j) ∧ s.sameBut [.key] t) ∧
  (∀ (k : Fin Config.numKeys) (s : State), ∃ t, deliver (.keyUp k) s = .next t ∧ t.keyDown? k = false ∧
    (∀ j, j ≠ k → t.keyDown? j = s.keyDown? j) ∧ s.sameBut [.key] t)

/-- R321: the one wait state is entered by FX0A alone, whatever the event, and left only by a new key-down event or a
reset. Across the clock's and the timers' events all state survives it but DT and ST; across any event that leaves the
core waiting, all but DT, ST and the keys the host itself drives. A waiting core has started, which is an invariant
(`StepKeepsInvariant`). -/
def Obligations.KeyWaitIsTheOnlyWait : Prop :=
  (∀ (i : Instr) (s t : State) (x : Reg), s.run = .running → exec i s = .next t → t.run = .awaitingKey x →
    i = .ldKey x) ∧
  (∀ (s t : State) (x : Reg) (e : Input), (∀ y, s.run ≠ .awaitingKey y) → deliver e s = .next t →
    t.run = .awaitingKey x → e = .clkInstr ∧ ∃ w, s.fetchWord = some w ∧ decode w = .ok (.ldKey x)) ∧
  (∀ (s t : State) (x : Reg) (e : Input), s.run = .awaitingKey x → deliver e s = .next t →
    t.run = s.run ∨ e = .reset ∨ ∃ k, e = .keyDown k ∧ s.keyDown? k = false) ∧
  (∀ (s t : State) (x : Reg) (e : Input), s.run = .awaitingKey x → e.isTick = true → deliver e s = .next t →
    s.sameBut [.dt, .st] t) ∧
  (∀ (s t : State) (x : Reg) (e : Input), s.run = .awaitingKey x → s.stage = .started → deliver e s = .next t →
    t.run = s.run → s.sameBut [.dt, .st, .key] t)

/-- Derived (R310, D21, log 1): under every schedule of clock and timer events that is weakly fair to a timer, a
waiting core's timer reaches zero while the core still waits at the same PC. -/
def Obligations.TimerReachesZeroDuringKeyWait : Prop :=
  ∀ (sched : Schedule) (timer : Timer) (s : State) (x : Reg), sched.fairTo timer →
    (∀ n, (sched n).isTick = true) → s.run = .awaitingKey x →
    ∃ n t, runUnder sched n s = .next t ∧ t.timerRead timer = 0 ∧ t.run = .awaitingKey x ∧ t.pc = s.pc

/-! ## Schedules -/

/-- Derived (R356, D21; log 1): under every schedule fair to the core, with no reset and no load, a running core
takes its step: after finitely many events, none of them the clock's, that change at most DT, ST and the keys, the
instruction clock ticks and the core fetches at the same PC. -/
def Obligations.RunningCoreEventuallySteps : Prop :=
  ∀ (sched : Schedule) (s : State), sched.fairToCore → (∀ n, sched n ≠ .reset) →
    (∀ n offset bytes, sched n ≠ .load offset bytes) → s.Runs →
    ∃ n t, runUnder sched n s = .next t ∧ (∀ k, k < n → sched k ≠ .clkInstr) ∧ sched n = .clkInstr ∧
      s.sameBut [.dt, .st, .key] t ∧ runUnder sched (n + 1) s = fetchDecodeExecute t.start

/-- Derived (R310, R356, D21; log 1): every finite part of every schedule is a run of the model's step, from the
state that holds its events as the pending ones: the step admits every interleaving of the agents. -/
def Obligations.EverySchedulePrefixIsARunOfSteps : Prop :=
  ∀ (sched : Schedule) (n : Nat) (s : State),
    runSteps n (s.setInputs (sched.take n)) = runUnder sched n (s.setInputs [])

/-! ## The whole machine -/

/-- Derived (R22, R24, R31, R32, R34 to R37): an instruction that does not fault writes only the pieces of state and
the registers the spec lists it as a writer of: I by ANNN, FX1E and FX29 alone, the stack by CALL and RET,
memory by FX33 and FX55, the raster by CLS and DRW, DT by FX15, ST by FX18, no key, and VF as a flag by the
six flag instructions alone. -/
def Obligations.OnlyListedWritersChangeState : Prop :=
  ∀ (i : Instr) (s t : State), s.run = .running → exec i s = .next t → t.isFaulted = false →
    s.sameBut (.pc :: mayWrite i) t ∧ ∀ r : Reg, ¬ mayWriteReg i r → t.getV r = s.getV r

/-- Derived (R34): the core never reads ST: from two states that differ in ST alone an instruction gives two
states that differ in ST alone, and equal ones if it is LD ST, Vx or if it faults. That the two states after a fault
are equal is the model's choice (log 3: their free values are numbered by the counter alone); R304 fixes the report. -/
def Obligations.SoundTimerIsNeverRead : Prop :=
  ∀ (i : Instr) (s : State) (b : TimerValue), s.run = .running → ∃ t, exec i s = .next t ∧
    ((∃ x, i = .ldSt x) ∨ t.isFaulted = true → exec i (s.timerWrite .sound b) = .next t) ∧
    (¬ ((∃ x, i = .ldSt x) ∨ t.isFaulted = true) →
      exec i (s.timerWrite .sound b) = .next (t.timerWrite .sound b))

/-- Derived (R31, D38): the stack entries at and above SP are never observed: from two states that differ in them
alone an instruction gives two states that differ at most in the entries at and above the new SP. That this also holds
of the two states after a fault is the model's choice (log 3); R304 fixes the report. -/
def Obligations.StackEntriesAboveSpAreUnobservable : Prop :=
  ∀ (i : Instr) (s : State) (other : Vector EntryValue Config.stackDepth), s.run = .running →
    (∀ k : Fin Config.stackDepth, k.val < s.sp.val → other[k] = s.stack[k]) →
    ∃ t u : State, exec i s = .next t ∧ exec i { s with stack := other } = .next u ∧
      u = { t with stack := u.stack } ∧
      ∀ k : Fin Config.stackDepth, k.val < t.sp.val → u.stack[k] = t.stack[k]

/-- Derived (R357, D30): at a self-jump the instruction clock changes nothing once the run has started (its first tick
notes the start, log 8), a tick of a timer changes that timer alone, and all leave the run finished. -/
def Obligations.FinishedRunStaysFinished : Prop :=
  ∀ s : State, s.isFinished = true →
    (∃ t, clockEdge s = .next t ∧ s.sameBut [.stage] t ∧ (s.stage = .started → t = s) ∧ t.isFinished = true) ∧
    (∃ t, deliver (.tick .delay) s = .next t ∧ s.sameBut [.dt] t ∧ t.isFinished = true) ∧
    (∃ t, deliver (.tick .sound) s = .next t ∧ s.sameBut [.st] t ∧ t.isFinished = true)

/-! ## Invariants -/

/-- Derived (R340; log 6, log 8): the reset state meets the invariant of `StepKeepsInvariant`. -/
def Obligations.ResetMeetsInvariant : Prop := State.reset.Inv

/-- Derived (R301 to R303, R341, D22, D34; log 6, log 8): from every state that meets it, every event keeps the
invariant: memory is in canonical form, a fault report agrees with PC and with the word's own decoding, and a core that
waits or has faulted has started. -/
def Obligations.StepKeepsInvariant : Prop :=
  ∀ s t : State, s.Inv → step s = .next t → t.Inv

/-- Derived (R28, D9): the reset state meets the bounds of `StepKeepsPcBounded`. -/
def Obligations.ResetMeetsPcBounded : Prop := State.reset.PcBounded

/-- Derived (R28, D9): PC never exceeds 0x10FE, so that its 16-bit arithmetic never overflows, kept by every event
together with the bound 0x1000 on the stack's entries. -/
def Obligations.StepKeepsPcBounded : Prop :=
  ∀ s t : State, s.PcBounded → step s = .next t → t.PcBounded
end

