-- ==== Sys2Proof/Laws/Decode.lean ====
section
/-! SUPPORT. The fields of an encoded word, and what the masks of the opcode map select. -/

namespace Sys2Proof

/-! ## Fields as arithmetic -/

theorem fieldF_eq (w : Word) : fieldF w = w.toNat / 4096 := by
  have := w.isLt
  simp only [fieldF, bits, Nat.reduceSub, Nat.reduceAdd, Nat.reducePow]
  omega

theorem fieldX_val (w : Word) : (fieldX w).val = w.toNat / 256 % 16 := by
  simp only [fieldX, bits, Nat.reduceSub, Nat.reduceAdd, Nat.reducePow]

theorem fieldY_val (w : Word) : (fieldY w).val = w.toNat / 16 % 16 := by
  simp only [fieldY, bits, Nat.reduceSub, Nat.reduceAdd, Nat.reducePow]

theorem fieldN_eq (w : Word) : fieldN w = w.toNat % 16 := by
  simp only [fieldN, bits, Nat.reduceSub, Nat.reduceAdd, Nat.reducePow, Nat.pow_zero, Nat.div_one]

theorem bits_7_0 (w : Word) : bits w 7 0 = w.toNat % 256 := by
  simp only [bits, Nat.reduceSub, Nat.reduceAdd, Nat.reducePow, Nat.pow_zero, Nat.div_one]

theorem fieldNN_toNat (w : Word) : (fieldNN w).toNat = w.toNat % 256 := by
  simp only [fieldNN, bits_7_0, BitVec.toNat_ofNat, Nat.reducePow, Nat.mod_mod]

theorem fieldNNN_toNat (w : Word) : (fieldNNN w).toNat = w.toNat % 4096 := by
  simp only [fieldNNN, bits, Nat.reduceSub, Nat.reduceAdd, Nat.reducePow, Nat.pow_zero, Nat.div_one,
    BitVec.toNat_ofNat, Nat.mod_mod]

theorem ignoredX_toNat (w : Word) : (ignoredX w).toNat = w.toNat / 256 % 16 := by
  simp only [ignoredX, bits, Nat.reduceSub, Nat.reduceAdd, Nat.reducePow, BitVec.toNat_ofNat, Nat.mod_mod]

theorem ignoredY_toNat (w : Word) : (ignoredY w).toNat = w.toNat / 16 % 16 := by
  simp only [ignoredY, bits, Nat.reduceSub, Nat.reduceAdd, Nat.reducePow, BitVec.toNat_ofNat, Nat.mod_mod]

/-! ## The value of an encoded word -/

theorem toNat_word4 {f x y n : Nat} (hf : f < 16) (hx : x < 16) (hy : y < 16) (hn : n < 16) :
    (word4 f x y n).toNat = f * 4096 + x * 256 + y * 16 + n := by
  simp only [word4, BitVec.toNat_ofNat]; omega

theorem toNat_wordXB {f x b : Nat} (hf : f < 16) (hx : x < 16) (hb : b < 256) :
    (wordXB f x b).toNat = f * 4096 + x * 256 + b := by
  simp only [wordXB, BitVec.toNat_ofNat]; omega

theorem toNat_wordA {f a : Nat} (hf : f < 16) (ha : a < 4096) : (wordA f a).toNat = f * 4096 + a := by
  simp only [wordA, BitVec.toNat_ofNat]; omega

/-! ## The fields of an encoded word -/

theorem fieldF_word4 {f x y n : Nat} (hf : f < 16) (hx : x < 16) (hy : y < 16) (hn : n < 16) :
    fieldF (word4 f x y n) = f := by rw [fieldF_eq, toNat_word4 hf hx hy hn]; omega

theorem fieldX_word4 {f y n : Nat} (hf : f < 16) (x : Reg) (hy : y < 16) (hn : n < 16) :
    fieldX (word4 f x.val y n) = x := by
  have hx : x.val < 16 := x.isLt
  apply Fin.ext; rw [fieldX_val, toNat_word4 hf hx hy hn]; omega

theorem fieldY_word4 {f x n : Nat} (hf : f < 16) (hx : x < 16) (y : Reg) (hn : n < 16) :
    fieldY (word4 f x y.val n) = y := by
  have hy : y.val < 16 := y.isLt
  apply Fin.ext; rw [fieldY_val, toNat_word4 hf hx hy hn]; omega

theorem ignoredY_word4 {f x n : Nat} (hf : f < 16) (hx : x < 16) (k : Nibble) (hn : n < 16) :
    ignoredY (word4 f x k.toNat n) = k := by
  have hk : k.toNat < 16 := k.isLt
  rw [← BitVec.toNat_inj, ignoredY_toNat, toNat_word4 hf hx hk hn]; omega

theorem fieldN_word4 {f x y n : Nat} (hf : f < 16) (hx : x < 16) (hy : y < 16) (hn : n < 16) :
    fieldN (word4 f x y n) = n := by rw [fieldN_eq, toNat_word4 hf hx hy hn]; omega

theorem fieldF_wordXB {f x b : Nat} (hf : f < 16) (hx : x < 16) (hb : b < 256) :
    fieldF (wordXB f x b) = f := by rw [fieldF_eq, toNat_wordXB hf hx hb]; omega

theorem fieldX_wordXB {f b : Nat} (hf : f < 16) (x : Reg) (hb : b < 256) : fieldX (wordXB f x.val b) = x := by
  have hx : x.val < 16 := x.isLt
  apply Fin.ext; rw [fieldX_val, toNat_wordXB hf hx hb]; omega

theorem ignoredX_wordXB {f b : Nat} (hf : f < 16) (k : Nibble) (hb : b < 256) :
    ignoredX (wordXB f k.toNat b) = k := by
  have hk : k.toNat < 16 := k.isLt
  rw [← BitVec.toNat_inj, ignoredX_toNat, toNat_wordXB hf hk hb]; omega

theorem lowByte_wordXB {f x b : Nat} (hf : f < 16) (hx : x < 16) (hb : b < 256) :
    bits (wordXB f x b) 7 0 = b := by rw [bits_7_0, toNat_wordXB hf hx hb]; omega

theorem fieldNN_wordXB {f x : Nat} (hf : f < 16) (hx : x < 16) (nn : Byte) :
    fieldNN (wordXB f x nn.toNat) = nn := by
  rw [← BitVec.toNat_inj, fieldNN_toNat, toNat_wordXB hf hx nn.isLt]
  have := nn.isLt; omega

theorem fieldF_wordA {f a : Nat} (hf : f < 16) (ha : a < 4096) : fieldF (wordA f a) = f := by
  rw [fieldF_eq, toNat_wordA hf ha]; omega

theorem fieldNNN_wordA {f : Nat} (hf : f < 16) (nnn : Addr12) : fieldNNN (wordA f nnn.toNat) = nnn := by
  rw [← BitVec.toNat_inj, fieldNNN_toNat, toNat_wordA hf nnn.isLt]
  have := nnn.isLt; omega

/-! ## The masks of the opcode map -/

theorem toNat_and_F000 (w : Word) : (w &&& 0xF000).toNat = w.toNat / 4096 * 4096 := by
  have hw := w.isLt
  have hd : (w.toNat &&& 0xF000) / 2 ^ 12 = w.toNat / 2 ^ 12 &&& 0xF := Nat.and_div_two_pow
  have hm : (w.toNat &&& 0xF000) % 2 ^ 12 = w.toNat % 2 ^ 12 &&& 0 := Nat.and_mod_two_pow
  have h15 : w.toNat / 2 ^ 12 &&& 0xF = w.toNat / 2 ^ 12 % 2 ^ 4 := Nat.and_two_pow_sub_one_eq_mod _ 4
  rw [h15] at hd
  simp only [Nat.and_zero, Nat.reducePow] at hd hm
  show w.toNat &&& 0xF000 = _
  omega

theorem toNat_and_F00F (w : Word) : (w &&& 0xF00F).toNat = w.toNat / 4096 * 4096 + w.toNat % 16 := by
  have hw := w.isLt
  have hd : (w.toNat &&& 0xF00F) / 2 ^ 12 = w.toNat / 2 ^ 12 &&& 0xF := Nat.and_div_two_pow
  have hm : (w.toNat &&& 0xF00F) % 2 ^ 12 = w.toNat % 2 ^ 12 &&& 0xF := Nat.and_mod_two_pow
  have h15 : w.toNat / 2 ^ 12 &&& 0xF = w.toNat / 2 ^ 12 % 2 ^ 4 := Nat.and_two_pow_sub_one_eq_mod _ 4
  have h15' : w.toNat % 2 ^ 12 &&& 0xF = w.toNat % 2 ^ 12 % 2 ^ 4 := Nat.and_two_pow_sub_one_eq_mod _ 4
  rw [h15] at hd; rw [h15'] at hm
  simp only [Nat.reducePow] at hd hm
  show w.toNat &&& 0xF00F = _
  omega

theorem toNat_and_F0FF (w : Word) : (w &&& 0xF0FF).toNat = w.toNat / 4096 * 4096 + w.toNat % 256 := by
  have hw := w.isLt
  have hd : (w.toNat &&& 0xF0FF) / 2 ^ 12 = w.toNat / 2 ^ 12 &&& 0xF := Nat.and_div_two_pow
  have hm : (w.toNat &&& 0xF0FF) % 2 ^ 12 = w.toNat % 2 ^ 12 &&& 0xFF := Nat.and_mod_two_pow
  have h15 : w.toNat / 2 ^ 12 &&& 0xF = w.toNat / 2 ^ 12 % 2 ^ 4 := Nat.and_two_pow_sub_one_eq_mod _ 4
  have h255 : w.toNat % 2 ^ 12 &&& 0xFF = w.toNat % 2 ^ 12 % 2 ^ 8 := Nat.and_two_pow_sub_one_eq_mod _ 8
  rw [h15] at hd; rw [h255] at hm
  simp only [Nat.reducePow] at hd hm
  show w.toNat &&& 0xF0FF = _
  omega

/-- A mask of the family alone selects by the family. -/
theorem and_F000_eq_iff (w v : Word) (h : v.toNat % 4096 = 0) :
    w &&& 0xF000 = v ↔ w.toNat / 4096 = v.toNat / 4096 := by
  rw [← BitVec.toNat_inj, toNat_and_F000]; omega

/-- A mask of family and low nibble selects by both. -/
theorem and_F00F_eq_iff (w v : Word) (h : v.toNat % 4096 < 16) :
    w &&& 0xF00F = v ↔ w.toNat / 4096 = v.toNat / 4096 ∧ w.toNat % 16 = v.toNat % 16 := by
  rw [← BitVec.toNat_inj, toNat_and_F00F]; omega

/-- A mask of family and low byte selects by both. -/
theorem and_F0FF_eq_iff (w v : Word) (h : v.toNat % 4096 < 256) :
    w &&& 0xF0FF = v ↔ w.toNat / 4096 = v.toNat / 4096 ∧ w.toNat % 256 = v.toNat % 256 := by
  rw [← BitVec.toNat_inj, toNat_and_F0FF]; omega

/-! ## Bytes of a word (R64) -/

theorem toNat_wordOfBytes (hi lo : Byte) : (wordOfBytes hi lo).toNat = hi.toNat * 256 + lo.toNat := by
  have hhi := hi.isLt
  have hlo := lo.isLt
  simp only [wordOfBytes, BitVec.toNat_or, BitVec.toNat_shiftLeft, BitVec.toNat_setWidth]
  have h1 : (hi.toNat % 2 ^ 16) <<< 8 % 2 ^ 16 = 2 ^ 8 * hi.toNat := by
    rw [Nat.shiftLeft_eq]; omega
  have h2 : lo.toNat % 2 ^ 16 = lo.toNat := by omega
  rw [h1, h2, ← Nat.two_pow_add_eq_or_of_lt hlo]
  omega

theorem toNat_highByte (w : Word) : (highByte w).toNat = w.toNat / 256 := by
  have := w.isLt
  simp only [highByte, BitVec.toNat_setWidth, BitVec.toNat_ushiftRight, Nat.shiftRight_eq_div_pow]
  omega

theorem toNat_lowByte (w : Word) : (lowByte w).toNat = w.toNat % 256 := by
  simp only [lowByte, BitVec.toNat_setWidth, Nat.reducePow]

/-- A word is the word of its two bytes. -/
theorem wordOfBytes_bytes (w : Word) : wordOfBytes (highByte w) (lowByte w) = w := by
  rw [← BitVec.toNat_inj, toNat_wordOfBytes, toNat_highByte, toNat_lowByte]
  omega

end Sys2Proof
end

