-- ==== Sys2Proof/Laws/Flags.lean ====
section
/-! SUPPORT. What each result, flag and operand form is as a number, at the widths of Config.lean. -/

namespace Sys2Proof.Machine

open Sys2Proof

/-! ## Ranges -/

theorem State.getV_lt (s : State) (x : Reg) : (s.getV x).toNat < 256 := (s.getV x).isLt
theorem State.i_lt (s : State) : s.i.toNat < 65536 := s.i.isLt
theorem State.pc_lt (s : State) : s.pc.toNat < 65536 := s.pc.isLt
theorem State.timerRead_lt (s : State) (t : Timer) : (s.timerRead t).toNat < 256 := (s.timerRead t).isLt

/-! ## Values that go from one kind of register to another -/

@[simp] theorem byteOfReg_eq (b : RegValue) : byteOfReg b = b := BitVec.setWidth_eq b

@[simp] theorem regOfByte_eq (b : Byte) : regOfByte b = b := BitVec.setWidth_eq b

@[simp] theorem timerOfReg_eq (b : RegValue) : b.setWidth Config.timerWidth = b := BitVec.setWidth_eq b

@[simp] theorem regOfTimer_eq (b : TimerValue) : b.setWidth Config.vWidth = b := BitVec.setWidth_eq b

@[simp] theorem entryOfPc_eq (w : PcValue) : w.setWidth Config.stackEntryWidth = w := BitVec.setWidth_eq w

@[simp] theorem pcOfEntry_eq (w : EntryValue) : w.setWidth Config.pcWidth = w := BitVec.setWidth_eq w

@[simp] theorem toNat_pcOfReg (b : RegValue) : (b.setWidth Config.pcWidth).toNat = b.toNat := by
  have : b.toNat < 256 := b.isLt
  rw [BitVec.toNat_setWidth]
  exact Nat.mod_eq_of_lt (by simp only [Config.pcWidth]; omega)

@[simp] theorem toNat_indexOfReg (b : RegValue) : (b.setWidth Config.iWidth).toNat = b.toNat := toNat_pcOfReg b

@[simp] theorem toNat_pcOfAddr (nnn : Addr12) : (pcOfAddr nnn).toNat = nnn.toNat := by
  have := nnn.isLt
  rw [pcOfAddr, BitVec.toNat_setWidth]
  exact Nat.mod_eq_of_lt (by simp only [Config.pcWidth]; omega)

@[simp] theorem toNat_indexOfAddr (nnn : Addr12) : (indexOfAddr nnn).toNat = nnn.toNat := toNat_pcOfAddr nnn

theorem pcOfAddr_eq (nnn : Addr12) : pcOfAddr nnn = BitVec.ofNat Config.pcWidth nnn.toNat := by
  apply BitVec.eq_of_toNat_eq
  simp [pcOfAddr]

/-- The sum of a 12-bit address and a register, in PC: no wrap (R129, D9). -/
theorem toNat_pcOfAddr_add (nnn : Addr12) (b : RegValue) :
    (pcOfAddr nnn + b.setWidth Config.pcWidth).toNat = nnn.toNat + b.toNat := by
  have := nnn.isLt
  have : b.toNat < 256 := b.isLt
  rw [BitVec.toNat_add, toNat_pcOfAddr, toNat_pcOfReg]
  exact Nat.mod_eq_of_lt (by simp only [Config.pcWidth]; omega)

/-- The advance of PC where 16 bits do not overflow (R28). -/
theorem toNat_pc_add_two (w : PcValue) (h : w.toNat ≤ 0xFFE) : (w + 2).toNat = w.toNat + 2 := by
  rw [BitVec.toNat_add]
  exact Nat.mod_eq_of_lt (show w.toNat + 2 < 65536 by omega)

/-- The skip of PC where 16 bits do not overflow (R28). -/
theorem toNat_pc_add_four (w : PcValue) (h : w.toNat ≤ 0xFFE) : (w + 4).toNat = w.toNat + 4 := by
  rw [BitVec.toNat_add]
  exact Nat.mod_eq_of_lt (show w.toNat + 4 < 65536 by omega)

/-- The sum of I and a register (R201). -/
theorem toNat_index_add (i : IndexValue) (b : RegValue) :
    (i + b.setWidth Config.iWidth).toNat = (i.toNat + b.toNat) % 65536 := by
  rw [BitVec.toNat_add, toNat_indexOfReg]
  rfl

/-- The address of a digit's glyph (R202). -/
theorem toNat_glyphAddr (d : Nat) (h : d ≤ 0xF) : (glyphAddr d).toNat = 5 * d := by
  rw [glyphAddr, BitVec.toNat_ofNat]
  simp only [Config.fontBase, Config.glyphBytes, Config.iWidth]
  omega

/-! ## Operands below a bound -/

theorem State.keyOperand_of_le (s : State) (x : Reg) (h : (s.getV x).toNat ≤ 0xF) :
    s.keyOperand x = some ⟨(s.getV x).toNat, Nat.lt_succ_of_le h⟩ := dif_pos (Nat.lt_succ_of_le h)

theorem State.keyOperand_of_gt (s : State) (x : Reg) (h : 0xF < (s.getV x).toNat) :
    s.keyOperand x = none := dif_neg (Nat.not_lt.mpr h)

theorem State.digitOperand_of_le (s : State) (x : Reg) (h : (s.getV x).toNat ≤ 0xF) :
    s.digitOperand x = some ⟨(s.getV x).toNat, Nat.lt_succ_of_le h⟩ := dif_pos (Nat.lt_succ_of_le h)

theorem State.digitOperand_of_gt (s : State) (x : Reg) (h : 0xF < (s.getV x).toNat) :
    s.digitOperand x = none := dif_neg (Nat.not_lt.mpr h)

@[simp] theorem State.length_regBytes (s : State) (x : Reg) : (s.regBytes x).length = x.val + 1 := by
  have := x.isLt
  simp [State.regBytes]

theorem State.getElem_regBytes (s : State) (x r : Reg) (h : r.val < (s.regBytes x).length) :
    (s.regBytes x)[r.val] = s.getV r := by simp [State.regBytes, State.getV]

@[simp] theorem length_bcdDigits (b : RegValue) : (bcdDigits b).length = 3 := rfl

/-! ## Results and flags -/

@[simp] theorem msbMask_eq : msbMask = 0x80 := by decide

/-- R169, R164. -/
theorem toNat_addResult (a b : RegValue) : (addResult a b).toNat = (a.toNat + b.toNat) % 256 :=
  BitVec.toNat_ofNat _ _

/-- R169. -/
theorem addFlag_eq (a b : RegValue) : addFlag a b = if a.toNat + b.toNat > 255 then 1 else 0 := by
  simp only [addFlag, flagOf, decide_eq_true_eq]
  rfl

/-- R170, R172, on integers. -/
theorem toNat_subResult (a b : RegValue) :
    ((subResult a b).toNat : Int) = ((a.toNat : Int) - (b.toNat : Int)) % 256 := by
  rw [subResult, BitVec.toNat_ofInt]
  simp only [Config.vWidth]
  omega

/-- R170, R172. -/
theorem subFlag_eq (a b : RegValue) : subFlag a b = if a.toNat > b.toNat then 1 else 0 := by
  simp only [subFlag, flagOf, decide_eq_true_eq]

/-- R171. -/
theorem toNat_shrResult (a : RegValue) : (shrResult a).toNat = a.toNat / 2 := by
  have : a.toNat < 256 := a.isLt
  rw [shrResult, BitVec.toNat_ofNat]
  exact Nat.mod_eq_of_lt (by simp only [Config.vWidth]; omega)

/-- R171. -/
theorem toNat_shrFlag (a : RegValue) : (shrFlag a).toNat = a.toNat % 2 := by
  rw [shrFlag, BitVec.toNat_and]
  exact Nat.and_one_is_mod a.toNat

/-- R173. -/
theorem toNat_shlResult (a : RegValue) : (shlResult a).toNat = a.toNat * 2 % 256 := BitVec.toNat_ofNat _ _

end Sys2Proof.Machine
end

