-- ==== Sys2Proof/Laws/Memory.lean ====
section
/-! SUPPORT. The laws of the Address Space: read after write, the canonical form, and what the multi-byte
accesses of R67 do. -/

namespace Sys2Proof.Machine

open Sys2Proof

/-! ## The canonical form -/

theorem Memory.wf_nil : Memory.wf [] := by simp [Memory.wf]

theorem Memory.wf_tail {c : Host.Cell} {m : Memory} (h : Memory.wf (c :: m)) : Memory.wf m :=
  ⟨(List.pairwise_cons.mp h.1).2, fun d hd => h.2 d (List.mem_cons_of_mem _ hd)⟩

/-- Every cell after the first lies higher. -/
theorem Memory.wf_head_lt {c d : Host.Cell} {m : Memory} (h : Memory.wf (c :: m)) (hd : d ∈ m) : c.1 < d.1 :=
  (List.pairwise_cons.mp h.1).1 d hd

/-- An address that no cell lists reads as its boot content. -/
theorem Memory.peek_of_unlisted {m : Memory} {a : Nat} (h : ∀ c ∈ m, c.1 ≠ a) :
    Memory.peek m a = Memory.bootByte a := by
  induction m with
  | nil => rfl
  | cons c m ih =>
    have hc : a ≠ c.1 := fun e => h c (List.mem_cons_self ..) e.symm
    simp only [Memory.peek, if_neg hc]
    exact ih fun d hd => h d (List.mem_cons_of_mem _ hd)

/-- In canonical form an address below the first cell reads as its boot content. -/
theorem Memory.peek_below {c : Host.Cell} {m : Memory} (h : Memory.wf (c :: m)) {a : Nat} (ha : a < c.1) :
    Memory.peek (c :: m) a = Memory.bootByte a :=
  Memory.peek_of_unlisted fun d hd => by
    rcases List.mem_cons.mp hd with rfl | hd
    · omega
    · have := Memory.wf_head_lt h hd; omega

/-- In canonical form the tail lists no address of the head. -/
theorem Memory.peek_tail_head {c : Host.Cell} {m : Memory} (h : Memory.wf (c :: m)) :
    Memory.peek m c.1 = Memory.bootByte c.1 :=
  Memory.peek_of_unlisted fun d hd => by have := Memory.wf_head_lt h hd; omega

/-! ## One byte written -/

/-- The cells of a memory after a write are cells it had, or the written one. -/
theorem Memory.mem_poke {m : Memory} {a : Nat} {v : Byte} {c : Host.Cell} (h : c ∈ Memory.poke m a v) :
    c ∈ m ∨ (c = (a, v) ∧ v ≠ Memory.bootByte a) := by
  induction m with
  | nil =>
    simp only [Memory.poke] at h
    split at h <;> simp_all
  | cons d m ih =>
    obtain ⟨b, u⟩ := d
    simp only [Memory.poke] at h
    split at h
    · split at h
      · exact .inl h
      · rcases List.mem_cons.mp h with rfl | h
        · exact .inr ⟨rfl, by assumption⟩
        · exact .inl h
    · split at h
      · split at h
        · exact .inl (List.mem_cons_of_mem _ h)
        · rcases List.mem_cons.mp h with rfl | h
          · exact .inr ⟨rfl, by assumption⟩
          · exact .inl (List.mem_cons_of_mem _ h)
      · rcases List.mem_cons.mp h with rfl | h
        · exact .inl (List.mem_cons_self ..)
        · exact (ih h).imp_left (List.mem_cons_of_mem _)

/-- A write keeps the canonical form. -/
theorem Memory.poke_wf {m : Memory} (h : Memory.wf m) {a : Nat} (ha : a < Config.memSize) (v : Byte) :
    Memory.wf (Memory.poke m a v) := by
  refine ⟨?_, fun c hc => ?_⟩
  · induction m with
    | nil => simp only [Memory.poke]; split <;> simp
    | cons c m ih =>
      obtain ⟨b, u⟩ := c
      have hp := List.pairwise_cons.mp h.1
      simp only [Memory.poke]
      split
      · split
        · exact h.1
        · refine List.pairwise_cons.mpr ⟨fun d hd => ?_, h.1⟩
          rcases List.mem_cons.mp hd with rfl | hd
          · assumption
          · have : b < d.1 := hp.1 d hd
            show a < d.1; omega
      · split
        · split
          · exact hp.2
          · subst_vars; exact List.pairwise_cons.mpr ⟨hp.1, hp.2⟩
        · refine List.pairwise_cons.mpr ⟨fun d hd => ?_, ih (Memory.wf_tail h)⟩
          rcases Memory.mem_poke hd with hd | ⟨rfl, -⟩
          · exact hp.1 d hd
          · show b < a; omega
  · rcases Memory.mem_poke hc with hc | ⟨rfl, hv⟩
    · exact h.2 c hc
    · exact ⟨ha, hv⟩

/-- A write gives the address its value. -/
theorem Memory.peek_poke_same {m : Memory} (h : Memory.wf m) (a : Nat) (v : Byte) :
    Memory.peek (Memory.poke m a v) a = v := by
  induction m with
  | nil => by_cases hv : v = Memory.bootByte a <;> simp [Memory.poke, Memory.peek, hv]
  | cons c m ih =>
    obtain ⟨b, u⟩ := c
    simp only [Memory.poke]
    split
    · split
      · rw [Memory.peek_below h (by assumption)]; exact Eq.symm (by assumption)
      · simp [Memory.peek]
    · split
      · split
        · subst_vars; exact Memory.peek_tail_head h
        · simp [Memory.peek]
      · simp only [Memory.peek, if_neg (by assumption : ¬ a = b)]
        exact ih (Memory.wf_tail h)

/-- A write leaves every other address alone. -/
theorem Memory.peek_poke_other (m : Memory) {a c : Nat} (hc : c ≠ a) (v : Byte) :
    Memory.peek (Memory.poke m a v) c = Memory.peek m c := by
  induction m with
  | nil => by_cases hv : v = Memory.bootByte a <;> simp [Memory.poke, Memory.peek, hv, hc]
  | cons d m ih =>
    obtain ⟨b, u⟩ := d
    simp only [Memory.poke]
    split
    · split
      · rfl
      · simp [Memory.peek, hc]
    · split
      · split <;> subst_vars <;> simp [Memory.peek, hc]
      · simp only [Memory.peek, ih]

/-! ## The bounds check (R61, R62) -/

theorem Memory.read_of_lt (m : Memory) {a : Nat} (h : a < Config.memSize) :
    Memory.read m a = some (Memory.peek m a) := if_pos h

theorem Memory.read_of_ge (m : Memory) {a : Nat} (h : Config.memSize ≤ a) : Memory.read m a = none :=
  if_neg (Nat.not_lt.mpr h)

theorem Memory.write_of_lt (m : Memory) {a : Nat} (h : a < Config.memSize) (v : Byte) :
    Memory.write m a v = some (Memory.poke m a v) := if_pos h

theorem Memory.write_of_ge (m : Memory) {a : Nat} (h : Config.memSize ≤ a) (v : Byte) :
    Memory.write m a v = none := if_neg (Nat.not_lt.mpr h)

/-! ## Several bytes (R67) -/

/-- What `n` reads answer: all addresses are inside the space and the bytes are theirs, or one is not. -/
theorem Memory.readBytes_eq (m : Memory) (a n : Nat) :
    Memory.readBytes m a n =
      if n = 0 ∨ a + n ≤ Config.memSize then some ((List.range n).map fun k => Memory.peek m (a + k)) else none := by
  induction n generalizing a with
  | zero => simp [Memory.readBytes]
  | succ n ih =>
    simp only [Memory.readBytes, ih, Memory.read]
    by_cases h : a < Config.memSize
    · by_cases h' : n = 0 ∨ a + 1 + n ≤ Config.memSize
      · have : a + (n + 1) ≤ Config.memSize := by omega
        simp [h, this, List.range_succ_eq_map, Function.comp_def, Nat.add_assoc, Nat.add_comm 1]
      · have : ¬ (a + (n + 1) ≤ Config.memSize) := by omega
        simp [h, h', this]
    · have : ¬ (a + (n + 1) ≤ Config.memSize) := by omega
      simp [h, this]

/-- Writes that all fall inside the space succeed. -/
theorem Memory.writeBytes_isSome (m : Memory) (a : Nat) (bs : List Byte)
    (h : bs = [] ∨ a + bs.length ≤ Config.memSize) : (Memory.writeBytes m a bs).isSome := by
  induction bs generalizing m a with
  | nil => rfl
  | cons b bs ih =>
    simp only [List.length_cons, reduceCtorEq, false_or] at h
    simp only [Memory.writeBytes, Memory.write_of_lt m (by omega : a < Config.memSize)]
    exact ih _ _ (.inr (by omega))

/-- Writes one of which falls outside the space fail. -/
theorem Memory.writeBytes_eq_none (m : Memory) (a : Nat) (bs : List Byte)
    (h : bs ≠ [] ∧ Config.memSize < a + bs.length) : Memory.writeBytes m a bs = none := by
  induction bs generalizing m a with
  | nil => exact absurd rfl h.1
  | cons b bs ih =>
    simp only [Memory.writeBytes, Memory.write]
    by_cases ha : a < Config.memSize
    · have hl := h.2
      simp only [List.length_cons] at hl
      simp only [ha, if_true]
      exact ih _ _ ⟨by rintro rfl; simp at hl; omega, by omega⟩
    · simp [ha]

/-- Writes keep the canonical form. -/
theorem Memory.writeBytes_wf {m m' : Memory} {a : Nat} {bs : List Byte} (h : Memory.wf m)
    (hw : Memory.writeBytes m a bs = some m') : Memory.wf m' := by
  induction bs generalizing m a with
  | nil => cases hw; exact h
  | cons b bs ih =>
    simp only [Memory.writeBytes, Memory.write] at hw
    by_cases ha : a < Config.memSize
    · simp only [ha, if_true] at hw
      exact ih (Memory.poke_wf h ha b) hw
    · simp [ha] at hw

/-- Writes leave every address outside the written ones alone. -/
theorem Memory.peek_writeBytes_other {m m' : Memory} {a : Nat} {bs : List Byte}
    (hw : Memory.writeBytes m a bs = some m') {c : Nat} (hc : c < a ∨ a + bs.length ≤ c) :
    Memory.peek m' c = Memory.peek m c := by
  induction bs generalizing m a with
  | nil => cases hw; rfl
  | cons b bs ih =>
    simp only [Memory.writeBytes, Memory.write] at hw
    simp only [List.length_cons] at hc
    by_cases ha : a < Config.memSize
    · simp only [ha, if_true] at hw
      rw [ih hw (by omega), Memory.peek_poke_other m (by omega)]
    · simp [ha] at hw

/-- Writes give each address its byte. -/
theorem Memory.peek_writeBytes {m m' : Memory} {a : Nat} {bs : List Byte} (h : Memory.wf m)
    (hw : Memory.writeBytes m a bs = some m') (k : Nat) (hk : k < bs.length) :
    Memory.peek m' (a + k) = bs[k] := by
  induction bs generalizing m a k with
  | nil => simp at hk
  | cons b bs ih =>
    simp only [Memory.writeBytes, Memory.write] at hw
    by_cases ha : a < Config.memSize
    · simp only [ha, if_true] at hw
      cases k with
      | zero => simpa using (Memory.peek_writeBytes_other hw (by omega)).trans (Memory.peek_poke_same h a b)
      | succ k =>
        have := ih (Memory.poke_wf h ha b) hw k (by simpa using hk)
        simpa [Nat.add_assoc, Nat.add_comm 1] using this
    · simp [ha] at hw

/-! ## A memory given by its bytes -/

/-- A memory given by its bytes is in canonical form. -/
theorem Memory.ofBytes_wf (f : Nat → Byte) : Memory.wf (Memory.ofBytes f) := by
  refine ⟨?_, fun c hc => ?_⟩
  · refine List.pairwise_filterMap.mpr (List.pairwise_lt_range.imp ?_)
    intro a b hab c hc d hd
    split at hc <;> simp at hc
    split at hd <;> simp at hd
    subst hc; subst hd; exact hab
  · simp only [Memory.ofBytes, List.mem_filterMap, List.mem_range] at hc
    obtain ⟨a, ha, hc⟩ := hc
    split at hc <;> simp at hc
    subst hc
    exact ⟨ha, by assumption⟩

theorem Memory.peek_filterMap (f : Nat → Byte) (l : List Nat) (a : Nat) (ha : a ∈ l) :
    Memory.peek (l.filterMap fun a => if f a = Memory.bootByte a then none else some (a, f a)) a = f a := by
  induction l with
  | nil => simp at ha
  | cons b l ih =>
    by_cases hb : f b = Memory.bootByte b
    · simp only [List.filterMap_cons, hb, if_true]
      rcases List.mem_cons.mp ha with rfl | ha
      · by_cases hl : a ∈ l
        · exact ih hl
        · rw [hb]
          refine Memory.peek_of_unlisted fun c hc => ?_
          simp only [List.mem_filterMap] at hc
          obtain ⟨d, hd, hc⟩ := hc
          split at hc <;> simp at hc
          subst hc; rintro rfl; exact hl hd
      · exact ih ha
    · simp only [List.filterMap_cons, hb, if_false, Memory.peek]
      split
      · subst_vars; rfl
      · rcases List.mem_cons.mp ha with rfl | ha
        · contradiction
        · exact ih ha

/-- A memory given by its bytes reads as them. -/
theorem Memory.peek_ofBytes (f : Nat → Byte) {a : Nat} (ha : a < Config.memSize) :
    Memory.peek (Memory.ofBytes f) a = f a :=
  Memory.peek_filterMap f _ a (List.mem_range.mpr ha)

/-- In canonical form, memories that read the same are the same data. -/
theorem Memory.ext_of_wf {m m' : Memory} (h : Memory.wf m) (h' : Memory.wf m')
    (he : ∀ a, Memory.peek m a = Memory.peek m' a) : m = m' := by
  induction m generalizing m' with
  | nil =>
    cases m' with
    | nil => rfl
    | cons c m' =>
      have := he c.1
      simp only [Memory.peek, if_true] at this
      exact absurd this.symm (h'.2 c (List.mem_cons_self ..)).2
  | cons c m ih =>
    cases m' with
    | nil =>
      have := he c.1
      simp only [Memory.peek, if_true] at this
      exact absurd this (h.2 c (List.mem_cons_self ..)).2
    | cons d m' =>
      have hcd : c.1 = d.1 := by
        rcases Nat.lt_trichotomy c.1 d.1 with hlt | heq | hgt
        · have := he c.1
          rw [Memory.peek_below h' hlt] at this
          simp only [Memory.peek, if_true] at this
          exact absurd this (h.2 c (List.mem_cons_self ..)).2
        · exact heq
        · have := he d.1
          rw [Memory.peek_below h hgt] at this
          simp only [Memory.peek, if_true] at this
          exact absurd this.symm (h'.2 d (List.mem_cons_self ..)).2
      have hv : c.2 = d.2 := by
        have := he c.1
        simpa [Memory.peek, hcd] using this
      have hc : c = d := Prod.ext hcd hv
      subst hc
      rw [ih (Memory.wf_tail h) (Memory.wf_tail h') fun a => ?_]
      by_cases ha : a = c.1
      · subst ha
        rw [Memory.peek_tail_head h, Memory.peek_tail_head h']
      · have := he a
        simpa [Memory.peek, ha] using this

end Sys2Proof.Machine
end

