-- ==== Sys2Proof/Laws/State.lean ====
section
/-! SUPPORT. One lemma per field per update of State, each true by rfl and tagged simp, so that no later
proof unfolds a record update. -/

namespace Sys2Proof.Machine

open Sys2Proof

/-! ## setV -/

@[simp] theorem State.setV_v (s : State) (x : Reg) (b : RegValue) : (s.setV x b).v = s.v.set x.val b x.isLt := rfl
@[simp] theorem State.setV_i (s : State) (x : Reg) (b : RegValue) : (s.setV x b).i = s.i := rfl
@[simp] theorem State.setV_pc (s : State) (x : Reg) (b : RegValue) : (s.setV x b).pc = s.pc := rfl
@[simp] theorem State.setV_stack (s : State) (x : Reg) (b : RegValue) : (s.setV x b).stack = s.stack := rfl
@[simp] theorem State.setV_sp (s : State) (x : Reg) (b : RegValue) : (s.setV x b).sp = s.sp := rfl
@[simp] theorem State.setV_dt (s : State) (x : Reg) (b : RegValue) : (s.setV x b).dt = s.dt := rfl
@[simp] theorem State.setV_st (s : State) (x : Reg) (b : RegValue) : (s.setV x b).st = s.st := rfl
@[simp] theorem State.setV_mem (s : State) (x : Reg) (b : RegValue) : (s.setV x b).mem = s.mem := rfl
@[simp] theorem State.setV_screen (s : State) (x : Reg) (b : RegValue) : (s.setV x b).screen = s.screen := rfl
@[simp] theorem State.setV_key (s : State) (x : Reg) (b : RegValue) : (s.setV x b).key = s.key := rfl
@[simp] theorem State.setV_run (s : State) (x : Reg) (b : RegValue) : (s.setV x b).run = s.run := rfl
@[simp] theorem State.setV_stage (s : State) (x : Reg) (b : RegValue) : (s.setV x b).stage = s.stage := rfl
@[simp] theorem State.setV_draws (s : State) (x : Reg) (b : RegValue) : (s.setV x b).draws = s.draws := rfl
@[simp] theorem State.setV_inputs (s : State) (x : Reg) (b : RegValue) : (s.setV x b).inputs = s.inputs := rfl

/-! ## setFlag -/

@[simp] theorem State.setFlag_v (s : State) (b : RegValue) : (s.setFlag b).v = s.v.set Reg.vf.val b Reg.vf.isLt := rfl
@[simp] theorem State.setFlag_i (s : State) (b : RegValue) : (s.setFlag b).i = s.i := rfl
@[simp] theorem State.setFlag_pc (s : State) (b : RegValue) : (s.setFlag b).pc = s.pc := rfl
@[simp] theorem State.setFlag_stack (s : State) (b : RegValue) : (s.setFlag b).stack = s.stack := rfl
@[simp] theorem State.setFlag_sp (s : State) (b : RegValue) : (s.setFlag b).sp = s.sp := rfl
@[simp] theorem State.setFlag_dt (s : State) (b : RegValue) : (s.setFlag b).dt = s.dt := rfl
@[simp] theorem State.setFlag_st (s : State) (b : RegValue) : (s.setFlag b).st = s.st := rfl
@[simp] theorem State.setFlag_mem (s : State) (b : RegValue) : (s.setFlag b).mem = s.mem := rfl
@[simp] theorem State.setFlag_screen (s : State) (b : RegValue) : (s.setFlag b).screen = s.screen := rfl
@[simp] theorem State.setFlag_key (s : State) (b : RegValue) : (s.setFlag b).key = s.key := rfl
@[simp] theorem State.setFlag_run (s : State) (b : RegValue) : (s.setFlag b).run = s.run := rfl
@[simp] theorem State.setFlag_stage (s : State) (b : RegValue) : (s.setFlag b).stage = s.stage := rfl
@[simp] theorem State.setFlag_draws (s : State) (b : RegValue) : (s.setFlag b).draws = s.draws := rfl
@[simp] theorem State.setFlag_inputs (s : State) (b : RegValue) : (s.setFlag b).inputs = s.inputs := rfl

/-! ## setI -/

@[simp] theorem State.setI_v (s : State) (w : IndexValue) : (s.setI w).v = s.v := rfl
@[simp] theorem State.setI_i (s : State) (w : IndexValue) : (s.setI w).i = w := rfl
@[simp] theorem State.setI_pc (s : State) (w : IndexValue) : (s.setI w).pc = s.pc := rfl
@[simp] theorem State.setI_stack (s : State) (w : IndexValue) : (s.setI w).stack = s.stack := rfl
@[simp] theorem State.setI_sp (s : State) (w : IndexValue) : (s.setI w).sp = s.sp := rfl
@[simp] theorem State.setI_dt (s : State) (w : IndexValue) : (s.setI w).dt = s.dt := rfl
@[simp] theorem State.setI_st (s : State) (w : IndexValue) : (s.setI w).st = s.st := rfl
@[simp] theorem State.setI_mem (s : State) (w : IndexValue) : (s.setI w).mem = s.mem := rfl
@[simp] theorem State.setI_screen (s : State) (w : IndexValue) : (s.setI w).screen = s.screen := rfl
@[simp] theorem State.setI_key (s : State) (w : IndexValue) : (s.setI w).key = s.key := rfl
@[simp] theorem State.setI_run (s : State) (w : IndexValue) : (s.setI w).run = s.run := rfl
@[simp] theorem State.setI_stage (s : State) (w : IndexValue) : (s.setI w).stage = s.stage := rfl
@[simp] theorem State.setI_draws (s : State) (w : IndexValue) : (s.setI w).draws = s.draws := rfl
@[simp] theorem State.setI_inputs (s : State) (w : IndexValue) : (s.setI w).inputs = s.inputs := rfl

/-! ## setPc -/

@[simp] theorem State.setPc_v (s : State) (w : PcValue) : (s.setPc w).v = s.v := rfl
@[simp] theorem State.setPc_i (s : State) (w : PcValue) : (s.setPc w).i = s.i := rfl
@[simp] theorem State.setPc_pc (s : State) (w : PcValue) : (s.setPc w).pc = w := rfl
@[simp] theorem State.setPc_stack (s : State) (w : PcValue) : (s.setPc w).stack = s.stack := rfl
@[simp] theorem State.setPc_sp (s : State) (w : PcValue) : (s.setPc w).sp = s.sp := rfl
@[simp] theorem State.setPc_dt (s : State) (w : PcValue) : (s.setPc w).dt = s.dt := rfl
@[simp] theorem State.setPc_st (s : State) (w : PcValue) : (s.setPc w).st = s.st := rfl
@[simp] theorem State.setPc_mem (s : State) (w : PcValue) : (s.setPc w).mem = s.mem := rfl
@[simp] theorem State.setPc_screen (s : State) (w : PcValue) : (s.setPc w).screen = s.screen := rfl
@[simp] theorem State.setPc_key (s : State) (w : PcValue) : (s.setPc w).key = s.key := rfl
@[simp] theorem State.setPc_run (s : State) (w : PcValue) : (s.setPc w).run = s.run := rfl
@[simp] theorem State.setPc_stage (s : State) (w : PcValue) : (s.setPc w).stage = s.stage := rfl
@[simp] theorem State.setPc_draws (s : State) (w : PcValue) : (s.setPc w).draws = s.draws := rfl
@[simp] theorem State.setPc_inputs (s : State) (w : PcValue) : (s.setPc w).inputs = s.inputs := rfl

/-! ## advance -/

@[simp] theorem State.advance_v (s : State) : (s.advance).v = s.v := rfl
@[simp] theorem State.advance_i (s : State) : (s.advance).i = s.i := rfl
@[simp] theorem State.advance_pc (s : State) : (s.advance).pc = s.pc + 2 := rfl
@[simp] theorem State.advance_stack (s : State) : (s.advance).stack = s.stack := rfl
@[simp] theorem State.advance_sp (s : State) : (s.advance).sp = s.sp := rfl
@[simp] theorem State.advance_dt (s : State) : (s.advance).dt = s.dt := rfl
@[simp] theorem State.advance_st (s : State) : (s.advance).st = s.st := rfl
@[simp] theorem State.advance_mem (s : State) : (s.advance).mem = s.mem := rfl
@[simp] theorem State.advance_screen (s : State) : (s.advance).screen = s.screen := rfl
@[simp] theorem State.advance_key (s : State) : (s.advance).key = s.key := rfl
@[simp] theorem State.advance_run (s : State) : (s.advance).run = s.run := rfl
@[simp] theorem State.advance_stage (s : State) : (s.advance).stage = s.stage := rfl
@[simp] theorem State.advance_draws (s : State) : (s.advance).draws = s.draws := rfl
@[simp] theorem State.advance_inputs (s : State) : (s.advance).inputs = s.inputs := rfl

/-! ## skipIf -/

@[simp] theorem State.skipIf_v (s : State) (c : Bool) : (s.skipIf c).v = s.v := rfl
@[simp] theorem State.skipIf_i (s : State) (c : Bool) : (s.skipIf c).i = s.i := rfl
@[simp] theorem State.skipIf_pc (s : State) (c : Bool) : (s.skipIf c).pc = if c then s.pc + 4 else s.pc + 2 := rfl
@[simp] theorem State.skipIf_stack (s : State) (c : Bool) : (s.skipIf c).stack = s.stack := rfl
@[simp] theorem State.skipIf_sp (s : State) (c : Bool) : (s.skipIf c).sp = s.sp := rfl
@[simp] theorem State.skipIf_dt (s : State) (c : Bool) : (s.skipIf c).dt = s.dt := rfl
@[simp] theorem State.skipIf_st (s : State) (c : Bool) : (s.skipIf c).st = s.st := rfl
@[simp] theorem State.skipIf_mem (s : State) (c : Bool) : (s.skipIf c).mem = s.mem := rfl
@[simp] theorem State.skipIf_screen (s : State) (c : Bool) : (s.skipIf c).screen = s.screen := rfl
@[simp] theorem State.skipIf_key (s : State) (c : Bool) : (s.skipIf c).key = s.key := rfl
@[simp] theorem State.skipIf_run (s : State) (c : Bool) : (s.skipIf c).run = s.run := rfl
@[simp] theorem State.skipIf_stage (s : State) (c : Bool) : (s.skipIf c).stage = s.stage := rfl
@[simp] theorem State.skipIf_draws (s : State) (c : Bool) : (s.skipIf c).draws = s.draws := rfl
@[simp] theorem State.skipIf_inputs (s : State) (c : Bool) : (s.skipIf c).inputs = s.inputs := rfl

/-! ## setRun -/

@[simp] theorem State.setRun_v (s : State) (r : RunState) : (s.setRun r).v = s.v := rfl
@[simp] theorem State.setRun_i (s : State) (r : RunState) : (s.setRun r).i = s.i := rfl
@[simp] theorem State.setRun_pc (s : State) (r : RunState) : (s.setRun r).pc = s.pc := rfl
@[simp] theorem State.setRun_stack (s : State) (r : RunState) : (s.setRun r).stack = s.stack := rfl
@[simp] theorem State.setRun_sp (s : State) (r : RunState) : (s.setRun r).sp = s.sp := rfl
@[simp] theorem State.setRun_dt (s : State) (r : RunState) : (s.setRun r).dt = s.dt := rfl
@[simp] theorem State.setRun_st (s : State) (r : RunState) : (s.setRun r).st = s.st := rfl
@[simp] theorem State.setRun_mem (s : State) (r : RunState) : (s.setRun r).mem = s.mem := rfl
@[simp] theorem State.setRun_screen (s : State) (r : RunState) : (s.setRun r).screen = s.screen := rfl
@[simp] theorem State.setRun_key (s : State) (r : RunState) : (s.setRun r).key = s.key := rfl
@[simp] theorem State.setRun_run (s : State) (r : RunState) : (s.setRun r).run = r := rfl
@[simp] theorem State.setRun_stage (s : State) (r : RunState) : (s.setRun r).stage = s.stage := rfl
@[simp] theorem State.setRun_draws (s : State) (r : RunState) : (s.setRun r).draws = s.draws := rfl
@[simp] theorem State.setRun_inputs (s : State) (r : RunState) : (s.setRun r).inputs = s.inputs := rfl

/-! ## setKey -/

@[simp] theorem State.setKey_v (s : State) (k : Fin Config.numKeys) (b : Bool) : (s.setKey k b).v = s.v := rfl
@[simp] theorem State.setKey_i (s : State) (k : Fin Config.numKeys) (b : Bool) : (s.setKey k b).i = s.i := rfl
@[simp] theorem State.setKey_pc (s : State) (k : Fin Config.numKeys) (b : Bool) : (s.setKey k b).pc = s.pc := rfl
@[simp] theorem State.setKey_stack (s : State) (k : Fin Config.numKeys) (b : Bool) : (s.setKey k b).stack = s.stack := rfl
@[simp] theorem State.setKey_sp (s : State) (k : Fin Config.numKeys) (b : Bool) : (s.setKey k b).sp = s.sp := rfl
@[simp] theorem State.setKey_dt (s : State) (k : Fin Config.numKeys) (b : Bool) : (s.setKey k b).dt = s.dt := rfl
@[simp] theorem State.setKey_st (s : State) (k : Fin Config.numKeys) (b : Bool) : (s.setKey k b).st = s.st := rfl
@[simp] theorem State.setKey_mem (s : State) (k : Fin Config.numKeys) (b : Bool) : (s.setKey k b).mem = s.mem := rfl
@[simp] theorem State.setKey_screen (s : State) (k : Fin Config.numKeys) (b : Bool) : (s.setKey k b).screen = s.screen := rfl
@[simp] theorem State.setKey_key (s : State) (k : Fin Config.numKeys) (b : Bool) : (s.setKey k b).key = s.key.set k.val b k.isLt := rfl
@[simp] theorem State.setKey_run (s : State) (k : Fin Config.numKeys) (b : Bool) : (s.setKey k b).run = s.run := rfl
@[simp] theorem State.setKey_stage (s : State) (k : Fin Config.numKeys) (b : Bool) : (s.setKey k b).stage = s.stage := rfl
@[simp] theorem State.setKey_draws (s : State) (k : Fin Config.numKeys) (b : Bool) : (s.setKey k b).draws = s.draws := rfl
@[simp] theorem State.setKey_inputs (s : State) (k : Fin Config.numKeys) (b : Bool) : (s.setKey k b).inputs = s.inputs := rfl

/-! ## setStage -/

@[simp] theorem State.setStage_v (s : State) (g : BootStage) : (s.setStage g).v = s.v := rfl
@[simp] theorem State.setStage_i (s : State) (g : BootStage) : (s.setStage g).i = s.i := rfl
@[simp] theorem State.setStage_pc (s : State) (g : BootStage) : (s.setStage g).pc = s.pc := rfl
@[simp] theorem State.setStage_stack (s : State) (g : BootStage) : (s.setStage g).stack = s.stack := rfl
@[simp] theorem State.setStage_sp (s : State) (g : BootStage) : (s.setStage g).sp = s.sp := rfl
@[simp] theorem State.setStage_dt (s : State) (g : BootStage) : (s.setStage g).dt = s.dt := rfl
@[simp] theorem State.setStage_st (s : State) (g : BootStage) : (s.setStage g).st = s.st := rfl
@[simp] theorem State.setStage_mem (s : State) (g : BootStage) : (s.setStage g).mem = s.mem := rfl
@[simp] theorem State.setStage_screen (s : State) (g : BootStage) : (s.setStage g).screen = s.screen := rfl
@[simp] theorem State.setStage_key (s : State) (g : BootStage) : (s.setStage g).key = s.key := rfl
@[simp] theorem State.setStage_run (s : State) (g : BootStage) : (s.setStage g).run = s.run := rfl
@[simp] theorem State.setStage_draws (s : State) (g : BootStage) : (s.setStage g).draws = s.draws := rfl
@[simp] theorem State.setStage_inputs (s : State) (g : BootStage) : (s.setStage g).inputs = s.inputs := rfl
@[simp] theorem State.setStage_stage (s : State) (g : BootStage) : (s.setStage g).stage = g := rfl

/-! ## start -/

@[simp] theorem State.start_v (s : State) : s.start.v = s.v := rfl
@[simp] theorem State.start_i (s : State) : s.start.i = s.i := rfl
@[simp] theorem State.start_pc (s : State) : s.start.pc = s.pc := rfl
@[simp] theorem State.start_stack (s : State) : s.start.stack = s.stack := rfl
@[simp] theorem State.start_sp (s : State) : s.start.sp = s.sp := rfl
@[simp] theorem State.start_dt (s : State) : s.start.dt = s.dt := rfl
@[simp] theorem State.start_st (s : State) : s.start.st = s.st := rfl
@[simp] theorem State.start_mem (s : State) : s.start.mem = s.mem := rfl
@[simp] theorem State.start_screen (s : State) : s.start.screen = s.screen := rfl
@[simp] theorem State.start_key (s : State) : s.start.key = s.key := rfl
@[simp] theorem State.start_run (s : State) : s.start.run = s.run := rfl
@[simp] theorem State.start_draws (s : State) : s.start.draws = s.draws := rfl
@[simp] theorem State.start_inputs (s : State) : s.start.inputs = s.inputs := rfl
@[simp] theorem State.start_stage (s : State) : s.start.stage = .started := rfl

/-- A core that has started does not start again. -/
theorem State.start_of_started (s : State) (h : s.stage = .started) : s.start = s := by
  cases s
  simp only [State.start, State.setStage] at *
  rw [h]

/-! ## setScreen -/

@[simp] theorem State.setScreen_v (s : State) (sc : Screen) : (s.setScreen sc).v = s.v := rfl
@[simp] theorem State.setScreen_i (s : State) (sc : Screen) : (s.setScreen sc).i = s.i := rfl
@[simp] theorem State.setScreen_pc (s : State) (sc : Screen) : (s.setScreen sc).pc = s.pc := rfl
@[simp] theorem State.setScreen_stack (s : State) (sc : Screen) : (s.setScreen sc).stack = s.stack := rfl
@[simp] theorem State.setScreen_sp (s : State) (sc : Screen) : (s.setScreen sc).sp = s.sp := rfl
@[simp] theorem State.setScreen_dt (s : State) (sc : Screen) : (s.setScreen sc).dt = s.dt := rfl
@[simp] theorem State.setScreen_st (s : State) (sc : Screen) : (s.setScreen sc).st = s.st := rfl
@[simp] theorem State.setScreen_mem (s : State) (sc : Screen) : (s.setScreen sc).mem = s.mem := rfl
@[simp] theorem State.setScreen_screen (s : State) (sc : Screen) : (s.setScreen sc).screen = sc := rfl
@[simp] theorem State.setScreen_key (s : State) (sc : Screen) : (s.setScreen sc).key = s.key := rfl
@[simp] theorem State.setScreen_run (s : State) (sc : Screen) : (s.setScreen sc).run = s.run := rfl
@[simp] theorem State.setScreen_stage (s : State) (sc : Screen) : (s.setScreen sc).stage = s.stage := rfl
@[simp] theorem State.setScreen_draws (s : State) (sc : Screen) : (s.setScreen sc).draws = s.draws := rfl
@[simp] theorem State.setScreen_inputs (s : State) (sc : Screen) : (s.setScreen sc).inputs = s.inputs := rfl

/-! ## setMem -/

@[simp] theorem State.setMem_v (s : State) (m : Memory) : (s.setMem m).v = s.v := rfl
@[simp] theorem State.setMem_i (s : State) (m : Memory) : (s.setMem m).i = s.i := rfl
@[simp] theorem State.setMem_pc (s : State) (m : Memory) : (s.setMem m).pc = s.pc := rfl
@[simp] theorem State.setMem_stack (s : State) (m : Memory) : (s.setMem m).stack = s.stack := rfl
@[simp] theorem State.setMem_sp (s : State) (m : Memory) : (s.setMem m).sp = s.sp := rfl
@[simp] theorem State.setMem_dt (s : State) (m : Memory) : (s.setMem m).dt = s.dt := rfl
@[simp] theorem State.setMem_st (s : State) (m : Memory) : (s.setMem m).st = s.st := rfl
@[simp] theorem State.setMem_mem (s : State) (m : Memory) : (s.setMem m).mem = m := rfl
@[simp] theorem State.setMem_screen (s : State) (m : Memory) : (s.setMem m).screen = s.screen := rfl
@[simp] theorem State.setMem_key (s : State) (m : Memory) : (s.setMem m).key = s.key := rfl
@[simp] theorem State.setMem_run (s : State) (m : Memory) : (s.setMem m).run = s.run := rfl
@[simp] theorem State.setMem_stage (s : State) (m : Memory) : (s.setMem m).stage = s.stage := rfl
@[simp] theorem State.setMem_draws (s : State) (m : Memory) : (s.setMem m).draws = s.draws := rfl
@[simp] theorem State.setMem_inputs (s : State) (m : Memory) : (s.setMem m).inputs = s.inputs := rfl

/-! ## setInputs -/

@[simp] theorem State.setInputs_v (s : State) (l : List Input) : (s.setInputs l).v = s.v := rfl
@[simp] theorem State.setInputs_i (s : State) (l : List Input) : (s.setInputs l).i = s.i := rfl
@[simp] theorem State.setInputs_pc (s : State) (l : List Input) : (s.setInputs l).pc = s.pc := rfl
@[simp] theorem State.setInputs_stack (s : State) (l : List Input) : (s.setInputs l).stack = s.stack := rfl
@[simp] theorem State.setInputs_sp (s : State) (l : List Input) : (s.setInputs l).sp = s.sp := rfl
@[simp] theorem State.setInputs_dt (s : State) (l : List Input) : (s.setInputs l).dt = s.dt := rfl
@[simp] theorem State.setInputs_st (s : State) (l : List Input) : (s.setInputs l).st = s.st := rfl
@[simp] theorem State.setInputs_mem (s : State) (l : List Input) : (s.setInputs l).mem = s.mem := rfl
@[simp] theorem State.setInputs_screen (s : State) (l : List Input) : (s.setInputs l).screen = s.screen := rfl
@[simp] theorem State.setInputs_key (s : State) (l : List Input) : (s.setInputs l).key = s.key := rfl
@[simp] theorem State.setInputs_run (s : State) (l : List Input) : (s.setInputs l).run = s.run := rfl
@[simp] theorem State.setInputs_stage (s : State) (l : List Input) : (s.setInputs l).stage = s.stage := rfl
@[simp] theorem State.setInputs_draws (s : State) (l : List Input) : (s.setInputs l).draws = s.draws := rfl
@[simp] theorem State.setInputs_inputs (s : State) (l : List Input) : (s.setInputs l).inputs = l := rfl

/-! ## countDraw -/

@[simp] theorem State.countDraw_v (s : State) : (s.countDraw).v = s.v := rfl
@[simp] theorem State.countDraw_i (s : State) : (s.countDraw).i = s.i := rfl
@[simp] theorem State.countDraw_pc (s : State) : (s.countDraw).pc = s.pc := rfl
@[simp] theorem State.countDraw_stack (s : State) : (s.countDraw).stack = s.stack := rfl
@[simp] theorem State.countDraw_sp (s : State) : (s.countDraw).sp = s.sp := rfl
@[simp] theorem State.countDraw_dt (s : State) : (s.countDraw).dt = s.dt := rfl
@[simp] theorem State.countDraw_st (s : State) : (s.countDraw).st = s.st := rfl
@[simp] theorem State.countDraw_mem (s : State) : (s.countDraw).mem = s.mem := rfl
@[simp] theorem State.countDraw_screen (s : State) : (s.countDraw).screen = s.screen := rfl
@[simp] theorem State.countDraw_key (s : State) : (s.countDraw).key = s.key := rfl
@[simp] theorem State.countDraw_run (s : State) : (s.countDraw).run = s.run := rfl
@[simp] theorem State.countDraw_stage (s : State) : (s.countDraw).stage = s.stage := rfl
@[simp] theorem State.countDraw_draws (s : State) : (s.countDraw).draws = s.draws + 1 := rfl
@[simp] theorem State.countDraw_inputs (s : State) : (s.countDraw).inputs = s.inputs := rfl

/-! ## setVs -/

@[simp] theorem State.setVs_v (s : State) (bs : List Byte) : (s.setVs bs).v = loadV s.v 0 bs := rfl
@[simp] theorem State.setVs_i (s : State) (bs : List Byte) : (s.setVs bs).i = s.i := rfl
@[simp] theorem State.setVs_pc (s : State) (bs : List Byte) : (s.setVs bs).pc = s.pc := rfl
@[simp] theorem State.setVs_stack (s : State) (bs : List Byte) : (s.setVs bs).stack = s.stack := rfl
@[simp] theorem State.setVs_sp (s : State) (bs : List Byte) : (s.setVs bs).sp = s.sp := rfl
@[simp] theorem State.setVs_dt (s : State) (bs : List Byte) : (s.setVs bs).dt = s.dt := rfl
@[simp] theorem State.setVs_st (s : State) (bs : List Byte) : (s.setVs bs).st = s.st := rfl
@[simp] theorem State.setVs_mem (s : State) (bs : List Byte) : (s.setVs bs).mem = s.mem := rfl
@[simp] theorem State.setVs_screen (s : State) (bs : List Byte) : (s.setVs bs).screen = s.screen := rfl
@[simp] theorem State.setVs_key (s : State) (bs : List Byte) : (s.setVs bs).key = s.key := rfl
@[simp] theorem State.setVs_run (s : State) (bs : List Byte) : (s.setVs bs).run = s.run := rfl
@[simp] theorem State.setVs_stage (s : State) (bs : List Byte) : (s.setVs bs).stage = s.stage := rfl
@[simp] theorem State.setVs_draws (s : State) (bs : List Byte) : (s.setVs bs).draws = s.draws := rfl
@[simp] theorem State.setVs_inputs (s : State) (bs : List Byte) : (s.setVs bs).inputs = s.inputs := rfl

/-! ## setEntry -/

@[simp] theorem State.setEntry_v (s : State) (k : Fin Config.stackDepth) (w : EntryValue) : (s.setEntry k w).v = s.v := rfl
@[simp] theorem State.setEntry_i (s : State) (k : Fin Config.stackDepth) (w : EntryValue) : (s.setEntry k w).i = s.i := rfl
@[simp] theorem State.setEntry_pc (s : State) (k : Fin Config.stackDepth) (w : EntryValue) : (s.setEntry k w).pc = s.pc := rfl
@[simp] theorem State.setEntry_stack (s : State) (k : Fin Config.stackDepth) (w : EntryValue) :
    (s.setEntry k w).stack = s.stack.set k.val w k.isLt := rfl
@[simp] theorem State.setEntry_sp (s : State) (k : Fin Config.stackDepth) (w : EntryValue) : (s.setEntry k w).sp = s.sp := rfl
@[simp] theorem State.setEntry_dt (s : State) (k : Fin Config.stackDepth) (w : EntryValue) : (s.setEntry k w).dt = s.dt := rfl
@[simp] theorem State.setEntry_st (s : State) (k : Fin Config.stackDepth) (w : EntryValue) : (s.setEntry k w).st = s.st := rfl
@[simp] theorem State.setEntry_mem (s : State) (k : Fin Config.stackDepth) (w : EntryValue) : (s.setEntry k w).mem = s.mem := rfl
@[simp] theorem State.setEntry_screen (s : State) (k : Fin Config.stackDepth) (w : EntryValue) :
    (s.setEntry k w).screen = s.screen := rfl
@[simp] theorem State.setEntry_key (s : State) (k : Fin Config.stackDepth) (w : EntryValue) : (s.setEntry k w).key = s.key := rfl
@[simp] theorem State.setEntry_run (s : State) (k : Fin Config.stackDepth) (w : EntryValue) : (s.setEntry k w).run = s.run := rfl
@[simp] theorem State.setEntry_stage (s : State) (k : Fin Config.stackDepth) (w : EntryValue) : (s.setEntry k w).stage = s.stage := rfl
@[simp] theorem State.setEntry_draws (s : State) (k : Fin Config.stackDepth) (w : EntryValue) :
    (s.setEntry k w).draws = s.draws := rfl
@[simp] theorem State.setEntry_inputs (s : State) (k : Fin Config.stackDepth) (w : EntryValue) :
    (s.setEntry k w).inputs = s.inputs := rfl

/-! ## setSp -/

@[simp] theorem State.setSp_v (s : State) (n : Fin (Config.stackDepth + 1)) : (s.setSp n).v = s.v := rfl
@[simp] theorem State.setSp_i (s : State) (n : Fin (Config.stackDepth + 1)) : (s.setSp n).i = s.i := rfl
@[simp] theorem State.setSp_pc (s : State) (n : Fin (Config.stackDepth + 1)) : (s.setSp n).pc = s.pc := rfl
@[simp] theorem State.setSp_stack (s : State) (n : Fin (Config.stackDepth + 1)) : (s.setSp n).stack = s.stack := rfl
@[simp] theorem State.setSp_sp (s : State) (n : Fin (Config.stackDepth + 1)) : (s.setSp n).sp = n := rfl
@[simp] theorem State.setSp_dt (s : State) (n : Fin (Config.stackDepth + 1)) : (s.setSp n).dt = s.dt := rfl
@[simp] theorem State.setSp_st (s : State) (n : Fin (Config.stackDepth + 1)) : (s.setSp n).st = s.st := rfl
@[simp] theorem State.setSp_mem (s : State) (n : Fin (Config.stackDepth + 1)) : (s.setSp n).mem = s.mem := rfl
@[simp] theorem State.setSp_screen (s : State) (n : Fin (Config.stackDepth + 1)) : (s.setSp n).screen = s.screen := rfl
@[simp] theorem State.setSp_key (s : State) (n : Fin (Config.stackDepth + 1)) : (s.setSp n).key = s.key := rfl
@[simp] theorem State.setSp_run (s : State) (n : Fin (Config.stackDepth + 1)) : (s.setSp n).run = s.run := rfl
@[simp] theorem State.setSp_stage (s : State) (n : Fin (Config.stackDepth + 1)) : (s.setSp n).stage = s.stage := rfl
@[simp] theorem State.setSp_draws (s : State) (n : Fin (Config.stackDepth + 1)) : (s.setSp n).draws = s.draws := rfl
@[simp] theorem State.setSp_inputs (s : State) (n : Fin (Config.stackDepth + 1)) : (s.setSp n).inputs = s.inputs := rfl

/-! ## setResultFlag -/

@[simp] theorem State.setResultFlag_v (s : State) (x : Reg) (b f : RegValue) :
    (s.setResultFlag x b f).v = (s.v.set x.val b x.isLt).set Reg.vf.val f Reg.vf.isLt := rfl
@[simp] theorem State.setResultFlag_i (s : State) (x : Reg) (b f : RegValue) : (s.setResultFlag x b f).i = s.i := rfl
@[simp] theorem State.setResultFlag_pc (s : State) (x : Reg) (b f : RegValue) : (s.setResultFlag x b f).pc = s.pc := rfl
@[simp] theorem State.setResultFlag_stack (s : State) (x : Reg) (b f : RegValue) : (s.setResultFlag x b f).stack = s.stack := rfl
@[simp] theorem State.setResultFlag_sp (s : State) (x : Reg) (b f : RegValue) : (s.setResultFlag x b f).sp = s.sp := rfl
@[simp] theorem State.setResultFlag_dt (s : State) (x : Reg) (b f : RegValue) : (s.setResultFlag x b f).dt = s.dt := rfl
@[simp] theorem State.setResultFlag_st (s : State) (x : Reg) (b f : RegValue) : (s.setResultFlag x b f).st = s.st := rfl
@[simp] theorem State.setResultFlag_mem (s : State) (x : Reg) (b f : RegValue) : (s.setResultFlag x b f).mem = s.mem := rfl
@[simp] theorem State.setResultFlag_screen (s : State) (x : Reg) (b f : RegValue) :
    (s.setResultFlag x b f).screen = s.screen := rfl
@[simp] theorem State.setResultFlag_key (s : State) (x : Reg) (b f : RegValue) : (s.setResultFlag x b f).key = s.key := rfl
@[simp] theorem State.setResultFlag_run (s : State) (x : Reg) (b f : RegValue) : (s.setResultFlag x b f).run = s.run := rfl
@[simp] theorem State.setResultFlag_stage (s : State) (x : Reg) (b f : RegValue) : (s.setResultFlag x b f).stage = s.stage := rfl
@[simp] theorem State.setResultFlag_draws (s : State) (x : Reg) (b f : RegValue) : (s.setResultFlag x b f).draws = s.draws := rfl
@[simp] theorem State.setResultFlag_inputs (s : State) (x : Reg) (b f : RegValue) :
    (s.setResultFlag x b f).inputs = s.inputs := rfl

/-! ## timerWrite -/

@[simp] theorem State.timerWrite_delay_v (s : State) (b : TimerValue) : (s.timerWrite .delay b).v = s.v := rfl
@[simp] theorem State.timerWrite_delay_i (s : State) (b : TimerValue) : (s.timerWrite .delay b).i = s.i := rfl
@[simp] theorem State.timerWrite_delay_pc (s : State) (b : TimerValue) : (s.timerWrite .delay b).pc = s.pc := rfl
@[simp] theorem State.timerWrite_delay_stack (s : State) (b : TimerValue) : (s.timerWrite .delay b).stack = s.stack := rfl
@[simp] theorem State.timerWrite_delay_sp (s : State) (b : TimerValue) : (s.timerWrite .delay b).sp = s.sp := rfl
@[simp] theorem State.timerWrite_delay_dt (s : State) (b : TimerValue) : (s.timerWrite .delay b).dt = b := rfl
@[simp] theorem State.timerWrite_delay_st (s : State) (b : TimerValue) : (s.timerWrite .delay b).st = s.st := rfl
@[simp] theorem State.timerWrite_delay_mem (s : State) (b : TimerValue) : (s.timerWrite .delay b).mem = s.mem := rfl
@[simp] theorem State.timerWrite_delay_screen (s : State) (b : TimerValue) : (s.timerWrite .delay b).screen = s.screen := rfl
@[simp] theorem State.timerWrite_delay_key (s : State) (b : TimerValue) : (s.timerWrite .delay b).key = s.key := rfl
@[simp] theorem State.timerWrite_delay_run (s : State) (b : TimerValue) : (s.timerWrite .delay b).run = s.run := rfl
@[simp] theorem State.timerWrite_delay_stage (s : State) (b : TimerValue) : (s.timerWrite .delay b).stage = s.stage := rfl
@[simp] theorem State.timerWrite_delay_draws (s : State) (b : TimerValue) : (s.timerWrite .delay b).draws = s.draws := rfl
@[simp] theorem State.timerWrite_delay_inputs (s : State) (b : TimerValue) : (s.timerWrite .delay b).inputs = s.inputs := rfl
@[simp] theorem State.timerWrite_sound_v (s : State) (b : TimerValue) : (s.timerWrite .sound b).v = s.v := rfl
@[simp] theorem State.timerWrite_sound_i (s : State) (b : TimerValue) : (s.timerWrite .sound b).i = s.i := rfl
@[simp] theorem State.timerWrite_sound_pc (s : State) (b : TimerValue) : (s.timerWrite .sound b).pc = s.pc := rfl
@[simp] theorem State.timerWrite_sound_stack (s : State) (b : TimerValue) : (s.timerWrite .sound b).stack = s.stack := rfl
@[simp] theorem State.timerWrite_sound_sp (s : State) (b : TimerValue) : (s.timerWrite .sound b).sp = s.sp := rfl
@[simp] theorem State.timerWrite_sound_dt (s : State) (b : TimerValue) : (s.timerWrite .sound b).dt = s.dt := rfl
@[simp] theorem State.timerWrite_sound_st (s : State) (b : TimerValue) : (s.timerWrite .sound b).st = b := rfl
@[simp] theorem State.timerWrite_sound_mem (s : State) (b : TimerValue) : (s.timerWrite .sound b).mem = s.mem := rfl
@[simp] theorem State.timerWrite_sound_screen (s : State) (b : TimerValue) : (s.timerWrite .sound b).screen = s.screen := rfl
@[simp] theorem State.timerWrite_sound_key (s : State) (b : TimerValue) : (s.timerWrite .sound b).key = s.key := rfl
@[simp] theorem State.timerWrite_sound_run (s : State) (b : TimerValue) : (s.timerWrite .sound b).run = s.run := rfl
@[simp] theorem State.timerWrite_sound_stage (s : State) (b : TimerValue) : (s.timerWrite .sound b).stage = s.stage := rfl
@[simp] theorem State.timerWrite_sound_draws (s : State) (b : TimerValue) : (s.timerWrite .sound b).draws = s.draws := rfl
@[simp] theorem State.timerWrite_sound_inputs (s : State) (b : TimerValue) : (s.timerWrite .sound b).inputs = s.inputs := rfl
@[simp] theorem State.timerWrite_v (s : State) (t : Timer) (b : TimerValue) : (s.timerWrite t b).v = s.v := by cases t <;> rfl
@[simp] theorem State.timerWrite_i (s : State) (t : Timer) (b : TimerValue) : (s.timerWrite t b).i = s.i := by cases t <;> rfl
@[simp] theorem State.timerWrite_pc (s : State) (t : Timer) (b : TimerValue) : (s.timerWrite t b).pc = s.pc := by cases t <;> rfl
@[simp] theorem State.timerWrite_stack (s : State) (t : Timer) (b : TimerValue) : (s.timerWrite t b).stack = s.stack := by cases t <;> rfl
@[simp] theorem State.timerWrite_sp (s : State) (t : Timer) (b : TimerValue) : (s.timerWrite t b).sp = s.sp := by cases t <;> rfl
@[simp] theorem State.timerWrite_mem (s : State) (t : Timer) (b : TimerValue) : (s.timerWrite t b).mem = s.mem := by cases t <;> rfl
@[simp] theorem State.timerWrite_screen (s : State) (t : Timer) (b : TimerValue) : (s.timerWrite t b).screen = s.screen := by cases t <;> rfl
@[simp] theorem State.timerWrite_key (s : State) (t : Timer) (b : TimerValue) : (s.timerWrite t b).key = s.key := by cases t <;> rfl
@[simp] theorem State.timerWrite_run (s : State) (t : Timer) (b : TimerValue) : (s.timerWrite t b).run = s.run := by cases t <;> rfl
@[simp] theorem State.timerWrite_stage (s : State) (t : Timer) (b : TimerValue) : (s.timerWrite t b).stage = s.stage := by cases t <;> rfl
@[simp] theorem State.timerWrite_draws (s : State) (t : Timer) (b : TimerValue) : (s.timerWrite t b).draws = s.draws := by cases t <;> rfl
@[simp] theorem State.timerWrite_inputs (s : State) (t : Timer) (b : TimerValue) : (s.timerWrite t b).inputs = s.inputs := by cases t <;> rfl

/-! ## takeFault (R302, R304): PC, RUN and the model's own fields -/

@[simp] theorem State.takeFault_pc (s : State) (kind : FaultKind) (word : Option Word) :
    (s.takeFault kind word).pc = s.pc := rfl
@[simp] theorem State.takeFault_run (s : State) (kind : FaultKind) (word : Option Word) :
    (s.takeFault kind word).run = .faulted kind word s.pc := rfl
@[simp] theorem State.takeFault_stage (s : State) (kind : FaultKind) (word : Option Word) :
    (s.takeFault kind word).stage = s.stage := rfl
@[simp] theorem State.takeFault_draws (s : State) (kind : FaultKind) (word : Option Word) :
    (s.takeFault kind word).draws = s.draws + 1 := rfl
@[simp] theorem State.takeFault_inputs (s : State) (kind : FaultKind) (word : Option Word) :
    (s.takeFault kind word).inputs = s.inputs := rfl
@[simp] theorem State.takeFault_mem (s : State) (kind : FaultKind) (word : Option Word) :
    (s.takeFault kind word).mem = Memory.ofBytes (Config.faultMem s.draws) := by
  simp only [State.takeFault]

/-- The state after a fault depends on PC, the stage and the model's own fields alone (R304; log 3). -/
theorem State.takeFault_congr {s t : State} (hp : s.pc = t.pc) (hg : s.stage = t.stage) (hd : s.draws = t.draws)
    (hi : s.inputs = t.inputs) (kind : FaultKind) (word : Option Word) :
    s.takeFault kind word = t.takeFault kind word := by
  simp only [State.takeFault, hp, hg, hd, hi]

theorem State.takeFault_setInputs (s : State) (l : List Input) (kind : FaultKind) (word : Option Word) :
    (s.setInputs l).takeFault kind word = (s.takeFault kind word).setInputs l := by
  simp only [State.takeFault, State.setInputs]

/-! ## hostReset (R340) -/

@[simp] theorem State.hostReset_v (s : State) : s.hostReset.v = State.reset.v := rfl
@[simp] theorem State.hostReset_i (s : State) : s.hostReset.i = State.reset.i := rfl
@[simp] theorem State.hostReset_pc (s : State) : s.hostReset.pc = State.reset.pc := rfl
@[simp] theorem State.hostReset_stack (s : State) : s.hostReset.stack = State.reset.stack := rfl
@[simp] theorem State.hostReset_sp (s : State) : s.hostReset.sp = State.reset.sp := rfl
@[simp] theorem State.hostReset_dt (s : State) : s.hostReset.dt = State.reset.dt := rfl
@[simp] theorem State.hostReset_st (s : State) : s.hostReset.st = State.reset.st := rfl
@[simp] theorem State.hostReset_mem (s : State) : s.hostReset.mem = State.reset.mem := rfl
@[simp] theorem State.hostReset_screen (s : State) : s.hostReset.screen = State.reset.screen := rfl
@[simp] theorem State.hostReset_key (s : State) : s.hostReset.key = State.reset.key := rfl
@[simp] theorem State.hostReset_run (s : State) : s.hostReset.run = State.reset.run := rfl
@[simp] theorem State.hostReset_stage (s : State) : s.hostReset.stage = State.reset.stage := rfl
@[simp] theorem State.hostReset_draws (s : State) : s.hostReset.draws = s.draws := rfl
@[simp] theorem State.hostReset_inputs (s : State) : s.hostReset.inputs = s.inputs := rfl

end Sys2Proof.Machine
end

