-- ==== Sys2Proof/Laws/Ops.lean ====
section
/-! SUPPORT. What the shared operations of Machine/Ops, Operands, Flags, HostPorts and Clock do, once each. -/

namespace Sys2Proof.Machine

open Sys2Proof

/-! ## Registers -/

/-- A register read after a write of a register. -/
theorem State.getV_setV (s : State) (x r : Reg) (b : RegValue) :
    (s.setV x b).getV r = if r = x then b else s.getV r := by
  simp only [State.getV, State.setV, Fin.getElem_fin, Vector.getElem_set, Fin.ext_iff, eq_comm]

@[simp] theorem State.getV_setV_same (s : State) (x : Reg) (b : RegValue) : (s.setV x b).getV x = b := by
  simp [State.getV_setV]

theorem State.getV_setV_other (s : State) {x r : Reg} (h : r ≠ x) (b : RegValue) :
    (s.setV x b).getV r = s.getV r := by simp [State.getV_setV, h]

theorem State.getV_setFlag (s : State) (r : Reg) (b : RegValue) :
    (s.setFlag b).getV r = if r = Reg.vf then b else s.getV r := State.getV_setV s Reg.vf r b

/-- A register read after a result and a flag: the flag wins in VF (R162). -/
theorem State.getV_setResultFlag (s : State) (x r : Reg) (b f : RegValue) :
    (s.setResultFlag x b f).getV r = if r = Reg.vf then f else if r = x then b else s.getV r := by
  simp only [State.setResultFlag, State.getV_setFlag, State.getV_setV]

@[simp] theorem State.getV_setI (s : State) (w : IndexValue) (r : Reg) : (s.setI w).getV r = s.getV r := rfl
@[simp] theorem State.getV_setPc (s : State) (w : PcValue) (r : Reg) : (s.setPc w).getV r = s.getV r := rfl
@[simp] theorem State.getV_advance (s : State) (r : Reg) : s.advance.getV r = s.getV r := rfl
@[simp] theorem State.getV_skipIf (s : State) (c : Bool) (r : Reg) : (s.skipIf c).getV r = s.getV r := rfl
@[simp] theorem State.getV_setRun (s : State) (q : RunState) (r : Reg) : (s.setRun q).getV r = s.getV r := rfl
@[simp] theorem State.getV_setMem (s : State) (m : Memory) (r : Reg) : (s.setMem m).getV r = s.getV r := rfl
@[simp] theorem State.getV_setScreen (s : State) (sc : Screen) (r : Reg) :
    (s.setScreen sc).getV r = s.getV r := rfl
@[simp] theorem State.getV_setKey (s : State) (k : Fin Config.numKeys) (b : Bool) (r : Reg) :
    (s.setKey k b).getV r = s.getV r := rfl
@[simp] theorem State.getV_setInputs (s : State) (l : List Input) (r : Reg) :
    (s.setInputs l).getV r = s.getV r := rfl
@[simp] theorem State.getV_setEntry (s : State) (k : Fin Config.stackDepth) (w : EntryValue) (r : Reg) :
    (s.setEntry k w).getV r = s.getV r := rfl
@[simp] theorem State.getV_setSp (s : State) (n : Fin (Config.stackDepth + 1)) (r : Reg) :
    (s.setSp n).getV r = s.getV r := rfl
@[simp] theorem State.getV_setStage (s : State) (g : BootStage) (r : Reg) :
    (s.setStage g).getV r = s.getV r := rfl
@[simp] theorem State.getV_start (s : State) (r : Reg) : s.start.getV r = s.getV r := rfl
@[simp] theorem State.getV_countDraw (s : State) (r : Reg) : s.countDraw.getV r = s.getV r := rfl
@[simp] theorem State.getV_timerWrite (s : State) (t : Timer) (b : TimerValue) (r : Reg) :
    (s.timerWrite t b).getV r = s.getV r := by cases t <;> rfl

/-- A key read after a key written. -/
theorem State.keyDown_setKey (s : State) (k j : Fin Config.numKeys) (b : Bool) :
    (s.setKey k b).keyDown? j = if j = k then b else s.keyDown? j := by
  simp only [State.keyDown?, State.setKey, Fin.getElem_fin, Vector.getElem_set, Fin.ext_iff, eq_comm]

/-- A timer read after a timer written (R311). -/
@[simp] theorem State.timerRead_timerWrite (s : State) (t : Timer) (b : TimerValue) :
    (s.timerWrite t b).timerRead t = b := by cases t <;> rfl

theorem loadV_getElem (v : Vector RegValue Config.numV) (r : Nat) (bs : List Byte) (j : Nat) (hj : j < Config.numV) :
    (loadV v r bs)[j] = if h : r ≤ j ∧ j < r + bs.length then (bs[j - r]'(by omega)).setWidth Config.vWidth else v[j] := by
  induction bs generalizing v r with
  | nil => simp only [loadV, List.length_nil]; split <;> first | omega | rfl
  | cons b bs ih =>
    simp only [loadV, ih, List.length_cons]
    by_cases h1 : r + 1 ≤ j ∧ j < r + 1 + bs.length
    · have h2 : r ≤ j ∧ j < r + (bs.length + 1) := by omega
      simp only [dif_pos h1, dif_pos h2]
      have : j - r = (j - (r + 1)) + 1 := by omega
      simp only [this, List.getElem_cons_succ]
    · by_cases h3 : r = j
      · subst h3
        have h2 : r ≤ r ∧ r < r + (bs.length + 1) := by omega
        simp
      · have h2 : ¬ (r ≤ j ∧ j < r + (bs.length + 1)) := by omega
        simp only [dif_neg h1, dif_neg h2]
        exact Vector.getElem_setIfInBounds_ne _ h3

/-- A register read after the bulk load of a list of bytes (R205). -/
theorem State.getV_setVs (s : State) (bs : List Byte) (r : Reg) :
    (s.setVs bs).getV r = if h : r.val < bs.length then bs[r.val].setWidth Config.vWidth else s.getV r := by
  have := loadV_getElem s.v 0 bs r.val r.isLt
  simpa [State.getV, State.setVs] using this

/-! ## The stack -/

/-- A push with room: the entry at SP, SP one more, nothing else (R124). -/
theorem State.push_of_lt (s : State) (w : EntryValue) (h : s.sp.val < Config.stackDepth) :
    s.push w = some ((s.setEntry ⟨s.sp.val, h⟩ w).setSp ⟨s.sp.val + 1, Nat.succ_lt_succ h⟩) :=
  dif_pos h

theorem State.push_of_full (s : State) (w : EntryValue) (h : s.sp.val = Config.stackDepth) : s.push w = none :=
  dif_neg (by omega)

/-- A pop of an empty stack (R122). -/
theorem State.pop_of_empty (s : State) (h : s.sp.val = 0) : s.pop = none := by
  unfold State.pop
  split
  · rfl
  · rename_i e; simp [e] at h

/-- A pop: the entry below SP, SP one less, nothing else (R122). -/
theorem State.pop_of_succ (s : State) (n : Nat) (hn : n < Config.stackDepth) (h : s.sp.val = n + 1) :
    s.pop = some (s.stack[n], s.setSp ⟨n, Nat.lt_succ_of_lt hn⟩) := by
  unfold State.pop
  split
  · rename_i e; simp [e] at h
  · rename_i m hm e
    have : m = n := by simpa [e] using h
    subst this; rfl

/-! ## Memory and fetch -/

theorem State.memRead_of_lt (s : State) {a : Nat} (h : a < Config.memSize) :
    s.memRead a = some (Memory.peek s.mem a) := Memory.read_of_lt _ h

theorem State.memRead_of_ge (s : State) {a : Nat} (h : Config.memSize ≤ a) : s.memRead a = none :=
  Memory.read_of_ge _ h

/-- Reads agree when the memories agree. -/
theorem State.memRead_congr {s t : State} (h : ∀ a, Memory.peek t.mem a = Memory.peek s.mem a) (a : Nat) :
    t.memRead a = s.memRead a := by simp only [State.memRead, Memory.read, h]

/-- The fetch, when both bytes are inside the space (R64, R90). -/
theorem State.fetchWord_of_lt (s : State) (h : s.pc.toNat + 1 < Config.memSize) :
    s.fetchWord = some (wordOfBytes (Memory.peek s.mem s.pc.toNat) (Memory.peek s.mem (s.pc.toNat + 1))) := by
  simp only [State.fetchWord, State.memRead_of_lt s (by omega : s.pc.toNat < Config.memSize),
    State.memRead_of_lt s h]

/-- The fetch, when a byte is outside the space (R90). -/
theorem State.fetchWord_of_ge (s : State) (h : Config.memSize ≤ s.pc.toNat + 1) : s.fetchWord = none := by
  unfold State.fetchWord
  by_cases h' : s.pc.toNat < Config.memSize
  · simp only [State.memRead_of_lt s h', State.memRead_of_ge s h]
  · simp only [State.memRead_of_ge s (by omega : Config.memSize ≤ s.pc.toNat)]

/-- A store at I: it faults, or every byte goes to its address and PC advances (R203, R204). -/
theorem storeAtI_cases (word : Word) (bytes : List Byte) (s : State) :
    (∃ m, Memory.writeBytes s.mem (s.effAddr 0) bytes = some m ∧
      storeAtI word bytes s = .next (s.setMem m).advance) ∨
    (Memory.writeBytes s.mem (s.effAddr 0) bytes = none ∧
      storeAtI word bytes s = .next (s.takeFault .outOfRange (some word))) := by
  unfold storeAtI
  split
  · exact .inr ⟨by assumption, rfl⟩
  · exact .inl ⟨_, by assumption, rfl⟩

/-- A load that answers writes its bytes and nothing else; one that does not fit answers none (R72). -/
theorem State.load_cases (s : State) (offset : Nat) (bytes : List Byte) :
    (offset + bytes.length ≤ Config.memSize ∧ ∃ m, Memory.writeBytes s.mem offset bytes = some m ∧
      s.load offset bytes = some (s.setMem m)) ∨
    (Config.memSize < offset + bytes.length ∧ s.load offset bytes = none) := by
  by_cases h : offset + bytes.length ≤ Config.memSize
  · left
    obtain ⟨m, hm⟩ := Option.isSome_iff_exists.mp (Memory.writeBytes_isSome s.mem offset bytes (.inr h))
    exact ⟨h, m, hm, by simp [State.load, hm, Nat.not_lt.mpr h]⟩
  · right
    exact ⟨by omega, by simp [State.load, Nat.lt_of_not_le h]⟩

/-- Everything a load event can be (R69, R72, R343). -/
theorem loadEvent_cases (offset : Nat) (bytes : List Byte) (s : State) :
    (s.stage = .started ∧ loadEvent offset bytes s = .fault .loadAfterStart) ∨
    (s.stage ≠ .started ∧ offset + bytes.length ≤ Config.memSize ∧ s.loadReply offset bytes = .ok ∧
      ∃ m, Memory.writeBytes s.mem offset bytes = some m ∧
        loadEvent offset bytes s = .next ((s.setMem m).setStage .loading)) ∨
    (s.stage ≠ .started ∧ Config.memSize < offset + bytes.length ∧ s.loadReply offset bytes = .outOfRange ∧
      loadEvent offset bytes s = .next (s.setStage .loadFailed)) := by
  by_cases hg : s.stage = .started
  · exact .inl ⟨hg, by simp only [loadEvent, hg]⟩
  · have he : loadEvent offset bytes s = .next (s.hostLoad offset bytes) := by
      unfold loadEvent
      split <;> first | rfl | contradiction
    rcases s.load_cases offset bytes with ⟨h, m, hm, hl⟩ | ⟨h, hl⟩
    · exact .inr (.inl ⟨hg, h, by simp [State.loadReply, hl], m, hm, by simp only [he, State.hostLoad, hl]⟩)
    · exact .inr (.inr ⟨hg, h, by simp [State.loadReply, hl], by simp only [he, State.hostLoad, hl]⟩)

/-! ## Key events -/

/-- What a key-down does: it completes a wait if the key was up, else it only records the level (R266, R316). -/
theorem State.pressKey_cases (s : State) (k : Fin Config.numKeys) :
    (∃ x, s.run = .awaitingKey x ∧ s.keyDown? k = false ∧
      s.pressKey k = (((s.setKey k true).setV x (BitVec.ofNat 8 k.val)).advance).setRun .running) ∨
    (∃ x, s.run = .awaitingKey x ∧ s.keyDown? k = true ∧ s.pressKey k = s) ∨
    ((∀ x, s.run ≠ .awaitingKey x) ∧ s.pressKey k = s.setKey k true) := by
  unfold State.pressKey
  split
  · rename_i x hx
    by_cases hk : s.keyDown? k = true
    · exact .inr (.inl ⟨x, hx, hk, by simp [hk]⟩)
    · exact .inl ⟨x, hx, by simpa using hk, by simp [hk]⟩
  · rename_i h; exact .inr (.inr ⟨by simp [h], rfl⟩)
  · rename_i h; exact .inr (.inr ⟨by simp [h], rfl⟩)

/-! ## The clock -/

/-- Everything a running core's step can be (R120): a fetch fault, an unknown opcode, or an execution. -/
theorem fetchDecodeExecute_cases (s : State) :
    (s.fetchWord = none ∧ fetchDecodeExecute s = .next (s.takeFault .outOfRange none)) ∨
    (∃ w e, s.fetchWord = some w ∧ decode w = .error e ∧
      fetchDecodeExecute s = .next (s.takeFault .unknownOpcode (some w))) ∨
    (∃ w i, s.fetchWord = some w ∧ decode w = .ok i ∧ fetchDecodeExecute s = exec i s) := by
  unfold fetchDecodeExecute
  split
  · exact .inl ⟨by assumption, rfl⟩
  · split
    · exact .inr (.inl ⟨_, _, by assumption, by assumption, rfl⟩)
    · exact .inr (.inr ⟨_, _, by assumption, by assumption, rfl⟩)

/-- A running core whose load has not failed takes its step (R120). -/
theorem clockEdge_of_runs {s : State} (h : s.run = .running) (hg : s.stage ≠ .loadFailed) :
    clockEdge s = fetchDecodeExecute s.start := by
  simp only [clockEdge, h, hg, if_false]

@[simp] theorem State.fetchWord_start (s : State) : s.start.fetchWord = s.fetchWord := rfl

/-- A running core at a legal word executes its instruction (R120). -/
theorem clockEdge_of_decode {s : State} {w : Word} {i : Instr} (h : s.run = .running) (hg : s.stage ≠ .loadFailed)
    (hf : s.fetchWord = some w) (hd : decode w = .ok i) : clockEdge s = exec i s.start := by
  simp only [clockEdge_of_runs h hg, fetchDecodeExecute, State.fetchWord_start, hf, hd]

/-- A run whose load failed does not start (R343). -/
theorem clockEdge_of_loadFailed {s : State} (hg : s.stage = .loadFailed) : clockEdge s = .next s := by
  unfold clockEdge
  split
  · exact if_pos hg
  · rfl
  · rfl

/-- Everything a tick of the instruction clock can be. -/
theorem clockEdge_cases (s : State) :
    (s.run = .running ∧ s.stage ≠ .loadFailed ∧ clockEdge s = fetchDecodeExecute s.start) ∨
    ((s.run ≠ .running ∨ s.stage = .loadFailed) ∧ clockEdge s = .next s) := by
  by_cases hr : s.run = .running
  · by_cases hg : s.stage = .loadFailed
    · exact .inr ⟨.inr hg, clockEdge_of_loadFailed hg⟩
    · exact .inl ⟨hr, hg, clockEdge_of_runs hr hg⟩
  · refine .inr ⟨.inl hr, ?_⟩
    unfold clockEdge
    split <;> simp_all

theorem clockEdge_of_not_running {s : State} (h : s.run ≠ .running) : clockEdge s = .next s := by
  rcases clockEdge_cases s with ⟨hr, -⟩ | ⟨-, hs⟩
  · exact absurd hr h
  · exact hs

/-- Everything the next event can be (log 1). -/
theorem nextEvent_cases (s : State) :
    (s.inputs = [] ∧ nextEvent s = clockEdge s) ∨
    (s.inputs = [] ∧ ∃ kind word p, s.run = .faulted kind word p ∧ nextEvent s = .fault (.halted kind word p)) ∨
    (∃ e rest, s.inputs = e :: rest ∧ nextEvent s = deliver e (s.setInputs rest)) := by
  unfold nextEvent
  split
  · rename_i h
    unfold runAlone
    split
    · rename_i hr; exact .inr (.inl ⟨h, _, _, _, hr, rfl⟩)
    · exact .inl ⟨h, rfl⟩
    · exact .inl ⟨h, rfl⟩
  · rename_i h; exact .inr (.inr ⟨_, _, h, rfl⟩)

end Sys2Proof.Machine
end

