-- ==== Sys2Proof/Laws/Exec.lean ====
section
/-! SUPPORT. What the execution of any instruction can be: the fault the table of R301 names, or a next state that
runs on. -/

namespace Sys2Proof.Machine

open Sys2Proof

/-! ## Timers -/

/-- A tick's new value as a number (R309). -/
theorem toNat_tickValue (b : TimerValue) : (tickValue b).toNat = b.toNat - 1 := by
  by_cases h : b = 0
  · simp [h, tickValue]
  · have h0 : b.toNat ≠ 0 := fun e => h (BitVec.eq_of_toNat_eq (by simpa using e))
    have := b.isLt
    simp only [tickValue, h, if_false]
    rw [BitVec.toNat_sub]
    simp only [Config.timerWidth] at *
    simp
    omega

/-! ## Transfers at I -/

theorem storeAtI_of_fits (word : Word) (bytes : List Byte) (s : State)
    (h : s.i.toNat + bytes.length ≤ Config.memSize) :
    ∃ m, Memory.writeBytes s.mem (s.effAddr 0) bytes = some m ∧
      storeAtI word bytes s = .next (s.setMem m).advance := by
  rcases storeAtI_cases word bytes s with hs | ⟨hn, -⟩
  · exact hs
  · have := Memory.writeBytes_isSome s.mem (s.effAddr 0) bytes (.inr (by simpa [State.effAddr] using h))
    simp [hn] at this

theorem storeAtI_of_not_fits (word : Word) (bytes : List Byte) (s : State) (hb : bytes ≠ [])
    (h : Config.memSize < s.i.toNat + bytes.length) :
    storeAtI word bytes s = .next (s.takeFault .outOfRange (some word)) := by
  rcases storeAtI_cases word bytes s with ⟨m, hm, -⟩ | ⟨-, hs⟩
  · have := Memory.writeBytes_eq_none s.mem (s.effAddr 0) bytes ⟨hb, by simpa [State.effAddr] using h⟩
    simp [hm] at this
  · exact hs

/-! ## Execution -/

/-- What an execution can be: the fault of R301's table with the instruction's own word, or a next state in the
same run state (FX0A: waiting), with the same pending events. -/
def ExecAnswer (i : Instr) (s : State) : Prop :=
  (∃ kind, execFault i s = some kind ∧ exec i s = .next (s.takeFault kind (some (encode i)))) ∨
  (execFault i s = none ∧ ∃ t, exec i s = .next t ∧ t.inputs = s.inputs ∧
    (t.run = s.run ∨ ∃ x, i = .ldKey x ∧ t.run = .awaitingKey x))

theorem ExecAnswer.of_next {i : Instr} {s : State} (t : State) (hf : execFault i s = none)
    (he : exec i s = .next t) (hi : t.inputs = s.inputs) (hr : t.run = s.run) : ExecAnswer i s :=
  .inr ⟨hf, t, he, hi, .inl hr⟩

theorem execAnswer_ret (k : Nibble) (s : State) : ExecAnswer (.ret k) s := by
  by_cases h : s.sp.val = 0
  · exact .inl ⟨_, if_pos h, by simp only [exec, execRet, State.pop_of_empty s h, raise]⟩
  · have hl := s.sp.isLt
    simp only [Config.stackDepth] at hl
    refine .of_next _ (if_neg h) (by
      simp only [exec, execRet, State.pop_of_succ s (s.sp.val - 1) (show s.sp.val - 1 < 16 by omega) (by omega)]
      rfl) ?_ ?_ <;> rfl

theorem execAnswer_call (nnn : Addr12) (s : State) : ExecAnswer (.call nnn) s := by
  by_cases h : s.sp.val = 16
  · exact .inl ⟨_, if_pos h, by simp only [exec, execCall, State.push_of_full s _ h, raise]⟩
  · have hl := s.sp.isLt
    simp only [Config.stackDepth] at hl
    refine .of_next _ (if_neg h) (by
      simp only [exec, execCall, State.push_of_lt s _ (show s.sp.val < 16 by omega)]; rfl) ?_ ?_ <;> rfl

theorem execAnswer_drw (x y : Reg) (n : Nat) (s : State) : ExecAnswer (.drw x y n) s := by
  have hb := Memory.readBytes_eq s.mem (s.effAddr 0) n
  by_cases h : n ≥ 1 ∧ s.i.toNat + n - 1 ≥ 4096
  · rw [if_neg (by simp only [State.effAddr, Config.memSize]; omega)] at hb
    exact .inl ⟨_, if_pos h, by simp only [exec, execDrw, hb, raise]⟩
  · rw [if_pos (by simp only [State.effAddr, Config.memSize]; omega)] at hb
    refine .of_next _ (if_neg h) (by simp only [exec, execDrw, hb]; rfl) ?_ ?_ <;> rfl

theorem execAnswer_loadRegs (x : Reg) (s : State) : ExecAnswer (.loadRegs x) s := by
  have hb := Memory.readBytes_eq s.mem (s.effAddr 0) (x.val + 1)
  by_cases h : s.i.toNat + x.val ≥ 4096
  · rw [if_neg (by simp only [State.effAddr, Config.memSize]; omega)] at hb
    exact .inl ⟨_, if_pos h, by simp only [exec, execLoadRegs, hb, raise]⟩
  · rw [if_pos (by simp only [State.effAddr, Config.memSize]; omega)] at hb
    refine .of_next _ (if_neg h) (by simp only [exec, execLoadRegs, hb]; rfl) ?_ ?_ <;> rfl

theorem execAnswer_ldB (x : Reg) (s : State) : ExecAnswer (.ldB x) s := by
  by_cases h : s.i.toNat + 2 ≥ 4096
  · exact .inl ⟨_, if_pos h, storeAtI_of_not_fits _ _ s (by simp [bcdDigits]) (by
      simp only [length_bcdDigits, Config.memSize]; omega)⟩
  · obtain ⟨m, -, he⟩ := storeAtI_of_fits (encode (.ldB x)) (bcdDigits (s.getV x)) s (by
      simp only [length_bcdDigits, Config.memSize]; omega)
    exact .of_next _ (if_neg h) he rfl rfl

theorem execAnswer_storeRegs (x : Reg) (s : State) : ExecAnswer (.storeRegs x) s := by
  have hl := s.length_regBytes x
  by_cases h : s.i.toNat + x.val ≥ 4096
  · exact .inl ⟨_, if_pos h, storeAtI_of_not_fits _ _ s (by intro e; simp [e] at hl) (by
      simp only [hl, Config.memSize]; omega)⟩
  · obtain ⟨m, -, he⟩ := storeAtI_of_fits (encode (.storeRegs x)) (s.regBytes x) s (by
      simp only [hl, Config.memSize]; omega)
    exact .of_next _ (if_neg h) he rfl rfl

theorem execAnswer_skp (x : Reg) (s : State) : ExecAnswer (.skp x) s := by
  by_cases h : (s.getV x).toNat > 0xF
  · exact .inl ⟨_, if_pos h, by simp only [exec, execSkp, s.keyOperand_of_gt x h, raise]⟩
  · refine .of_next _ (if_neg h) (by simp only [exec, execSkp, s.keyOperand_of_le x (by omega)]; rfl) ?_ ?_ <;> rfl

theorem execAnswer_sknp (x : Reg) (s : State) : ExecAnswer (.sknp x) s := by
  by_cases h : (s.getV x).toNat > 0xF
  · exact .inl ⟨_, if_pos h, by simp only [exec, execSknp, s.keyOperand_of_gt x h, raise]⟩
  · refine .of_next _ (if_neg h) (by simp only [exec, execSknp, s.keyOperand_of_le x (by omega)]; rfl) ?_ ?_ <;> rfl

theorem execAnswer_ldF (x : Reg) (s : State) : ExecAnswer (.ldF x) s := by
  by_cases h : (s.getV x).toNat > 0xF
  · exact .inl ⟨_, if_pos h, by simp only [exec, execLdF, s.digitOperand_of_gt x h, raise]⟩
  · refine .of_next _ (if_neg h) (by simp only [exec, execLdF, s.digitOperand_of_le x (by omega)]; rfl) ?_ ?_ <;> rfl

/-- Every instruction's execution answers a next state (R120, R301): no stop and no refusal. -/
theorem exec_answer (i : Instr) (s : State) : ExecAnswer i s := by
  cases i with
  | ret k => exact execAnswer_ret k s
  | call nnn => exact execAnswer_call nnn s
  | drw x y n => exact execAnswer_drw x y n s
  | loadRegs x => exact execAnswer_loadRegs x s
  | ldB x => exact execAnswer_ldB x s
  | storeRegs x => exact execAnswer_storeRegs x s
  | skp x => exact execAnswer_skp x s
  | sknp x => exact execAnswer_sknp x s
  | ldF x => exact execAnswer_ldF x s
  | ldKey x => exact .inr ⟨rfl, _, rfl, rfl, .inr ⟨x, rfl, rfl⟩⟩
  | cls _ | jp _ | seByte _ _ | sneByte _ _ | seReg _ _ | ldByte _ _ | addByte _ _ | ldReg _ _ | orReg _ _
  | andReg _ _ | xorReg _ _ | addReg _ _ | subReg _ _ | shr _ _ | subnReg _ _ | shl _ _ | sneReg _ _ | ldI _
  | jpV0 _ | rnd _ _ | ldFromDt _ | ldDt _ | ldSt _ | addI _ => exact .of_next _ rfl rfl rfl rfl

end Sys2Proof.Machine
end

