-- ==== Sys2Proof/Laws/PerInstr.lean ====
section
/-! SUPPORT. The family EncodedRow: the word of a well-formed instruction is one that the mask and match of its
own row of the opcode map select (30_encoding.md section 4). One lemma per constructor. -/

namespace Sys2Proof.Laws.EncodedRow

open Sys2Proof

/-- The word of a well-formed instruction is selected by the instruction's row. -/
def Statement (i : Instr) : Prop := i.WellFormed → i.row.selects (encode i) = true

/-- A row that masks the family alone selects every word of its family. -/
theorem selects_family {f a v : Nat} {m : String} (hf : f < 16) (ha : a < 4096) (hv : v = f * 4096) :
    (OpcodeRow.mk m (BitVec.ofNat 16 v) 0xF000).selects (wordA f a) = true := by
  subst hv
  simp only [OpcodeRow.selects, beq_iff_eq]
  rw [← BitVec.toNat_inj, toNat_and_F000, toNat_wordA hf ha, BitVec.toNat_ofNat]
  omega

/-- The same for a word of a register and a byte. -/
theorem selects_familyXB {f x b v : Nat} {m : String} (hf : f < 16) (hx : x < 16) (hb : b < 256)
    (hv : v = f * 4096) : (OpcodeRow.mk m (BitVec.ofNat 16 v) 0xF000).selects (wordXB f x b) = true := by
  subst hv
  simp only [OpcodeRow.selects, beq_iff_eq]
  rw [← BitVec.toNat_inj, toNat_and_F000, toNat_wordXB hf hx hb, BitVec.toNat_ofNat]
  omega

/-- The same for a word of two registers and a nibble. -/
theorem selects_familyXYN {f x y n v : Nat} {m : String} (hf : f < 16) (hx : x < 16) (hy : y < 16) (hn : n < 16)
    (hv : v = f * 4096) : (OpcodeRow.mk m (BitVec.ofNat 16 v) 0xF000).selects (word4 f x y n) = true := by
  subst hv
  simp only [OpcodeRow.selects, beq_iff_eq]
  rw [← BitVec.toNat_inj, toNat_and_F000, toNat_word4 hf hx hy hn, BitVec.toNat_ofNat]
  omega

/-- A row that masks family and low byte selects the words with its low byte. -/
theorem selects_lowByte {f x b v : Nat} {m : String} (hf : f < 16) (hx : x < 16) (hb : b < 256)
    (hv : v = f * 4096 + b) : (OpcodeRow.mk m (BitVec.ofNat 16 v) 0xF0FF).selects (wordXB f x b) = true := by
  subst hv
  simp only [OpcodeRow.selects, beq_iff_eq]
  rw [← BitVec.toNat_inj, toNat_and_F0FF, toNat_wordXB hf hx hb, BitVec.toNat_ofNat]
  omega

/-- A row that masks family and low nibble selects the words with its low nibble. -/
theorem selects_lowNibble {f x y n v : Nat} {m : String} (hf : f < 16) (hx : x < 16) (hy : y < 16) (hn : n < 16)
    (hv : v = f * 4096 + n) : (OpcodeRow.mk m (BitVec.ofNat 16 v) 0xF00F).selects (word4 f x y n) = true := by
  subst hv
  simp only [OpcodeRow.selects, beq_iff_eq]
  rw [← BitVec.toNat_inj, toNat_and_F00F, toNat_word4 hf hx hy hn, BitVec.toNat_ofNat]
  omega

theorem cls (ignored : Nibble) : Statement (.cls ignored) := fun _ =>
  selects_lowByte (by decide) ignored.isLt (by decide) rfl

theorem ret (ignored : Nibble) : Statement (.ret ignored) := fun _ =>
  selects_lowByte (by decide) ignored.isLt (by decide) rfl

theorem jp (nnn : Addr12) : Statement (.jp nnn) := fun _ =>
  selects_family (by decide) nnn.isLt rfl

theorem call (nnn : Addr12) : Statement (.call nnn) := fun _ =>
  selects_family (by decide) nnn.isLt rfl

theorem seByte (x : Reg) (nn : Byte) : Statement (.seByte x nn) := fun _ =>
  selects_familyXB (by decide) x.isLt nn.isLt rfl

theorem sneByte (x : Reg) (nn : Byte) : Statement (.sneByte x nn) := fun _ =>
  selects_familyXB (by decide) x.isLt nn.isLt rfl

theorem seReg (x y : Reg) : Statement (.seReg x y) := fun _ =>
  selects_lowNibble (by decide) x.isLt y.isLt (by decide) rfl

theorem ldByte (x : Reg) (nn : Byte) : Statement (.ldByte x nn) := fun _ =>
  selects_familyXB (by decide) x.isLt nn.isLt rfl

theorem addByte (x : Reg) (nn : Byte) : Statement (.addByte x nn) := fun _ =>
  selects_familyXB (by decide) x.isLt nn.isLt rfl

theorem ldReg (x y : Reg) : Statement (.ldReg x y) := fun _ =>
  selects_lowNibble (by decide) x.isLt y.isLt (by decide) rfl

theorem orReg (x y : Reg) : Statement (.orReg x y) := fun _ =>
  selects_lowNibble (by decide) x.isLt y.isLt (by decide) rfl

theorem andReg (x y : Reg) : Statement (.andReg x y) := fun _ =>
  selects_lowNibble (by decide) x.isLt y.isLt (by decide) rfl

theorem xorReg (x y : Reg) : Statement (.xorReg x y) := fun _ =>
  selects_lowNibble (by decide) x.isLt y.isLt (by decide) rfl

theorem addReg (x y : Reg) : Statement (.addReg x y) := fun _ =>
  selects_lowNibble (by decide) x.isLt y.isLt (by decide) rfl

theorem subReg (x y : Reg) : Statement (.subReg x y) := fun _ =>
  selects_lowNibble (by decide) x.isLt y.isLt (by decide) rfl

theorem shr (x : Reg) (ignored : Nibble) : Statement (.shr x ignored) := fun _ =>
  selects_lowNibble (by decide) x.isLt ignored.isLt (by decide) rfl

theorem subnReg (x y : Reg) : Statement (.subnReg x y) := fun _ =>
  selects_lowNibble (by decide) x.isLt y.isLt (by decide) rfl

theorem shl (x : Reg) (ignored : Nibble) : Statement (.shl x ignored) := fun _ =>
  selects_lowNibble (by decide) x.isLt ignored.isLt (by decide) rfl

theorem sneReg (x y : Reg) : Statement (.sneReg x y) := fun _ =>
  selects_lowNibble (by decide) x.isLt y.isLt (by decide) rfl

theorem ldI (nnn : Addr12) : Statement (.ldI nnn) := fun _ =>
  selects_family (by decide) nnn.isLt rfl

theorem jpV0 (nnn : Addr12) : Statement (.jpV0 nnn) := fun _ =>
  selects_family (by decide) nnn.isLt rfl

theorem rnd (x : Reg) (nn : Byte) : Statement (.rnd x nn) := fun _ =>
  selects_familyXB (by decide) x.isLt nn.isLt rfl

theorem drw (x y : Reg) (n : Nat) : Statement (.drw x y n) := fun h =>
  selects_familyXYN (by decide) x.isLt y.isLt
    (Nat.lt_succ_of_le (of_decide_eq_true h)) rfl

theorem skp (x : Reg) : Statement (.skp x) := fun _ =>
  selects_lowByte (by decide) x.isLt (by decide) rfl

theorem sknp (x : Reg) : Statement (.sknp x) := fun _ =>
  selects_lowByte (by decide) x.isLt (by decide) rfl

theorem ldFromDt (x : Reg) : Statement (.ldFromDt x) := fun _ =>
  selects_lowByte (by decide) x.isLt (by decide) rfl

theorem ldKey (x : Reg) : Statement (.ldKey x) := fun _ =>
  selects_lowByte (by decide) x.isLt (by decide) rfl

theorem ldDt (x : Reg) : Statement (.ldDt x) := fun _ =>
  selects_lowByte (by decide) x.isLt (by decide) rfl

theorem ldSt (x : Reg) : Statement (.ldSt x) := fun _ =>
  selects_lowByte (by decide) x.isLt (by decide) rfl

theorem addI (x : Reg) : Statement (.addI x) := fun _ =>
  selects_lowByte (by decide) x.isLt (by decide) rfl

theorem ldF (x : Reg) : Statement (.ldF x) := fun _ =>
  selects_lowByte (by decide) x.isLt (by decide) rfl

theorem ldB (x : Reg) : Statement (.ldB x) := fun _ =>
  selects_lowByte (by decide) x.isLt (by decide) rfl

theorem storeRegs (x : Reg) : Statement (.storeRegs x) := fun _ =>
  selects_lowByte (by decide) x.isLt (by decide) rfl

theorem loadRegs (x : Reg) : Statement (.loadRegs x) := fun _ =>
  selects_lowByte (by decide) x.isLt (by decide) rfl

end Sys2Proof.Laws.EncodedRow
end

