-- ==== Sys2Proof/Laws/Raster.lean ====
section
/-! SUPPORT. What one toggle and one clear do to the cells of the Raster Buffer. -/

namespace Sys2Proof.Machine

open Sys2Proof

/-- A cell after a toggle: inverted if the wrapped coordinates are the toggled ones, else as before (R230). -/
theorem Screen.cell_toggle (sc : Screen) (x y cx cy : Nat) :
    (sc.toggle x y).cell cx cy =
      if cx % Config.screenW = x % Config.screenW ∧ cy % Config.screenH = y % Config.screenH
      then !(sc.cell cx cy) else sc.cell cx cy := by
  unfold Screen.toggle
  by_cases hy : cy % Config.screenH = y % Config.screenH
  · by_cases hx : cx % Config.screenW = x % Config.screenW
    · simp [Screen.cell, hx, hy]
    · simp [Screen.cell, hx, hy, Ne.symm hx]
  · simp [Screen.cell, hy, Ne.symm hy]

/-- Coordinates wrap (R230). -/
theorem Screen.cell_mod (sc : Screen) (x y : Nat) :
    sc.cell (x % Config.screenW) (y % Config.screenH) = sc.cell x y := by
  simp [Screen.cell]

/-- Clear zeroes every cell (R231). -/
@[simp] theorem Screen.cell_blank (x y : Nat) : Screen.blank.cell x y = false := by
  simp [Screen.cell, Screen.blank]

end Sys2Proof.Machine
end

