-- ==== Sys2Proof/Tests/Slice0.lean ====
section
/-! SUPPORT. The tests: the refusals of WellFormed, the decoding of every constructor, one step of each
instruction, and a witness for the hypotheses of each obligation. Words are written out from the formats of
30_encoding.md; expected values are those of 95_test_vectors.md, cited by section and rule. -/

namespace Sys2Proof.Tests

open Sys2Proof Sys2Proof.Machine

/-! ## WellFormed: the one check, and what it refuses -/

theorem test_wellFormed_refuses_drw_16_rows : (Instr.drw 0 1 16).wellFormed = false := by decide
theorem test_wellFormed_accepts_drw_15_rows : (Instr.drw 0 1 15).wellFormed = true := by decide

/-! ## Decoding: one word of each constructor, bit by bit -/

theorem test_decode_cls : decode 0b0000_0011_1110_0000 = .ok (.cls 3) := by decide
theorem test_decode_ret : decode 0b0000_1111_1110_1110 = .ok (.ret 15) := by decide
theorem test_decode_jp : decode 0b0001_0010_0011_0100 = .ok (.jp 0x234) := by decide
theorem test_decode_call : decode 0b0010_0011_0000_0001 = .ok (.call 0x301) := by decide
theorem test_decode_seByte : decode 0b0011_0011_0010_1010 = .ok (.seByte 3 0x2A) := by decide
theorem test_decode_sneByte : decode 0b0100_0011_0010_1010 = .ok (.sneByte 3 0x2A) := by decide
theorem test_decode_seReg : decode 0b0101_0001_0010_0000 = .ok (.seReg 1 2) := by decide
theorem test_decode_ldByte : decode 0b0110_1010_0111_1111 = .ok (.ldByte 10 0x7F) := by decide
theorem test_decode_addByte : decode 0b0111_0010_0000_0001 = .ok (.addByte 2 0x01) := by decide
theorem test_decode_ldReg : decode 0b1000_0001_0101_0000 = .ok (.ldReg 1 5) := by decide
theorem test_decode_orReg : decode 0b1000_0001_0101_0001 = .ok (.orReg 1 5) := by decide
theorem test_decode_andReg : decode 0b1000_0001_0101_0010 = .ok (.andReg 1 5) := by decide
theorem test_decode_xorReg : decode 0b1000_0001_0101_0011 = .ok (.xorReg 1 5) := by decide
theorem test_decode_addReg : decode 0b1000_0001_0101_0100 = .ok (.addReg 1 5) := by decide
theorem test_decode_subReg : decode 0b1000_0001_0101_0101 = .ok (.subReg 1 5) := by decide
theorem test_decode_shr : decode 0b1000_0001_0101_0110 = .ok (.shr 1 5) := by decide
theorem test_decode_subnReg : decode 0b1000_0001_0101_0111 = .ok (.subnReg 1 5) := by decide
theorem test_decode_shl : decode 0b1000_0001_0010_1110 = .ok (.shl 1 2) := by decide
theorem test_decode_sneReg : decode 0b1001_0001_0010_0000 = .ok (.sneReg 1 2) := by decide
theorem test_decode_ldI : decode 0b1010_1111_1111_1110 = .ok (.ldI 0xFFE) := by decide
theorem test_decode_jpV0 : decode 0b1011_0011_0000_0001 = .ok (.jpV0 0x301) := by decide
theorem test_decode_rnd : decode 0b1100_0011_0000_1111 = .ok (.rnd 3 0x0F) := by decide
theorem test_decode_drw : decode 0b1101_0000_0001_0101 = .ok (.drw 0 1 5) := by decide
theorem test_decode_skp : decode 0b1110_0010_1001_1110 = .ok (.skp 2) := by decide
theorem test_decode_sknp : decode 0b1110_0010_1010_0001 = .ok (.sknp 2) := by decide
theorem test_decode_ldFromDt : decode 0b1111_0011_0000_0111 = .ok (.ldFromDt 3) := by decide
theorem test_decode_ldKey : decode 0b1111_0101_0000_1010 = .ok (.ldKey 5) := by decide
theorem test_decode_ldDt : decode 0b1111_0011_0001_0101 = .ok (.ldDt 3) := by decide
theorem test_decode_ldSt : decode 0b1111_0011_0001_1000 = .ok (.ldSt 3) := by decide
theorem test_decode_addI : decode 0b1111_0010_0001_1110 = .ok (.addI 2) := by decide
theorem test_decode_ldF : decode 0b1111_0001_0010_1001 = .ok (.ldF 1) := by decide
theorem test_decode_ldB : decode 0b1111_0100_0011_0011 = .ok (.ldB 4) := by decide
theorem test_decode_storeRegs : decode 0b1111_0110_0101_0101 = .ok (.storeRegs 6) := by decide
theorem test_decode_loadRegs : decode 0b1111_1111_0110_0101 = .ok (.loadRegs 15) := by decide

/-- The illegal words of 95_test_vectors.md 2.1. -/
theorem test_decode_illegal :
    [0x0000, 0x0123, 0x00FF, 0x5121, 0x8008, 0x800D, 0x800F, 0x9001, 0xE09F, 0xF000, 0xFFFF].all
      (fun w => decide (decode w = .error (.unknownOpcode w))) = true := by decide

/-- Memory order: the byte at the lower address is the high byte (R64), and the rest of the bytes is kept. -/
theorem test_decodeBytes_order : decodeBytes [0xA3, 0x01, 0x55] = .ok (.ldI 0x301, [0x55]) := by decide
theorem test_decodeBytes_truncated : decodeBytes [0xA3] = .error .truncated := by decide

/-! ## One step -/

/-- Whether the step that runs word `w` from `s` answers a next state with the property. -/
def after (s : State) (w : Nat) (p : State → Bool) : Bool :=
  match step (s.withFetchWord 16 w) with
  | .next t => p t
  | .fault _ => false
  | .refused _ => false

/-- Whether an event from `s` answers a next state with the property. -/
def afterEvent (e : Input) (s : State) (p : State → Bool) : Bool :=
  match step (s.setInputs [e]) with
  | .next t => p t
  | .fault _ => false
  | .refused _ => false

/-- The reset state with V0, V1 and VF given. -/
def regs (v0 v1 vf : Byte) : State := ((State.reset.setV 0 v0).setV 1 v1).setV 15 vf

/-- The same with I given and two bytes at 0x300. -/
def atI (i : Word) (v0 v1 b0 b1 : Byte) : State :=
  ((regs v0 v1 5).setI i).setMem (Memory.poke (Memory.poke [] 0x300 b0) 0x301 b1)

/-- V0, VF and PC after a step. -/
def v0f (a f : Byte) (t : State) : Bool := t.getV 0 == a && t.getV 15 == f && t.pc == 0x202

-- 2.3 control flow
theorem test_jp : after State.reset 0x1FFF (fun t => t.pc == 0xFFF) = true := by decide
theorem test_jp_odd : after State.reset 0x1301 (fun t => t.pc == 0x301) = true := by decide
theorem test_call_top_of_memory :
    after (State.reset.setPc 0xFFE) 0x2300 (fun t => t.stack[0] == 0x1000 && t.sp == 1 && t.pc == 0x300) = true := by
  decide
theorem test_call_full_stack :
    after (State.reset.setSp 16) 0x2300 (fun t => t.run == .faulted .stackOverflow (some 0x2300) 0x200) = true := by
  decide
theorem test_ret :
    after ((State.reset.setEntry 0 0x204).setSp 1) 0x00EE (fun t => t.sp == 0 && t.pc == 0x204) = true := by decide
theorem test_ret_empty_stack :
    after State.reset 0x00EE (fun t => t.run == .faulted .stackUnderflow (some 0x00EE) 0x200) = true := by decide
theorem test_seByte_taken : after (State.reset.setV 3 0x2A) 0x332A (fun t => t.pc == 0x204) = true := by decide
theorem test_seByte_not_taken : after (State.reset.setV 3 0x2B) 0x332A (fun t => t.pc == 0x202) = true := by decide
theorem test_sneByte_not_taken : after (State.reset.setV 3 0x2A) 0x432A (fun t => t.pc == 0x202) = true := by decide
theorem test_sneByte_taken : after State.reset 0x432A (fun t => t.pc == 0x204) = true := by decide
theorem test_seReg_taken :
    after ((State.reset.setV 1 7).setV 2 7) 0x5120 (fun t => t.pc == 0x204) = true := by decide
theorem test_seReg_not_taken :
    after ((State.reset.setV 1 7).setV 2 8) 0x5120 (fun t => t.pc == 0x202) = true := by decide
theorem test_sneReg_taken :
    after ((State.reset.setV 1 7).setV 2 8) 0x9120 (fun t => t.pc == 0x204) = true := by decide
theorem test_sneReg_same : after State.reset 0x9110 (fun t => t.pc == 0x202) = true := by decide
theorem test_jpV0_above_memory : after (regs 0xFF 0 0) 0xBFFF (fun t => t.pc == 0x10FE) = true := by decide
theorem test_jpV0 : after (regs 0x10 0 0) 0xB300 (fun t => t.pc == 0x310) = true := by decide

-- 2.2 ALU
theorem test_ldByte : after State.reset 0x6A7F (fun t => t.getV 10 == 0x7F && t.pc == 0x202) = true := by decide
theorem test_addByte_no_flag :
    after ((regs 0 0 0x55).setV 2 0xFF) 0x7201 (fun t => t.getV 2 == 0 && t.getV 15 == 0x55) = true := by decide
theorem test_ldReg : after (State.reset.setV 5 0x33) 0x8150 (fun t => t.getV 1 == 0x33) = true := by decide
theorem test_orReg_no_flag : after (regs 0xF0 0x0F 0x07) 0x8011 (v0f 0xFF 0x07) = true := by decide
theorem test_andReg : after (regs 0xF0 0x3C 0x07) 0x8012 (v0f 0x30 0x07) = true := by decide
theorem test_xorReg_same : after (regs 0x5A 0 0x07) 0x8003 (v0f 0x00 0x07) = true := by decide
theorem test_addReg_carry : after (regs 0x80 0x80 0) 0x8014 (v0f 0x00 1) = true := by decide
theorem test_addReg_vf_keeps_flag : after (regs 0 0 0x90) 0x8FF4 (fun t => t.getV 15 == 1) = true := by decide
theorem test_subReg_borrow : after (regs 3 5 1) 0x8015 (v0f 0xFE 0) = true := by decide
theorem test_subReg_equal : after (regs 5 5 1) 0x8015 (v0f 0x00 0) = true := by decide
theorem test_subnReg : after (regs 3 0x0A 0) 0x8017 (v0f 0x07 1) = true := by decide
theorem test_subnReg_borrow : after (regs 5 3 1) 0x8017 (v0f 0xFE 0) = true := by decide
theorem test_shr_ignores_y :
    after ((State.reset.setV 4 2).setV 5 0xFF) 0x8456 (fun t => t.getV 4 == 1 && t.getV 15 == 0) = true := by decide
theorem test_shr_vf_keeps_flag : after (regs 0 0 3) 0x8FF6 (fun t => t.getV 15 == 1) = true := by decide
theorem test_shl_raw_flag :
    after (State.reset.setV 4 0xFF) 0x840E (fun t => t.getV 4 == 0xFE && t.getV 15 == 0x80) = true := by decide
theorem test_shl_vf_keeps_flag : after (regs 0 0 0x81) 0x8FFE (fun t => t.getV 15 == 0x80) = true := by decide
/-- R174 with the draw 0xB7. -/
theorem test_rnd_with_draw : (rndWith 0xB7 3 0x0F State.reset).getV 3 = 0x07 := by decide
/-- R174 with any draw: the mask 0 gives 0, and the step counts the draw. -/
theorem test_rnd_step_counts_draw : after State.reset 0xC300 (fun t => t.draws == 1 && t.pc == 0x202) = true := by
  decide

-- 2.4 index and memory
theorem test_ldI : after State.reset 0xAFFF (fun t => t.i == 0x0FFF) = true := by decide
theorem test_addI_wraps : after ((State.reset.setI 0xFFFF).setV 2 1) 0xF21E (fun t => t.i == 0) = true := by decide
theorem test_addI_no_flag :
    after (((regs 0 0 9).setI 0xFFF).setV 2 1) 0xF21E (fun t => t.i == 0x1000 && t.getV 15 == 9) = true := by decide
theorem test_ldF : after (regs 0 0x0F 0) 0xF129 (fun t => t.i == 0x004B) = true := by decide
theorem test_ldF_above_F :
    after (regs 0 0x10 0) 0xF129 (fun t => t.run == .faulted .unmodelledOperand (some 0xF129) 0x200) = true := by
  decide
theorem test_ldB : after (atI 0xFFD 255 0 0 0) 0xF033
    (fun t => t.byteAt 0xFFD == 2 && t.byteAt 0xFFE == 5 && t.byteAt 0xFFF == 5) = true := by decide
theorem test_ldB_out_of_range :
    after (atI 0xFFE 255 0 0 0) 0xF033 (fun t => t.run == .faulted .outOfRange (some 0xF033) 0x200) = true := by
  decide
theorem test_storeRegs : after (atI 0x300 1 2 0 0) 0xF155
    (fun t => t.byteAt 0x300 == 1 && t.byteAt 0x301 == 2 && t.byteAt 0x302 == 0 && t.i == 0x300) = true := by decide
theorem test_storeRegs_out_of_range :
    after (atI 0xFF1 0 0 0 0) 0xFF55 (fun t => t.run == .faulted .outOfRange (some 0xFF55) 0x200) = true := by decide
theorem test_loadRegs : after (atI 0x300 0 0 7 9) 0xF165
    (fun t => t.getV 0 == 7 && t.getV 1 == 9 && t.getV 2 == 0 && t.i == 0x300) = true := by decide
theorem test_loadRegs_into_vf :
    after ((atI 0x300 0 0 0 0).setMem (Memory.poke [] 0x30F 0xAB)) 0xFF65 (fun t => t.getV 15 == 0xAB) = true := by
  decide

-- 2.5 raster: D-R1, D-R3 and D-R7
theorem test_cls : after (State.reset.setScreen (Screen.blank.toggle 63 31)) 0x00E0
    (fun t => !(t.screen.cell 63 31) && t.pc == 0x202) = true := by decide
theorem test_drw_wraps : after (atI 0x300 0x3F 0 0xC0 0) 0xD011
    (fun t => t.screen.cell 63 0 && t.screen.cell 0 0 && !(t.screen.cell 1 0) && t.getV 15 == 0) = true := by decide
theorem test_drw_collides : after ((atI 0x300 0 0 0xC0 0).setScreen (Screen.blank.toggle 1 0)) 0xD011
    (fun t => t.screen.cell 0 0 && !(t.screen.cell 1 0) && t.getV 15 == 1) = true := by decide

-- 2.6 timers and keypad
theorem test_ldDt : after (State.reset.setV 3 0x3C) 0xF315 (fun t => t.dt == 0x3C && t.st == 0) = true := by decide
theorem test_ldFromDt :
    after (State.reset.timerWrite .delay 0x3C) 0xF307 (fun t => t.getV 3 == 0x3C) = true := by decide
theorem test_ldSt : after (State.reset.setV 3 2) 0xF318 (fun t => t.st == 2 && t.dt == 0) = true := by decide
theorem test_skp_down :
    after ((State.reset.setV 2 5).setKey 5 true) 0xE29E (fun t => t.pc == 0x204) = true := by decide
theorem test_skp_above_F :
    after (State.reset.setV 2 0x10) 0xE29E (fun t => t.run == .faulted .unmodelledOperand (some 0xE29E) 0x200) = true := by
  decide
theorem test_sknp_up : after (State.reset.setV 2 5) 0xE2A1 (fun t => t.pc == 0x204) = true := by decide
theorem test_sknp_down :
    after ((State.reset.setV 2 5).setKey 5 true) 0xE2A1 (fun t => t.pc == 0x202) = true := by decide
theorem test_ldKey_waits : after (State.reset.setPc 0x210) 0xF50A
    (fun t => t.run == .awaitingKey 5 && t.pc == 0x210) = true := by decide

/-- The reset state, waiting for a key into V5 at 0x210. -/
def waiting : State := (State.reset.start.setPc 0x210).setRun (.awaitingKey 5)

theorem test_keyDown_completes_wait : afterEvent (.keyDown 0xB) waiting
    (fun t => t.getV 5 == 0x0B && t.pc == 0x212 && t.run == .running && t.keyDown? 0xB) = true := by decide
theorem test_keyDown_of_a_key_down_does_not : afterEvent (.keyDown 3) (waiting.setKey 3 true)
    (fun t => t == waiting.setKey 3 true) = true := by decide
theorem test_tick_at_zero : afterEvent (.tick .delay) State.reset (fun t => t.dt == 0) = true := by decide
theorem test_tick_other_timer :
    afterEvent (.tick .sound) (State.reset.timerWrite .delay 5) (fun t => t.dt == 5 && t.st == 0) = true := by decide

-- fetch and decode faults: R90, P5
theorem test_fetch_fault_at_the_end :
    afterEvent .clkInstr (State.reset.setPc 0xFFF) (fun t => t.run == .faulted .outOfRange none 0xFFF) = true := by
  decide
theorem test_unknown_opcode :
    after State.reset 0x5001 (fun t => t.run == .faulted .unknownOpcode (some 0x5001) 0x200) = true := by decide

-- load and boot: S7, R69, R72, R343
theorem test_load_too_long : afterEvent (.load 0xFFF [1, 2]) State.reset
    (fun t => t.stage == .loadFailed && t.byteAt 0xFFF == 0 && t.run == .running) = true := by decide
theorem test_load_again_after_a_failure : afterEvent (.load 0xFFE [1, 2]) (State.reset.setStage .loadFailed)
    (fun t => t.stage == .loading && t.byteAt 0xFFE == 1 && t.byteAt 0xFFF == 2) = true := by decide
theorem test_failed_load_does_not_start : afterEvent .clkInstr (State.reset.setStage .loadFailed)
    (fun t => t == State.reset.setStage .loadFailed) = true := by decide
theorem test_clock_starts_the_run : after State.reset 0x6A7F (fun t => t.stage == .started) = true := by decide
theorem test_load_after_start : (match step (State.reset.start.setInputs [.load 0x300 [1]]) with
    | .fault .loadAfterStart => true
    | _ => false) = true := by decide

/-! ## Witnesses: states and operands that meet the hypotheses of each obligation -/

/-- A faulted state. -/
def faulted : State := State.reset.start.setRun (.faulted .unknownOpcode (some 0x5001) 0x200)

theorem witness_DecodeOfEncodeIsIdentity : (Instr.drw 15 15 15).WellFormed ∧ (Instr.cls 15).WellFormed := by decide

theorem witness_EncodeOfDecodeIsIdentity : decode 0xFF65 = .ok (.loadRegs 15) := by decide

theorem witness_UnknownOpcodeExactlyOnIllegalWords :
    illegalWord 0x0000 ∧ illegalWord 0x500F ∧ illegalWord 0x800D ∧ illegalWord 0x9001 ∧ illegalWord 0xE09F ∧
      illegalWord 0xFFFF ∧ ¬ illegalWord 0x0FEE ∧ ¬ illegalWord 0x800E := by
  refine ⟨?_, ?_, ?_, ?_, ?_, ?_, ?_, ?_⟩ <;> unfold illegalWord <;> decide

theorem witness_ReadAfterWrite : Memory.wf State.reset.mem ∧ 4095 < 4096 ∧ 4096 ≤ 4096 := by decide

theorem witness_FetchIsBigEndian : (State.reset.setPc 0xFFE).memRead (State.reset.setPc 0xFFE).pc.toNat = some 0 ∧
    (State.reset.setPc 0xFFE).memRead ((State.reset.setPc 0xFFE).pc.toNat + 1) = some 0 ∧
    (State.reset.setPc 1).memRead (State.reset.setPc 1).pc.toNat = some 0x90 ∧
    (State.reset.setPc 1).memRead ((State.reset.setPc 1).pc.toNat + 1) = some 0x90 := by decide

theorem witness_LoadPlacesBytesOrReportsOutOfRange : Memory.wf State.reset.mem ∧ State.reset.stage ≠ .started ∧
    4095 + ([0xAB] : List Byte).length ≤ 4096 ∧ 4096 < 4095 + ([0xAB, 0xCD] : List Byte).length ∧
    State.reset.start.stage = .started := by decide

theorem witness_OnlyTheCoreWritesMemoryOnceStarted : State.reset.start.stage = .started ∧
    Input.keyDown 15 ≠ .clkInstr ∧ Input.keyDown 15 ≠ .reset ∧
    deliver (.keyDown 15) State.reset.start = .next (State.reset.start.setKey 15 true) :=
  ⟨rfl, by decide, by decide, rfl⟩

theorem witness_BootPlacesProgramAt0x200 :
    (List.replicate 3584 (0 : Byte)).length ≤ 3584 ∧ 3584 < (List.replicate 3585 (0 : Byte)).length := by
  simp only [List.length_replicate]; decide

theorem witness_StepRunsDecodedInstruction :
    let s := (State.reset.setPc 0x000).setMem (Memory.poke (Memory.poke [] 0 0x80) 1 0x14)
    s.Runs ∧ s.isFaulted = false ∧ s.memRead s.pc.toNat = some 0x80 ∧ s.memRead (s.pc.toNat + 1) = some 0x14 ∧
      decode (wordOfBytes 0x80 0x14) = .ok (.addReg 0 1) ∧ s.inputs = [] ∧
      (s.setInputs [.clkInstr, .reset]).inputs = .clkInstr :: [.reset] := by decide

theorem witness_PlacedWordRunsNext :
    Memory.wf State.reset.mem ∧ decodeTableWord 16 0xF065 = some (.loadRegs 0) := by decide

theorem witness_CoreFaultsExactlyPerTable : State.reset.Runs ∧ (State.reset.setPc 0xFFF).Runs ∧
    coreFault (State.reset.setPc 0xFFF) = some (.outOfRange, none) ∧
    coreFault State.reset = some (.unknownOpcode, some 0x0000) ∧
    coreFault ((State.reset.setMem (Memory.poke [] 0x201 0xEE))) = some (.stackUnderflow, some 0x00EE) ∧
    coreFault ((State.reset.setMem (Memory.poke [] 0x201 0xE0))) = none ∧
    State.reset.stage ≠ .started ∧ 4096 < 4096 + ([0] : List Byte).length := by decide

theorem witness_FaultedCoreTakesNoStep :
    faulted.run = .faulted .unknownOpcode (some 0x5001) 0x200 ∧ faulted.inputs = [] := by decide

theorem witness_OnlyResetLeavesFaulted : faulted.run = .faulted .unknownOpcode (some 0x5001) 0x200 ∧
    deliver .clkInstr faulted = .next faulted ∧ deliver .reset faulted = .next faulted.hostReset ∧
    Input.clkInstr ≠ .reset := ⟨rfl, rfl, rfl, by decide⟩

theorem witness_PcFollowsTable : State.reset.run = .running ∧ waiting.run = .awaitingKey 5 ∧
    waiting.keyDown? 15 = false := by decide

theorem witness_RetPopsReturnAddress : (0x0FEE : Word) &&& 0xF0FF = 0x00EE ∧ State.reset.sp.val = 0 ∧
    (State.reset.setSp 1).sp.val = 0 + 1 ∧ (State.reset.setSp 16).sp.val = 15 + 1 ∧
    ((State.reset.setEntry 0 0xFFF).setSp 1).Runs ∧
    0xFFF ≤ ((State.reset.setEntry 0 0xFFF).setSp 1).stack[0].toNat := by decide

theorem witness_JumpSetsPc : (0x1FFF : Word) &&& 0xF000 = 0x1000 ∧ State.reset.Runs ∧
    fieldNNN 0x1FFF = 0xFFF := by decide

theorem witness_CallPushesReturnAddress : (0x2FFF : Word) &&& 0xF000 = 0x2000 ∧
    (State.reset.setSp 16).sp.val = 16 ∧ (State.reset.setSp 15).sp.val < 16 ∧
    (0 : Fin Config.stackDepth).val ≠ (State.reset.setSp 15).sp.val := by decide

theorem witness_SkipsAdvanceByFourOrTwo : (0x3FFF : Word) &&& 0xF000 = 0x3000 ∧
    (0x4FFF : Word) &&& 0xF000 = 0x4000 ∧ (0x5FF0 : Word) &&& 0xF00F = 0x5000 ∧
    (0x9FF0 : Word) &&& 0xF00F = 0x9000 ∧ fieldF 0x5001 = 0x5 ∧ fieldN 0x5001 ≠ 0 ∧ fieldF 0x900F = 0x9 ∧
    fieldN 0x900F ≠ 0 ∧ State.reset.getV 1 = 0 ∧ State.reset.getV 1 ≠ 1 ∧
    State.reset.getV 1 = State.reset.getV 2 ∧ (regs 0 1 0).getV 1 ≠ (regs 0 1 0).getV 2 := by decide

theorem witness_CallThenReturnComesBack : (State.reset.setSp 15).sp.val < 16 := by decide

theorem witness_LoadImmediateWritesByte : (0x6FFF : Word) &&& 0xF000 = 0x6000 := by decide

theorem witness_LogicOpsWriteNoFlag : (0x8FF1 : Word) &&& 0xF00F = 0x8001 ∧
    (0x8FF2 : Word) &&& 0xF00F = 0x8002 ∧ (0x8FF3 : Word) &&& 0xF00F = 0x8003 := by decide

theorem witness_AddSetsCarry : (0x8FF4 : Word) &&& 0xF00F = 0x8004 ∧ (14 : Reg) ≠ Reg.vf := by decide

theorem witness_SubtractSetsStrictlyGreater : (0x8FF5 : Word) &&& 0xF00F = 0x8005 ∧
    (0x8FF7 : Word) &&& 0xF00F = 0x8007 ∧ (14 : Reg) ≠ Reg.vf := by decide

theorem witness_ShiftsSetShiftedOutBit : (14 : Reg) ≠ Reg.vf := by decide

theorem witness_LoadIndexWritesAddress : (0xAFFF : Word) &&& 0xF000 = 0xA000 := by decide

theorem witness_LoadFontSetsGlyphAddress :
    ((regs 0xF 0 0).getV 0).toNat ≤ 0xF ∧ 0xF < ((regs 0x10 0 0).getV 0).toNat := by decide

theorem witness_BcdStoresThreeDigits : (0xFF33 : Word) &&& 0xF0FF = 0xF033 ∧ Memory.wf (atI 0xFFD 0 0 1 1).mem ∧
    (atI 0xFFD 0 0 1 1).effAddr 2 < 4096 ∧ 4096 ≤ (atI 0xFFE 0 0 1 1).effAddr 2 := by decide

theorem witness_BulkStoreWritesRegisters : Memory.wf (atI 0xFF0 0 0 1 1).mem ∧
    (atI 0xFF0 0 0 1 1).effAddr (15 : Reg).val < 4096 ∧ (15 : Reg) ≤ 15 ∧
    4096 ≤ (atI 0xFF1 0 0 1 1).effAddr (15 : Reg).val := by decide

theorem witness_BulkLoadReadsRegisters : (atI 0xFF1 0 0 1 1).effAddr (14 : Reg).val < 4096 ∧ (14 : Reg) ≤ 14 ∧
    (14 : Reg) < 15 ∧ 4096 ≤ (atI 0xFF2 0 0 1 1).effAddr (14 : Reg).val := by decide

theorem witness_StoreIsSeenByNextFetch : Memory.wf (atI 0x202 0x12 0x34 0 0).mem ∧
    (atI 0x202 0x12 0x34 0 0).effAddr (1 : Reg).val < 4096 ∧ (1 : Reg) ≤ 1 ∧
    ((atI 0x202 0x12 0x34 0 0).pc + 2).toNat = (atI 0x202 0x12 0x34 0 0).effAddr (0 : Reg).val := by decide

theorem witness_BlitXorsEachCell : (List.replicate 15 (0x80 : Byte)).length ≤ 15 ∧
    spriteSets (List.replicate 15 0x80) 63 17 63 31 ∧ ¬ spriteSets [0x80] 63 17 62 17 := by
  refine ⟨by decide, ⟨14, 0, by decide⟩, ?_⟩
  rintro ⟨r, b, hr, hb, hs, hx, -⟩
  simp only [List.length_singleton, Nat.lt_one_iff] at hr
  subst hr
  have : b = 7 := by omega
  subst this
  exact absurd hs (by decide)

theorem witness_CollisionExactlyOnOneOverOne : (List.replicate 15 (0xFF : Byte)).length ≤ 15 ∧
    (Screen.blank.blit 0 0 [0x80]).2 = false ∧ ((Screen.blank.toggle 0 0).blit 0 0 [0x80]).2 = true ∧
    ((Screen.blank.blit 0 0 [0x80]).1.blit 0 0 [0x80]).2 = true := by decide

theorem witness_ClsZeroesEveryCell : (0x0FE0 : Word) &&& 0xF0FF = 0x00E0 := by decide

theorem witness_DrawBlitsBytesAtI : (atI 0xFFF 0 0 0 0).effAddr 1 ≤ 4096 ∧ (1 : Nat) ≠ 0 ∧
    4096 < (atI 0xFFF 0 0 0 0).effAddr 2 ∧ (0 = 0 ∨ (atI 0xFFFF 0 0 0 0).effAddr 0 ≤ 4096) := by decide

theorem witness_OutputPortsShowState : 63 < 64 ∧ 31 < 32 ∧ waiting.outputs.awaitingKey = true ∧
    faulted.outputs.fault = some (.unknownOpcode, some 0x5001, 0x200) := by decide

theorem witness_TimerTransfers : (0xFF07 : Word) &&& 0xF0FF = 0xF007 ∧ (0xFF15 : Word) &&& 0xF0FF = 0xF015 ∧
    (0xFF18 : Word) &&& 0xF0FF = 0xF018 := by decide

theorem witness_TickCountsDownToZero : (State.reset.timerWrite .delay 1).dt ≠ 0 ∧ State.reset.dt = 0 ∧
    (State.reset.timerWrite .sound 0xFF).st ≠ 0 ∧ State.reset.st = 0 := by decide

theorem witness_KeyTestsSkipByLevel :
    ((regs 0xF 0 0).getV 0).toNat = (15 : Fin Config.numKeys).val ∧ (regs 0xF 0 0).keyDown? 15 = false ∧
    ((regs 0xF 0 0).setKey 15 true).keyDown? 15 = true ∧ 0xF < ((regs 0x10 0 0).getV 0).toNat := by decide

theorem witness_KeyWaitCompletesOnNewKeyDown : waiting.run = .awaitingKey 5 ∧ waiting.keyDown? 15 = false ∧
    (waiting.setKey 3 true).run = .awaitingKey 5 ∧ (waiting.setKey 3 true).keyDown? 3 = true ∧
    (∀ k, Input.clkInstr ≠ .keyDown k) ∧ Input.clkInstr ≠ .reset ∧ deliver .clkInstr waiting = .next waiting ∧
    State.reset.run = .running :=
  ⟨rfl, by decide, rfl, by decide, by decide, by decide, rfl, rfl⟩

theorem witness_KeyWaitIsTheOnlyWait : State.reset.run = .running ∧
    exec (.ldKey 5) State.reset = .next (State.reset.setRun (.awaitingKey 5)) ∧
    waiting.run = .awaitingKey 5 ∧ waiting.stage = .started ∧
    deliver (.tick .delay) waiting = .next (waiting.tick .delay) ∧
    deliver (.keyUp 0) waiting = .next (waiting.releaseKey 0) ∧ (waiting.releaseKey 0).run = waiting.run ∧
    (Input.tick .delay).isTick = true :=
  ⟨rfl, rfl, rfl, rfl, rfl, rfl, rfl, rfl⟩

/-- A running state whose next event enters the wait. -/
theorem witness_KeyWaitIsTheOnlyWait_entered :
    let s := State.reset.setMem (Memory.poke (Memory.poke [] 0x200 0xF5) 0x201 0x0A)
    (∀ y, s.run ≠ .awaitingKey y) ∧ deliver .clkInstr s = .next (s.start.setRun (.awaitingKey 5)) :=
  ⟨by decide, rfl⟩

/-- A schedule in which the instruction clock and the delay timer alternate. -/
def alternating : Schedule := fun n => if n % 2 = 0 then .clkInstr else .tick .delay

theorem alternating_fairToCore : alternating.fairToCore := fun n => ⟨2 * n, by omega, by simp [alternating]⟩

theorem witness_RunningCoreEventuallySteps : alternating.fairToCore ∧ (∀ n, alternating n ≠ .reset) ∧
    (∀ n offset bytes, alternating n ≠ .load offset bytes) ∧ State.reset.Runs := by
  refine ⟨alternating_fairToCore, fun n => ?_, fun n offset bytes => ?_, by decide⟩ <;>
    by_cases h : n % 2 = 0 <;> simp [alternating, h]

theorem witness_TimerReachesZeroDuringKeyWait : alternating.fairTo .delay ∧
    (∀ n, (alternating n).isTick = true) ∧ waiting.run = .awaitingKey 5 := by
  refine ⟨fun n => ⟨2 * n + 1, by omega, ?_⟩, fun n => ?_, by decide⟩
  · have : (2 * n + 1) % 2 = 1 := by omega
    simp [alternating, this]
  · by_cases h : n % 2 = 0 <;> simp [alternating, h, Input.isTick]

theorem witness_OnlyListedWritersChangeState : State.reset.run = .running ∧
    exec (.ldI 0x300) State.reset = .next (State.reset.setI 0x300).advance ∧
    (State.reset.setI 0x300).advance.isFaulted = false ∧ ¬ mayWriteReg (.ldI 0x300) 0 := by
  refine ⟨by decide, rfl, by decide, fun h => h⟩

theorem witness_SoundTimerIsNeverRead : State.reset.run = .running ∧ (∃ x, Instr.ldSt 3 = .ldSt x) ∧
    (∃ t, exec (.ret 0) State.reset = .next t ∧ t.isFaulted = true) ∧
    ¬ ((∃ x, Instr.cls 0 = .ldSt x) ∨ State.reset.isFaulted = true) := by
  refine ⟨by decide, ⟨3, rfl⟩, ⟨_, rfl, rfl⟩, ?_⟩
  rintro (⟨x, h⟩ | h)
  · cases h
  · exact absurd h (by decide)

theorem witness_StackEntriesAboveSpAreUnobservable : (State.reset.setSp 1).run = .running ∧
    (∀ k : Fin Config.stackDepth, k.val < (State.reset.setSp 1).sp.val →
      ((State.reset.setEntry 1 0x204).stack)[k] = (State.reset.setSp 1).stack[k]) ∧
    (∀ k : Fin Config.stackDepth, k.val < State.reset.sp.val →
      ((State.reset.setEntry 0 0x204).stack)[k] = State.reset.stack[k]) ∧
    ∃ t, exec (.ret 0) State.reset = .next t ∧ t.isFaulted = true :=
  ⟨by decide, by decide, by decide, _, rfl, rfl⟩

theorem witness_FinishedRunStaysFinished :
    (State.reset.setMem (Memory.poke [] 0x200 0x12)).isFinished = true ∧
    (State.reset.start.setMem (Memory.poke [] 0x200 0x12)).isFinished = true ∧
    (State.reset.start.setMem (Memory.poke [] 0x200 0x12)).stage = .started := by decide

/-- A state that is neither the reset state nor faulted meets the two invariants, and so does the faulted one. -/
theorem witness_StepKeepsInvariant : (waiting.setInputs [.keyDown 3]).Inv ∧ faulted.Inv ∧
    ∃ t, step (waiting.setInputs [.keyDown 3]) = .next t :=
  ⟨⟨by decide, trivial, fun _ => rfl⟩, ⟨by decide, ⟨rfl, by decide⟩, fun _ => rfl⟩, _, rfl⟩

theorem witness_StepKeepsPcBounded : (waiting.setInputs [.keyDown 3]).PcBounded ∧
    ∃ t, step (waiting.setInputs [.keyDown 3]) = .next t :=
  ⟨⟨by decide, by decide, by decide⟩, _, rfl⟩

end Sys2Proof.Tests
end

section
/-! Fetch (20_memory.md). -/
namespace Sys2Proof.Machine

open Sys2Proof

/-- The fetch through its two reads (R64, R90). -/
theorem State.fetchWord_of_reads {s : State} {b0 b1 : Byte} (h0 : s.memRead s.pc.toNat = some b0)
    (h1 : s.memRead (s.pc.toNat + 1) = some b1) : s.fetchWord = some (wordOfBytes b0 b1) := by
  simp only [State.fetchWord, h0, h1]

/-- The byte at the lower address is bits 15..8 of the word (R64). -/
theorem bits_15_8_wordOfBytes (hi lo : Byte) : bits (wordOfBytes hi lo) 15 8 = hi.toNat := by
  have hhi := hi.isLt
  have hlo := lo.isLt
  simp only [bits, toNat_wordOfBytes]
  omega

/-- The byte at the higher address is bits 7..0 of the word (R64). -/
theorem bits_7_0_wordOfBytes (hi lo : Byte) : bits (wordOfBytes hi lo) 7 0 = lo.toNat := by
  have hlo := lo.isLt
  rw [bits_7_0, toNat_wordOfBytes]
  omega

/-- Settles O7: the two reads make the word, and its two bytes are read back from it. -/
theorem fetchIsBigEndian : Obligations.FetchIsBigEndian := by
  intro s b0 b1 h0 h1
  exact ⟨wordOfBytes b0 b1, State.fetchWord_of_reads h0 h1, toNat_wordOfBytes b0 b1,
    bits_15_8_wordOfBytes b0 b1, bits_7_0_wordOfBytes b0 b1⟩

end Sys2Proof.Machine
end

section
/-! Words by the mask of their row (30_encoding.md R91, R93). -/
namespace Sys2Proof

/-! ## The fields a mask and match fix -/

theorem fieldF_of_and_F000 {w v : Word} (h : w &&& 0xF000 = v) (hv : v.toNat % 4096 = 0) :
    fieldF w = v.toNat / 4096 := by
  rw [fieldF_eq, (and_F000_eq_iff w v hv).mp h]

theorem fields_of_and_F00F {w v : Word} (h : w &&& 0xF00F = v) (hv : v.toNat % 4096 < 16) :
    fieldF w = v.toNat / 4096 ∧ fieldN w = v.toNat % 16 := by
  rw [fieldF_eq, fieldN_eq]
  exact (and_F00F_eq_iff w v hv).mp h

theorem fields_of_and_F0FF {w v : Word} (h : w &&& 0xF0FF = v) (hv : v.toNat % 4096 < 256) :
    fieldF w = v.toNat / 4096 ∧ bits w 7 0 = v.toNat % 256 := by
  rw [fieldF_eq, bits_7_0]
  exact (and_F0FF_eq_iff w v hv).mp h

/-! ## The rows of control transfer -/

theorem decode_ret_row {w : Word} (h : w &&& 0xF0FF = 0x00EE) : decode w = .ok (.ret (ignoredX w)) := by
  obtain ⟨hF, hB⟩ : fieldF w = 0x0 ∧ bits w 7 0 = 0xEE := fields_of_and_F0FF h (by decide)
  simp only [decode, hF, decodeFamily0, hB]

theorem decode_jp_row {w : Word} (h : w &&& 0xF000 = 0x1000) : decode w = .ok (.jp (fieldNNN w)) := by
  have hF : fieldF w = 0x1 := fieldF_of_and_F000 h (by decide)
  simp only [decode, hF]

theorem decode_call_row {w : Word} (h : w &&& 0xF000 = 0x2000) : decode w = .ok (.call (fieldNNN w)) := by
  have hF : fieldF w = 0x2 := fieldF_of_and_F000 h (by decide)
  simp only [decode, hF]

theorem decode_seByte_row {w : Word} (h : w &&& 0xF000 = 0x3000) :
    decode w = .ok (.seByte (fieldX w) (fieldNN w)) := by
  have hF : fieldF w = 0x3 := fieldF_of_and_F000 h (by decide)
  simp only [decode, hF]

theorem decode_sneByte_row {w : Word} (h : w &&& 0xF000 = 0x4000) :
    decode w = .ok (.sneByte (fieldX w) (fieldNN w)) := by
  have hF : fieldF w = 0x4 := fieldF_of_and_F000 h (by decide)
  simp only [decode, hF]

theorem decode_seReg_row {w : Word} (h : w &&& 0xF00F = 0x5000) :
    decode w = .ok (.seReg (fieldX w) (fieldY w)) := by
  obtain ⟨hF, hN⟩ : fieldF w = 0x5 ∧ fieldN w = 0x0 := fields_of_and_F00F h (by decide)
  simp only [decode, hF, decodeFamily5, hN]

theorem decode_sneReg_row {w : Word} (h : w &&& 0xF00F = 0x9000) :
    decode w = .ok (.sneReg (fieldX w) (fieldY w)) := by
  obtain ⟨hF, hN⟩ : fieldF w = 0x9 ∧ fieldN w = 0x0 := fields_of_and_F00F h (by decide)
  simp only [decode, hF, decodeFamily9, hN]

/-- A word of family 0x5 with a low nibble other than 0 is illegal (R94). -/
theorem decode_family5_illegal {w : Word} (hF : fieldF w = 0x5) (hN : fieldN w ≠ 0) :
    decode w = .error (.unknownOpcode w) := by
  simp only [decode, hF, decodeFamily5]

/-- A word of family 0x9 with a low nibble other than 0 is illegal (R94). -/
theorem decode_family9_illegal {w : Word} (hF : fieldF w = 0x9) (hN : fieldN w ≠ 0) :
    decode w = .error (.unknownOpcode w) := by
  simp only [decode, hF, decodeFamily9]

end Sys2Proof
end

section
/-! Frames of the operations that control transfer is made of: an operation on a listed piece keeps a frame. -/
namespace Sys2Proof.Machine

open Sys2Proof

theorem State.sameBut_refl (s : State) (parts : List Part) : s.sameBut parts s := by
  intro p _
  cases p with
  | v | stack | mem | key => exact fun _ => rfl
  | screen => exact fun _ _ => rfl
  | _ => rfl

theorem State.sameBut.setPc {s t : State} {parts : List Part} (h : s.sameBut parts t) (hm : Part.pc ∈ parts)
    (w : PcValue) : s.sameBut parts (t.setPc w) := by
  intro p hp
  cases p with
  | pc => exact absurd hm hp
  | _ => exact h _ hp

theorem State.sameBut.setSp {s t : State} {parts : List Part} (h : s.sameBut parts t) (hm : Part.sp ∈ parts)
    (n : Fin (Config.stackDepth + 1)) : s.sameBut parts (t.setSp n) := by
  intro p hp
  cases p with
  | sp => exact absurd hm hp
  | _ => exact h _ hp

theorem State.sameBut.setEntry {s t : State} {parts : List Part} (h : s.sameBut parts t)
    (hm : Part.stack ∈ parts) (k : Fin Config.stackDepth) (w : EntryValue) :
    s.sameBut parts (t.setEntry k w) := by
  intro p hp
  cases p with
  | stack => exact absurd hm hp
  | _ => exact h _ hp

/-- A stack entry read after one is written. -/
theorem State.stack_setEntry (s : State) (j : Fin Config.stackDepth) (w : EntryValue) (k : Nat)
    (hk : k < Config.stackDepth) : (s.setEntry j w).stack[k] = if j.val = k then w else s.stack[k] :=
  Vector.getElem_set j.isLt hk

end Sys2Proof.Machine
end

section
/-! Faults of a core step: at the fetch (R64, R90), and in the execute phase (R301). -/
namespace Sys2Proof.Machine

open Sys2Proof

/-- A running core whose PC leaves no room for two bytes faults at the fetch, and no word is reported (R302). -/
theorem clockEdge_of_fetch_outOfRange {s : State} (hr : s.Runs) (hp : 0xFFF ≤ s.pc.toNat) :
    clockEdge s = .next (s.start.takeFault .outOfRange none) := by
  have hf : s.fetchWord = none := s.fetchWord_of_ge (by simp only [Config.memSize]; omega)
  simp only [clockEdge_of_runs hr.1 hr.2, fetchDecodeExecute, State.fetchWord_start, hf, raise]

/-- An instruction that R301's table says faults takes that fault, with its own word in the report. -/
theorem exec_of_execFault {i : Instr} {s : State} {kind : FaultKind} (h : execFault i s = some kind) :
    exec i s = .next (s.takeFault kind (some (encode i))) := by
  rcases exec_answer i s with ⟨k, hk, he⟩ | ⟨hn, -⟩
  · obtain rfl : k = kind := Option.some.inj (hk.symm.trans h)
    exact he
  · simp [hn] at h

/-- Where R301's table names no fault, a running core has not faulted after the execution. -/
theorem exec_not_faulted {i : Instr} {s t : State} (hr : s.run = .running) (h : execFault i s = none)
    (he : exec i s = .next t) : t.isFaulted = false := by
  rcases exec_answer i s with ⟨k, hk, -⟩ | ⟨-, u, hu, -, hrun⟩
  · simp [hk] at h
  · obtain rfl : u = t := Host.Outcome.next.inj (hu.symm.trans he)
    rcases hrun with hrun | ⟨x, -, hrun⟩ <;> simp [State.isFaulted, RunState.report, hrun, hr]

/-- A core fault is no answer with a run that goes on. -/
theorem raise_ne_next {kind : FaultKind} {word : Option Word} {s t : State} (ht : t.isFaulted = false) :
    raise kind word s ≠ .next t := by
  intro h
  obtain rfl := Host.Outcome.next.inj h
  cases ht

end Sys2Proof.Machine
end

section
/-! Control transfer (40_control_flow.md). -/
namespace Sys2Proof.Machine

open Sys2Proof

/-! ## JP -/

/-- Settles O20: the jump is `setPc`, and 0xFFF leaves no room for the second byte of a fetch. -/
theorem jumpSetsPc : Obligations.JumpSetsPc := by
  refine ⟨fun w => decode_jp_row, fun nnn s => ⟨s.setPc (pcOfAddr nnn), rfl, toNat_pcOfAddr nnn,
    (s.sameBut_refl _).setPc (by decide) _, fun hr hn => ?_⟩⟩
  exact ⟨_, _, _, clockEdge_of_fetch_outOfRange hr (by simp [hn]), rfl⟩

/-! ## RET and CALL -/

theorem exec_ret_of_succ (k : Nibble) (s : State) {n : Nat} (hn : n < Config.stackDepth) (h : s.sp.val = n + 1) :
    exec (.ret k) s = .next ((s.setSp ⟨n, Nat.lt_succ_of_lt hn⟩).setPc s.stack[n]) := by
  simp only [exec, execRet, s.pop_of_succ n hn h, pcOfEntry_eq]

theorem exec_call_of_lt (nnn : Addr12) (s : State) (h : s.sp.val < Config.stackDepth) :
    exec (.call nnn) s = .next (((s.setEntry ⟨s.sp.val, h⟩ (s.pc + 2)).setSp
      ⟨s.sp.val + 1, Nat.succ_lt_succ h⟩).setPc (pcOfAddr nnn)) := by
  simp only [exec, execCall, s.push_of_lt _ h, entryOfPc_eq]

/-- Settles O19: an empty stack is a fault of R301's table; otherwise the pop is `setSp` and the jump `setPc`. -/
theorem retPopsReturnAddress : Obligations.RetPopsReturnAddress := by
  refine ⟨fun w => decode_ret_row, fun k s h => ⟨_, _, exec_of_execFault (if_pos h), rfl⟩, fun k s n hn h =>
    ⟨_, exec_ret_of_succ k s hn h, rfl, rfl, ((s.sameBut_refl _).setSp (by decide) _).setPc (by decide) _,
      fun hr hp => ⟨_, _, _, clockEdge_of_fetch_outOfRange hr hp, rfl⟩⟩⟩

/-- Settles O21: a full stack is a fault of R301's table; otherwise the push is `setEntry` and `setSp`. -/
theorem callPushesReturnAddress : Obligations.CallPushesReturnAddress := by
  refine ⟨fun w => decode_call_row, fun nnn s h => ⟨_, _, exec_of_execFault (if_pos h), rfl⟩, fun nnn s h =>
    ⟨_, exec_call_of_lt nnn s h, ?_, fun k hk => ?_, rfl, toNat_pcOfAddr nnn,
      (((s.sameBut_refl _).setEntry (by decide) _ _).setSp (by decide) _).setPc (by decide) _⟩⟩
  · exact (s.stack_setEntry _ _ _ h).trans (if_pos rfl)
  · exact (s.stack_setEntry _ _ _ k.isLt).trans (if_neg hk.symm)

/-! ## The skips -/

/-- What a conditional skip does under a condition that makes it and one that prevents it. -/
theorem State.skipIf_spec {P Q : Prop} (s : State) (c : Bool) (hP : P → c = true) (hQ : Q → c = false) :
    (P → (s.skipIf c).pc = s.pc + 4) ∧ (Q → (s.skipIf c).pc = s.pc + 2) ∧ s.sameBut [.pc] (s.skipIf c) :=
  ⟨fun h => by simp [hP h], fun h => by simp [hQ h], (s.sameBut_refl _).setPc (by decide) _⟩

/-- Settles O22: each skip is `skipIf` with its comparison. -/
theorem skipsAdvanceByFourOrTwo : Obligations.SkipsAdvanceByFourOrTwo := by
  refine ⟨fun w => ⟨decode_seByte_row, decode_sneByte_row, decode_seReg_row, decode_sneReg_row, ?_⟩,
    fun x nn s => ⟨_, rfl, s.skipIf_spec _ ?_ ?_⟩, fun x nn s => ⟨_, rfl, s.skipIf_spec _ ?_ ?_⟩,
    fun x y s => ⟨_, rfl, s.skipIf_spec _ ?_ ?_⟩, fun x y s => ⟨_, rfl, s.skipIf_spec _ ?_ ?_⟩⟩
  · rintro (⟨hF, hN⟩ | ⟨hF, hN⟩)
    · exact decode_family5_illegal hF hN
    · exact decode_family9_illegal hF hN
  all_goals simp

/-! ## PC after every instruction -/

/-- JP V0's target as R121's table writes it. -/
theorem pcOfAddr_add_eq (nnn : Addr12) (b : RegValue) :
    pcOfAddr nnn + b.setWidth Config.pcWidth = BitVec.ofNat Config.pcWidth (nnn.toNat + b.toNat) := by
  rw [← toNat_pcOfAddr_add, BitVec.ofNat_toNat, BitVec.setWidth_eq]

/-- A key operand is the register's value. -/
theorem State.eq_ofNat_of_keyOperand {s : State} {x : Reg} {k : Fin Config.numKeys} (h : s.keyOperand x = some k) :
    k = Fin.ofNat Config.numKeys (s.getV x).toNat := by
  by_cases hv : (s.getV x).toNat ≤ 0xF
  · obtain rfl := Option.some.inj ((s.keyOperand_of_le x hv).symm.trans h)
    exact Fin.ext (Nat.mod_eq_of_lt (Nat.lt_succ_of_le hv)).symm
  · simp [s.keyOperand_of_gt x (by omega)] at h

/-- A store at I that does not fault advances PC. -/
theorem storeAtI_pc {word : Word} {bytes : List Byte} {s t : State} (h : storeAtI word bytes s = .next t)
    (ht : t.isFaulted = false) : t.pc = s.pc + 2 := by
  rcases storeAtI_cases word bytes s with ⟨m, -, hs⟩ | ⟨-, hs⟩
  · obtain rfl := Host.Outcome.next.inj (hs.symm.trans h)
    rfl
  · exact absurd (hs.symm.trans h) (raise_ne_next ht)

theorem exec_ret_pc {k : Nibble} {s t : State} (h : exec (.ret k) s = .next t) (ht : t.isFaulted = false) :
    t.pc = pcAfter (.ret k) s := by
  by_cases h0 : s.sp.val = 0
  · exact absurd ((exec_of_execFault (i := .ret k) (if_pos h0)).symm.trans h) (raise_ne_next ht)
  · have hn : s.sp.val - 1 < Config.stackDepth := by have := s.sp.isLt; omega
    obtain rfl := Host.Outcome.next.inj ((exec_ret_of_succ k s hn (by omega)).symm.trans h)
    exact (pcOfEntry_eq _).symm

theorem exec_call_pc {nnn : Addr12} {s t : State} (h : exec (.call nnn) s = .next t) (ht : t.isFaulted = false) :
    t.pc = pcAfter (.call nnn) s := by
  by_cases hf : s.sp.val = 16
  · exact absurd ((exec_of_execFault (i := .call nnn) (if_pos hf)).symm.trans h) (raise_ne_next ht)
  · have hl : s.sp.val < Config.stackDepth := by have := s.sp.isLt; simp only [Config.stackDepth] at *; omega
    obtain rfl := Host.Outcome.next.inj ((exec_call_of_lt nnn s hl).symm.trans h)
    exact pcOfAddr_eq nnn

theorem exec_skp_pc {x : Reg} {s t : State} (h : exec (.skp x) s = .next t) (ht : t.isFaulted = false) :
    t.pc = pcAfter (.skp x) s := by
  simp only [exec, execSkp] at h
  split at h
  · exact absurd h (raise_ne_next ht)
  · next k hk =>
    obtain rfl := Host.Outcome.next.inj h
    rw [State.eq_ofNat_of_keyOperand hk]
    rfl

theorem exec_sknp_pc {x : Reg} {s t : State} (h : exec (.sknp x) s = .next t) (ht : t.isFaulted = false) :
    t.pc = pcAfter (.sknp x) s := by
  simp only [exec, execSknp] at h
  split at h
  · exact absurd h (raise_ne_next ht)
  · next k hk =>
    obtain rfl := Host.Outcome.next.inj h
    rw [State.eq_ofNat_of_keyOperand hk]
    simp [pcAfter]

/-- The table of R121: PC after an execution that does not fault. -/
theorem exec_pc {i : Instr} {s t : State} (h : exec i s = .next t) (ht : t.isFaulted = false) :
    t.pc = pcAfter i s := by
  cases i with
  | ret k => exact exec_ret_pc h ht
  | call nnn => exact exec_call_pc h ht
  | skp x => exact exec_skp_pc h ht
  | sknp x => exact exec_sknp_pc h ht
  | ldB x | storeRegs x => exact storeAtI_pc h ht
  | drw _ _ _ | loadRegs _ | ldF _ =>
    simp only [exec, execDrw, execLoadRegs, execLdF] at h
    split at h
    · exact absurd h (raise_ne_next ht)
    · obtain rfl := Host.Outcome.next.inj h
      rfl
  | jp nnn =>
    obtain rfl := Host.Outcome.next.inj h
    exact pcOfAddr_eq nnn
  | jpV0 nnn =>
    obtain rfl := Host.Outcome.next.inj h
    exact pcOfAddr_add_eq nnn (s.getV 0)
  | seByte _ _ | sneByte _ _ | seReg _ _ | sneReg _ _ =>
    obtain rfl := Host.Outcome.next.inj h
    simp [pcAfter]
  | cls _ | ldByte _ _ | addByte _ _ | ldReg _ _ | orReg _ _ | andReg _ _ | xorReg _ _ | addReg _ _ | subReg _ _
  | shr _ _ | subnReg _ _ | shl _ _ | ldI _ | rnd _ _ | ldFromDt _ | ldKey _ | ldDt _ | ldSt _ | addI _ =>
    obtain rfl := Host.Outcome.next.inj h
    rfl

/-- A key-down of a key that was up ends the wait, and PC goes on (R266). -/
theorem State.pressKey_pc_of_wait {s : State} {x : Reg} {k : Fin Config.numKeys} (hr : s.run = .awaitingKey x)
    (hk : s.keyDown? k = false) : (s.pressKey k).pc = s.pc + 2 := by
  rcases s.pressKey_cases k with ⟨y, -, -, hp⟩ | ⟨y, -, hd, -⟩ | ⟨hn, -⟩
  · rw [hp]
    rfl
  · simp [hk] at hd
  · exact absurd hr (hn x)

/-- Settles O18: R301's table says which executions fault, and those leave PC; the others follow R121's table. -/
theorem pcFollowsTable : Obligations.PcFollowsTable := by
  refine ⟨fun i s hr => ?_, fun s x k hr hk => ⟨_, rfl, State.pressKey_pc_of_wait hr hk⟩⟩
  rcases exec_answer i s with ⟨kind, -, he⟩ | ⟨hn, t, he, -⟩
  · exact ⟨_, he, fun _ => rfl, exec_pc he⟩
  · exact ⟨t, he, fun ht => by simp [exec_not_faulted hr hn he] at ht, exec_pc he⟩

end Sys2Proof.Machine
end

section
/-! Words by the mask of their row (30_encoding.md R91, R93): the rows of arithmetic and logic. -/
namespace Sys2Proof

theorem decode_ldByte_row {w : Word} (h : w &&& 0xF000 = 0x6000) :
    decode w = .ok (.ldByte (fieldX w) (fieldNN w)) := by
  have hF : fieldF w = 0x6 := fieldF_of_and_F000 h (by decide)
  simp only [decode, hF]

/-- A word of family 0x8 is told apart by its low nibble alone (R93). -/
theorem decode_of_and_F00F_family8 {w v : Word} (h : w &&& 0xF00F = v) (hv : v.toNat % 4096 < 16)
    (h8 : v.toNat / 4096 = 0x8) : decode w = decodeFamily8 w ∧ fieldN w = v.toNat % 16 := by
  obtain ⟨hF, hN⟩ := fields_of_and_F00F h hv
  exact ⟨by simp only [decode, hF, h8], hN⟩

theorem decode_orReg_row {w : Word} (h : w &&& 0xF00F = 0x8001) :
    decode w = .ok (.orReg (fieldX w) (fieldY w)) := by
  obtain ⟨hd, hN⟩ : _ ∧ fieldN w = 0x1 := decode_of_and_F00F_family8 h (by decide) (by decide)
  simp only [hd, decodeFamily8, hN]

theorem decode_andReg_row {w : Word} (h : w &&& 0xF00F = 0x8002) :
    decode w = .ok (.andReg (fieldX w) (fieldY w)) := by
  obtain ⟨hd, hN⟩ : _ ∧ fieldN w = 0x2 := decode_of_and_F00F_family8 h (by decide) (by decide)
  simp only [hd, decodeFamily8, hN]

theorem decode_xorReg_row {w : Word} (h : w &&& 0xF00F = 0x8003) :
    decode w = .ok (.xorReg (fieldX w) (fieldY w)) := by
  obtain ⟨hd, hN⟩ : _ ∧ fieldN w = 0x3 := decode_of_and_F00F_family8 h (by decide) (by decide)
  simp only [hd, decodeFamily8, hN]

theorem decode_addReg_row {w : Word} (h : w &&& 0xF00F = 0x8004) :
    decode w = .ok (.addReg (fieldX w) (fieldY w)) := by
  obtain ⟨hd, hN⟩ : _ ∧ fieldN w = 0x4 := decode_of_and_F00F_family8 h (by decide) (by decide)
  simp only [hd, decodeFamily8, hN]

theorem decode_subReg_row {w : Word} (h : w &&& 0xF00F = 0x8005) :
    decode w = .ok (.subReg (fieldX w) (fieldY w)) := by
  obtain ⟨hd, hN⟩ : _ ∧ fieldN w = 0x5 := decode_of_and_F00F_family8 h (by decide) (by decide)
  simp only [hd, decodeFamily8, hN]

theorem decode_subnReg_row {w : Word} (h : w &&& 0xF00F = 0x8007) :
    decode w = .ok (.subnReg (fieldX w) (fieldY w)) := by
  obtain ⟨hd, hN⟩ : _ ∧ fieldN w = 0x7 := decode_of_and_F00F_family8 h (by decide) (by decide)
  simp only [hd, decodeFamily8, hN]

end Sys2Proof
end

section
/-! Frames of a result write and of a flag write (41_alu.md R162): what both leave unchanged. -/
namespace Sys2Proof.Machine

open Sys2Proof

theorem State.sameBut.setV {s t : State} {parts : List Part} (h : s.sameBut parts t) (hm : Part.v ∈ parts)
    (x : Reg) (b : RegValue) : s.sameBut parts (t.setV x b) := by
  intro p hp
  cases p with
  | v => exact absurd hm hp
  | _ => exact h _ hp

theorem State.sameRegsBut.setV {s t : State} {dests : List Reg} (h : s.sameRegsBut dests t) {x : Reg}
    (hx : x ∈ dests) (b : RegValue) : s.sameRegsBut dests (t.setV x b) := by
  intro r hr
  have hne : r ≠ x := fun e => hr (e ▸ hx)
  rw [State.getV_setV_other t hne, h r hr]

/-- A result written to Vx, and the advance: every other register, VF included, and every other piece stays. -/
theorem State.setV_advance_frame (s : State) (x : Reg) (b : RegValue) :
    s.sameRegsBut [x] (s.setV x b).advance ∧ (s.setV x b).advance.pc = s.pc + 2 ∧
    s.sameBut [.v, .pc] (s.setV x b).advance :=
  have hregs : s.sameRegsBut [x] s := fun _ _ => rfl
  ⟨hregs.setV (by simp) b, rfl, ((s.sameBut_refl _).setV (by decide) x b).setPc (by decide) _⟩

/-- A result and a flag written, and the advance: every register but Vx and VF, and every other piece stays. -/
theorem State.setResultFlag_advance_frame (s : State) (x : Reg) (b f : RegValue) :
    s.sameRegsBut [x, Reg.vf] (s.setResultFlag x b f).advance ∧ (s.setResultFlag x b f).advance.pc = s.pc + 2 ∧
    s.sameBut [.v, .pc] (s.setResultFlag x b f).advance :=
  have hregs : s.sameRegsBut [x, Reg.vf] s := fun _ _ => rfl
  ⟨(hregs.setV (by simp) b).setV (by simp) f, rfl,
    (((s.sameBut_refl _).setV (by decide) x b).setV (by decide) Reg.vf f).setPc (by decide) _⟩

/-- The flag is written last, so VF holds it even where VF is the destination (R162). -/
@[simp] theorem State.getV_setResultFlag_vf (s : State) (x : Reg) (b f : RegValue) :
    (s.setResultFlag x b f).getV Reg.vf = f := by
  rw [State.getV_setResultFlag, if_pos rfl]

theorem State.getV_setResultFlag_dest (s : State) {x : Reg} (hx : x ≠ Reg.vf) (b f : RegValue) :
    (s.setResultFlag x b f).getV x = b := by
  rw [State.getV_setResultFlag, if_neg hx, if_pos rfl]

end Sys2Proof.Machine
end

section
/-! Arithmetic and logic (41_alu.md). -/
namespace Sys2Proof.Machine

open Sys2Proof

/-! ## One result, no flag -/

/-- Settles O25: the load is one `setV` of the immediate, and the frame of `setV` says the rest. -/
theorem loadImmediateWritesByte : Obligations.LoadImmediateWritesByte :=
  ⟨fun _ => decode_ldByte_row, fun x nn s => ⟨_, rfl, by simp, s.setV_advance_frame x (regOfByte nn)⟩⟩

/-- Settles O27: each operation is one `setV` of the bitwise result, and the frame of `setV` keeps VF. -/
theorem logicOpsWriteNoFlag : Obligations.LogicOpsWriteNoFlag := by
  refine ⟨fun w => ⟨decode_orReg_row, decode_andReg_row, decode_xorReg_row⟩,
    fun x y s => ⟨_, rfl, fun k => ?_, s.setV_advance_frame x _⟩,
    fun x y s => ⟨_, rfl, fun k => ?_, s.setV_advance_frame x _⟩,
    fun x y s => ⟨_, rfl, fun k => ?_, s.setV_advance_frame x _⟩⟩
  · rw [State.getV_advance, State.getV_setV_same, BitVec.getLsbD_or]
  · rw [State.getV_advance, State.getV_setV_same, BitVec.getLsbD_and]
  · rw [State.getV_advance, State.getV_setV_same, BitVec.getLsbD_xor]

/-! ## A result, then the flag in VF -/

/-- Settles O28: the sum and its carry are `addResult` and `addFlag`, written by `setResultFlag`. -/
theorem addSetsCarry : Obligations.AddSetsCarry := by
  refine ⟨fun w => decode_addReg_row, fun x y s =>
    ⟨_, rfl, fun hx => ?_, ?_, s.setResultFlag_advance_frame x _ _⟩⟩
  · rw [State.getV_advance, s.getV_setResultFlag_dest hx, toNat_addResult]
  · rw [State.getV_advance, State.getV_setResultFlag_vf, addFlag_eq]

/-- A subtraction into Vx, of whatever minuend and subtrahend: SUB and SUBN are its two orders (R170, R172). -/
theorem State.setSubResultFlag_spec {s t : State} {x : Reg} {a b : RegValue}
    (ht : t = (s.setResultFlag x (subResult a b) (subFlag a b)).advance) :
    (x ≠ Reg.vf → ((t.getV x).toNat : Int) = (a.toNat - b.toNat : Int) % 256) ∧
    t.getV Reg.vf = (if a.toNat > b.toNat then 1 else 0) ∧
    s.sameRegsBut [x, Reg.vf] t ∧ t.pc = s.pc + 2 ∧ s.sameBut [.v, .pc] t := by
  subst ht
  refine ⟨fun hx => ?_, ?_, s.setResultFlag_advance_frame x _ _⟩
  · rw [State.getV_advance, s.getV_setResultFlag_dest hx, toNat_subResult]
  · rw [State.getV_advance, State.getV_setResultFlag_vf, subFlag_eq]

/-- Settles O29: SUB takes Vx as the minuend and SUBN takes Vy. -/
theorem subtractSetsStrictlyGreater : Obligations.SubtractSetsStrictlyGreater :=
  ⟨fun _ => ⟨decode_subReg_row, decode_subnReg_row⟩,
    fun _ _ _ => ⟨_, rfl, State.setSubResultFlag_spec rfl⟩,
    fun _ _ _ => ⟨_, rfl, State.setSubResultFlag_spec rfl⟩⟩

end Sys2Proof.Machine
end

section
/-! Words by the mask of their row (30_encoding.md R91, R93): the rows of the index register and memory transfer. -/
namespace Sys2Proof

theorem decode_ldI_row {w : Word} (h : w &&& 0xF000 = 0xA000) : decode w = .ok (.ldI (fieldNNN w)) := by
  have hF : fieldF w = 0xA := fieldF_of_and_F000 h (by decide)
  simp only [decode, hF]

theorem decode_ldB_row {w : Word} (h : w &&& 0xF0FF = 0xF033) : decode w = .ok (.ldB (fieldX w)) := by
  obtain ⟨hF, hB⟩ : fieldF w = 0xF ∧ bits w 7 0 = 0x33 := fields_of_and_F0FF h (by decide)
  simp only [decode, hF, decodeFamilyF, hB]

end Sys2Proof
end

section
/-! The index register and memory transfer (42_index_memory.md). -/
namespace Sys2Proof.Machine

open Sys2Proof

/-! ## Frames of a write of I and of memory -/

theorem State.sameBut.setI {s t : State} {parts : List Part} (h : s.sameBut parts t) (hm : Part.i ∈ parts)
    (w : IndexValue) : s.sameBut parts (t.setI w) := by
  intro p hp
  cases p with
  | i => exact absurd hm hp
  | _ => exact h _ hp

theorem State.sameBut.setMem {s t : State} {parts : List Part} (h : s.sameBut parts t) (hm : Part.mem ∈ parts)
    (m : Memory) : s.sameBut parts (t.setMem m) := by
  intro p hp
  cases p with
  | mem => exact absurd hm hp
  | _ => exact h _ hp

/-! ## LD I -/

/-- Settles O32: the load is one `setI` of the address. -/
theorem loadIndexWritesAddress : Obligations.LoadIndexWritesAddress :=
  ⟨fun _ => decode_ldI_row, fun nnn s => ⟨_, rfl, toNat_indexOfAddr nnn, rfl,
    ((s.sameBut_refl _).setI (by decide) _).setPc (by decide) _⟩⟩

/-! ## Stores at I -/

/-- A store at I that fits: byte `k` goes to `I + k`, every other address reads as before, and nothing but memory
and PC changes (R67, R203, R204). -/
theorem storeAtI_spec (word : Word) (bytes : List Byte) (s : State) (hwf : Memory.wf s.mem)
    (hfit : s.effAddr bytes.length ≤ Config.memSize) : ∃ t, storeAtI word bytes s = .next t ∧
    (∀ k (hk : k < bytes.length), t.memRead (s.effAddr k) = some bytes[k]) ∧
    (∀ a, a < s.effAddr 0 ∨ s.effAddr bytes.length ≤ a → t.memRead a = s.memRead a) ∧
    t.pc = s.pc + 2 ∧ s.sameBut [.mem, .pc] t := by
  obtain ⟨m, hw, he⟩ := storeAtI_of_fits word bytes s hfit
  refine ⟨_, he, fun k hk => ?_, fun a ha => ?_, rfl, ((s.sameBut_refl _).setMem (by decide) m).setPc (by decide) _⟩
  · have hlt : s.effAddr k < Config.memSize := Nat.lt_of_lt_of_le (Nat.add_lt_add_left hk _) hfit
    exact (State.memRead_of_lt _ hlt).trans (congrArg some (Memory.peek_writeBytes hwf hw k hk))
  · have hpeek : Memory.peek m a = Memory.peek s.mem a := Memory.peek_writeBytes_other hw ha
    show Memory.read m a = Memory.read s.mem a
    simp only [Memory.read, hpeek]

/-! ## LD B -/

/-- The bytes of `bcdDigits` as numbers: a register's value is below 256, so no digit is cut (R203). -/
theorem bcdDigits_spec (b : RegValue) : ∃ h d o : Byte, bcdDigits b = [h, d, o] ∧
    h.toNat = b.toNat / 100 ∧ d.toNat = b.toNat / 10 % 10 ∧ o.toNat = b.toNat % 10 := by
  have hb : b.toNat < 256 := b.isLt
  refine ⟨_, _, _, rfl, ?_, ?_, ?_⟩ <;> exact (BitVec.toNat_ofNat _ _).trans (Nat.mod_eq_of_lt (by omega))

/-- Settles O35: the store of the three digits is `storeAtI`, and I + 2 outside the space is a fault of R301's
table. -/
theorem bcdStoresThreeDigits : Obligations.BcdStoresThreeDigits := by
  refine ⟨fun w => decode_ldB_row, fun x s hwf hfit => ?_, fun x s h =>
    ⟨_, _, _, exec_of_execFault (if_pos h), rfl⟩⟩
  obtain ⟨t, he, hread, hother, hframe⟩ := storeAtI_spec (encode (.ldB x)) (bcdDigits (s.getV x)) s hwf hfit
  obtain ⟨h, d, o, hdigits, hvalues⟩ := bcdDigits_spec (s.getV x)
  simp only [hdigits] at hread
  exact ⟨t, he, ⟨h, d, o, hread 0 (by simp), hread 1 (by simp), hread 2 (by simp), hvalues⟩, hother, hframe⟩

end Sys2Proof.Machine
end

section
/-! Words by the mask of their row (30_encoding.md R91, R93, R96): the row of CLS. -/
namespace Sys2Proof

theorem decode_cls_row {w : Word} (h : w &&& 0xF0FF = 0x00E0) : decode w = .ok (.cls (ignoredX w)) := by
  obtain ⟨hF, hB⟩ : fieldF w = 0x0 ∧ bits w 7 0 = 0xE0 := fields_of_and_F0FF h (by decide)
  simp only [decode, hF, decodeFamily0, hB]

end Sys2Proof
end

section
/-! The raster (43_raster.md). -/
namespace Sys2Proof.Machine

open Sys2Proof

/-! ## The frame of a write of the screen -/

theorem State.sameBut.setScreen {s t : State} {parts : List Part} (h : s.sameBut parts t)
    (hm : Part.screen ∈ parts) (sc : Screen) : s.sameBut parts (t.setScreen sc) := by
  intro p hp
  cases p with
  | screen => exact absurd hm hp
  | _ => exact h _ hp

/-! ## CLS -/

/-- Settles O41: CLS is one `setScreen` of the blank screen, whatever its ignored bits. -/
theorem clsZeroesEveryCell : Obligations.ClsZeroesEveryCell :=
  ⟨fun _ => decode_cls_row, fun _ s => ⟨_, rfl, Screen.cell_blank, rfl,
    ((s.sameBut_refl _).setScreen (by decide) _).setPc (by decide) _⟩⟩

end Sys2Proof.Machine
end

section
/-! Words by the mask of their row (30_encoding.md R91, R93): the rows of the timers. -/
namespace Sys2Proof

/-- A word of family 0xF is told apart by its low byte alone (R93). -/
theorem decode_of_and_F0FF_familyF {w v : Word} (h : w &&& 0xF0FF = v) (hv : v.toNat % 4096 < 256)
    (hF : v.toNat / 4096 = 0xF) : decode w = decodeFamilyF w ∧ bits w 7 0 = v.toNat % 256 := by
  obtain ⟨hw, hB⟩ := fields_of_and_F0FF h hv
  exact ⟨by simp only [decode, hw, hF], hB⟩

theorem decode_ldFromDt_row {w : Word} (h : w &&& 0xF0FF = 0xF007) : decode w = .ok (.ldFromDt (fieldX w)) := by
  obtain ⟨hd, hB⟩ : _ ∧ bits w 7 0 = 0x07 := decode_of_and_F0FF_familyF h (by decide) (by decide)
  simp only [hd, decodeFamilyF, hB]

theorem decode_ldDt_row {w : Word} (h : w &&& 0xF0FF = 0xF015) : decode w = .ok (.ldDt (fieldX w)) := by
  obtain ⟨hd, hB⟩ : _ ∧ bits w 7 0 = 0x15 := decode_of_and_F0FF_familyF h (by decide) (by decide)
  simp only [hd, decodeFamilyF, hB]

theorem decode_ldSt_row {w : Word} (h : w &&& 0xF0FF = 0xF018) : decode w = .ok (.ldSt (fieldX w)) := by
  obtain ⟨hd, hB⟩ : _ ∧ bits w 7 0 = 0x18 := decode_of_and_F0FF_familyF h (by decide) (by decide)
  simp only [hd, decodeFamilyF, hB]

end Sys2Proof
end

section
/-! The timers (44_timers_keypad.md). -/
namespace Sys2Proof.Machine

open Sys2Proof

/-! ## The frame of a write of a timer -/

theorem State.sameBut.timerWrite_delay {s t : State} {parts : List Part} (h : s.sameBut parts t)
    (hm : Part.dt ∈ parts) (b : TimerValue) : s.sameBut parts (t.timerWrite .delay b) := by
  intro p hp
  cases p with
  | dt => exact absurd hm hp
  | _ => exact h _ hp

theorem State.sameBut.timerWrite_sound {s t : State} {parts : List Part} (h : s.sameBut parts t)
    (hm : Part.st ∈ parts) (b : TimerValue) : s.sameBut parts (t.timerWrite .sound b) := by
  intro p hp
  cases p with
  | st => exact absurd hm hp
  | _ => exact h _ hp

/-! ## LD Vx, DT, LD DT, Vx and LD ST, Vx -/

/-- Settles O44: the copy of DT is one `setV`, and each load of a timer one `timerWrite`, whose frame keeps the
other timer and every register, VF included. -/
theorem timerTransfers : Obligations.TimerTransfers := by
  refine ⟨fun w => ⟨decode_ldFromDt_row, decode_ldDt_row, decode_ldSt_row⟩,
    fun x s => ⟨_, rfl, ?_, s.setV_advance_frame x _⟩,
    fun x s => ⟨_, rfl, timerOfReg_eq _, rfl, ((s.sameBut_refl _).timerWrite_delay (by decide) _).setPc (by decide) _⟩,
    fun x s => ⟨_, rfl, timerOfReg_eq _, rfl, ((s.sameBut_refl _).timerWrite_sound (by decide) _).setPc (by decide) _⟩⟩
  rw [State.getV_advance, State.getV_setV_same, regOfTimer_eq]
  rfl

end Sys2Proof.Machine
end

section
/-! The timers' ticks (44_timers_keypad.md; 60_exceptions.md R309). -/
namespace Sys2Proof.Machine

open Sys2Proof

theorem tickValue_of_ne_zero {b : TimerValue} (h : b ≠ 0) : (tickValue b).toNat + 1 = b.toNat := by
  have hpos : b.toNat ≠ 0 := fun e => h (BitVec.eq_of_toNat_eq e)
  rw [toNat_tickValue]
  omega

@[simp] theorem tickValue_zero : tickValue 0 = 0 := rfl

theorem State.sameBut.tick {s t : State} {parts : List Part} (h : s.sameBut parts t) (hd : Part.dt ∈ parts)
    (hs : Part.st ∈ parts) (timer : Timer) : s.sameBut parts (t.tick timer) := by
  cases timer with
  | delay => exact h.timerWrite_delay hd _
  | sound => exact h.timerWrite_sound hs _

/-- Settles O45: a tick is one `timerWrite` of `tickValue`, whose frame keeps the other timer. -/
theorem tickCountsDownToZero : Obligations.TickCountsDownToZero :=
  ⟨fun s => ⟨_, rfl, tickValue_of_ne_zero, fun h => (congrArg tickValue h).trans tickValue_zero,
      (s.sameBut_refl _).timerWrite_delay (by decide) _⟩,
    fun s => ⟨_, rfl, tickValue_of_ne_zero, fun h => (congrArg tickValue h).trans tickValue_zero,
      (s.sameBut_refl _).timerWrite_sound (by decide) _⟩⟩

end Sys2Proof.Machine
end

section
/-! The key wait (60_exceptions.md R321): what enters it, what leaves it, and what it keeps. -/
namespace Sys2Proof.Machine

open Sys2Proof

/-! ## RUN across an event -/

@[simp] theorem State.tick_run (s : State) (t : Timer) : (s.tick t).run = s.run := s.timerWrite_run t _

@[simp] theorem State.releaseKey_run (s : State) (k : Fin Config.numKeys) : (s.releaseKey k).run = s.run := rfl

/-- A key-down keeps RUN unless it completes a wait (R266). -/
theorem State.pressKey_run (s : State) (k : Fin Config.numKeys) : (s.pressKey k).run = s.run ∨
    s.keyDown? k = false ∧ (s.pressKey k).run = .running := by
  rcases s.pressKey_cases k with ⟨_, -, hk, hp⟩ | ⟨-, -, -, hp⟩ | ⟨-, hp⟩
  · exact .inr ⟨hk, by rw [hp, State.setRun_run]⟩
  · exact .inl (by rw [hp])
  · exact .inl (by rw [hp, State.setKey_run])

/-- A load writes memory and the boot stage alone (R72, R343). -/
theorem loadEvent_run {offset : Nat} {bytes : List Byte} {s t : State}
    (h : loadEvent offset bytes s = .next t) : t.run = s.run := by
  rcases loadEvent_cases offset bytes s with ⟨-, hl⟩ | ⟨-, -, -, m, -, hl⟩ | ⟨-, -, -, hl⟩
  · cases hl.symm.trans h
  · obtain rfl := Host.Outcome.next.inj (hl.symm.trans h)
    rfl
  · obtain rfl := Host.Outcome.next.inj (hl.symm.trans h)
    rfl

/-- Of the events but the clock's, only a reset and the key-down that completes a wait change RUN, to RUNNING. -/
theorem deliver_run {e : Input} {s t : State} (he : e ≠ .clkInstr) (h : deliver e s = .next t) :
    t.run = s.run ∨ t.run = .running ∧
      (e = .reset ∨ ∃ k, e = .keyDown k ∧ s.keyDown? k = false) := by
  cases e with
  | clkInstr => exact absurd rfl he
  | load offset bytes => exact .inl (loadEvent_run h)
  | tick timer =>
    obtain rfl := Host.Outcome.next.inj h
    exact .inl (s.tick_run timer)
  | keyUp k =>
    obtain rfl := Host.Outcome.next.inj h
    exact .inl (s.releaseKey_run k)
  | reset =>
    obtain rfl := Host.Outcome.next.inj h
    exact .inr ⟨rfl, .inl rfl⟩
  | keyDown k =>
    obtain rfl := Host.Outcome.next.inj h
    rcases s.pressKey_run k with hr | ⟨hk, hr⟩
    · exact .inl hr
    · exact .inr ⟨hr, .inr ⟨k, rfl, hk⟩⟩

/-! ## Entering the wait -/

/-- Of the instructions, FX0A alone enters the wait (R265). -/
theorem exec_enters_wait {i : Instr} {s t : State} {x : Reg} (hs : s.run ≠ .awaitingKey x)
    (h : exec i s = .next t) (ht : t.run = .awaitingKey x) : i = .ldKey x := by
  rcases exec_answer i s with ⟨kind, -, he⟩ | ⟨-, u, he, -, hr⟩
  · obtain rfl := Host.Outcome.next.inj (he.symm.trans h)
    cases ht
  · obtain rfl := Host.Outcome.next.inj (he.symm.trans h)
    rcases hr with hr | ⟨y, rfl, hr⟩
    · exact absurd (hr.symm.trans ht) hs
    · obtain rfl := RunState.awaitingKey.inj (hr.symm.trans ht)
      rfl

/-- A core step that enters the wait has fetched FX0A: a fetch fault or an unknown opcode does not. -/
theorem fetchDecodeExecute_enters_wait {s t : State} {x : Reg} (hs : s.run ≠ .awaitingKey x)
    (h : fetchDecodeExecute s = .next t) (ht : t.run = .awaitingKey x) :
    ∃ w, s.fetchWord = some w ∧ decode w = .ok (.ldKey x) := by
  rcases fetchDecodeExecute_cases s with ⟨-, hf⟩ | ⟨w, e, -, -, hf⟩ | ⟨w, i, hw, hd, hf⟩
  · obtain rfl := Host.Outcome.next.inj (hf.symm.trans h)
    cases ht
  · obtain rfl := Host.Outcome.next.inj (hf.symm.trans h)
    cases ht
  · obtain rfl := exec_enters_wait hs (hf.symm.trans h) ht
    exact ⟨w, hw, hd⟩

theorem clockEdge_enters_wait {s t : State} {x : Reg} (hs : s.run ≠ .awaitingKey x)
    (h : clockEdge s = .next t) (ht : t.run = .awaitingKey x) :
    ∃ w, s.fetchWord = some w ∧ decode w = .ok (.ldKey x) := by
  rcases clockEdge_cases s with ⟨-, -, hc⟩ | ⟨-, hc⟩
  · exact fetchDecodeExecute_enters_wait (s := s.start) hs (hc.symm.trans h) ht
  · obtain rfl := Host.Outcome.next.inj (hc.symm.trans h)
    exact absurd ht hs

/-- Of the events, only a clock tick at an FX0A enters the wait (R321). -/
theorem deliver_enters_wait {e : Input} {s t : State} {x : Reg} (hs : s.run ≠ .awaitingKey x)
    (h : deliver e s = .next t) (ht : t.run = .awaitingKey x) :
    e = .clkInstr ∧ ∃ w, s.fetchWord = some w ∧ decode w = .ok (.ldKey x) := by
  by_cases he : e = .clkInstr
  · subst he
    exact ⟨rfl, clockEdge_enters_wait hs h ht⟩
  · rcases deliver_run he h with hr | ⟨hr, -⟩
    · exact absurd (hr.symm.trans ht) hs
    · cases hr.symm.trans ht

/-! ## In the wait -/

/-- The clock changes nothing while the core waits: no fetch (R266). -/
theorem eq_of_clockEdge_of_wait {s t : State} {x : Reg} (hs : s.run = .awaitingKey x)
    (h : clockEdge s = .next t) : t = s :=
  have hr : s.run ≠ .running := by simp [hs]
  Host.Outcome.next.inj (h.symm.trans (clockEdge_of_not_running hr))

/-- The wait is left only by a new key-down or a reset (R321). -/
theorem deliver_leaves_wait {e : Input} {s t : State} {x : Reg} (hs : s.run = .awaitingKey x)
    (h : deliver e s = .next t) :
    t.run = s.run ∨ e = .reset ∨ ∃ k, e = .keyDown k ∧ s.keyDown? k = false := by
  by_cases he : e = .clkInstr
  · subst he
    exact .inl (congrArg State.run (eq_of_clockEdge_of_wait hs h))
  · exact (deliver_run he h).imp_right And.right

/-- The clock and the timers keep everything but DT and ST while the core waits (R321). -/
theorem deliver_tick_frame_of_wait {e : Input} {s t : State} {x : Reg} {parts : List Part}
    (hd : Part.dt ∈ parts) (hst : Part.st ∈ parts) (hs : s.run = .awaitingKey x) (he : e.isTick = true)
    (h : deliver e s = .next t) : s.sameBut parts t := by
  cases e with
  | clkInstr =>
    obtain rfl := eq_of_clockEdge_of_wait hs h
    exact t.sameBut_refl _
  | tick timer =>
    obtain rfl := Host.Outcome.next.inj h
    exact (s.sameBut_refl _).tick hd hst timer
  | keyDown _ | keyUp _ | reset | load _ _ => cases he

theorem State.sameBut.setKey {s t : State} {parts : List Part} (h : s.sameBut parts t) (hm : Part.key ∈ parts)
    (k : Fin Config.numKeys) (b : Bool) : s.sameBut parts (t.setKey k b) := by
  intro p hp
  cases p with
  | key => exact absurd hm hp
  | _ => exact h _ hp

/-- A key-down that does not complete the wait changes nothing: the key was down already (R266). -/
theorem State.pressKey_eq_self_of_wait {s : State} {x : Reg} {k : Fin Config.numKeys}
    (hs : s.run = .awaitingKey x) (hr : (s.pressKey k).run = s.run) : s.pressKey k = s := by
  rcases s.pressKey_cases k with ⟨y, -, -, hp⟩ | ⟨-, -, -, hp⟩ | ⟨hn, -⟩
  · rw [hp, hs] at hr
    cases hr
  · exact hp
  · exact absurd hs (hn x)

/-- Whatever leaves a started core waiting changes at most DT, ST and the keys (R321). -/
theorem deliver_frame_of_still_waiting {e : Input} {s t : State} {x : Reg} (hs : s.run = .awaitingKey x)
    (hg : s.stage = .started) (h : deliver e s = .next t) (hr : t.run = s.run) :
    s.sameBut [.dt, .st, .key] t := by
  cases e with
  | clkInstr | tick _ => exact deliver_tick_frame_of_wait (by decide) (by decide) hs rfl h
  | keyDown k =>
    obtain rfl := Host.Outcome.next.inj h
    rw [State.pressKey_eq_self_of_wait hs hr]
    exact s.sameBut_refl _
  | keyUp k =>
    obtain rfl := Host.Outcome.next.inj h
    exact (s.sameBut_refl _).setKey (by decide) k false
  | reset =>
    obtain rfl := Host.Outcome.next.inj h
    cases hr.trans hs
  | load offset bytes =>
    rcases loadEvent_cases offset bytes s with ⟨-, hl⟩ | ⟨hn, -⟩ | ⟨hn, -⟩
    · cases hl.symm.trans h
    · exact absurd hg hn
    · exact absurd hg hn

/-- Settles O49: an execution keeps RUN, faults, or is FX0A's; of the events but the clock's only a reset and a new
key-down change RUN, to RUNNING; and in the wait the clock answers the same state. -/
theorem keyWaitIsTheOnlyWait : Obligations.KeyWaitIsTheOnlyWait :=
  ⟨fun _ _ _ _ hr => exec_enters_wait (by simp [hr]), fun _ _ x _ hs => deliver_enters_wait (hs x),
    fun _ _ _ _ => deliver_leaves_wait,
    fun _ _ _ _ => deliver_tick_frame_of_wait (by decide) (by decide),
    fun _ _ _ _ => deliver_frame_of_still_waiting⟩

end Sys2Proof.Machine
end

section
/-! Decoding and encoding (30_encoding.md): the round trip both ways, and the illegal words. -/
namespace Sys2Proof

open Machine

/-! ## Decode after encode -/

/-- Settles O1: the fields of the encoded word are the operands, family by family. -/
theorem decodeOfEncodeIsIdentity : Obligations.DecodeOfEncodeIsIdentity := by
  intro i hwf
  cases i with
  | cls k | ret k =>
    have hk : k.toNat < 16 := k.isLt
    simp [encode, decode, fieldF_wordXB, decodeFamily0, lowByte_wordXB, ignoredX_wordXB, hk]
  | jp nnn | call nnn | ldI nnn | jpV0 nnn =>
    have hnnn : nnn.toNat < 4096 := nnn.isLt
    simp [encode, decode, fieldF_wordA, fieldNNN_wordA, hnnn]
  | seByte x nn | sneByte x nn | ldByte x nn | addByte x nn | rnd x nn =>
    have hnn : nn.toNat < 256 := nn.isLt
    simp [encode, decode, fieldF_wordXB, fieldX_wordXB, fieldNN_wordXB, hnn]
  | seReg x y | sneReg x y =>
    simp [encode, decode, decodeFamily5, decodeFamily9, fieldF_word4, fieldN_word4, fieldX_word4, fieldY_word4]
  | ldReg x y | orReg x y | andReg x y | xorReg x y | addReg x y | subReg x y | subnReg x y =>
    simp [encode, decode, decodeFamily8, fieldF_word4, fieldN_word4, fieldX_word4, fieldY_word4]
  | shr x k | shl x k =>
    have hk : k.toNat < 16 := k.isLt
    simp [encode, decode, decodeFamily8, fieldF_word4, fieldN_word4, fieldX_word4, ignoredY_word4, hk]
  | drw x y n =>
    have hn : n < 16 := Nat.lt_succ_of_le (of_decide_eq_true hwf)
    simp [encode, decode, fieldF_word4, fieldN_word4, fieldX_word4, fieldY_word4, hn]
  | skp x | sknp x =>
    simp [encode, decode, decodeFamilyE, fieldF_wordXB, lowByte_wordXB, fieldX_wordXB]
  | ldFromDt x | ldKey x | ldDt x | ldSt x | addI x | ldF x | ldB x | storeRegs x | loadRegs x =>
    simp [encode, decode, decodeFamilyF, fieldF_wordXB, lowByte_wordXB, fieldX_wordXB]

/-! ## Encode after decode -/

/-- A word of the formats FXNN and F-NN from its family, its second nibble and its low byte. -/
theorem wordXB_of_fields {w : Word} {f x b : Nat} (hf : fieldF w = f) (hx : w.toNat / 256 % 16 = x)
    (hb : bits w 7 0 = b) : wordXB f x b = w := by
  rw [fieldF_eq] at hf
  rw [bits_7_0] at hb
  apply BitVec.eq_of_toNat_eq
  rw [toNat_wordXB] <;> omega

/-- A word of the format FXYN from its four nibbles. -/
theorem word4_of_fields {w : Word} {f x y n : Nat} (hf : fieldF w = f) (hx : w.toNat / 256 % 16 = x)
    (hy : w.toNat / 16 % 16 = y) (hn : fieldN w = n) : word4 f x y n = w := by
  rw [fieldF_eq] at hf
  rw [fieldN_eq] at hn
  apply BitVec.eq_of_toNat_eq
  rw [toNat_word4] <;> omega

/-- A word of the format FNNN from its family. -/
theorem wordA_of_fields {w : Word} {f : Nat} (hf : fieldF w = f) : wordA f (fieldNNN w).toNat = w := by
  rw [fieldF_eq] at hf
  apply BitVec.eq_of_toNat_eq
  rw [fieldNNN_toNat, toNat_wordA] <;> omega

/-- What decoding a word may answer: an instruction whose word it is, and then the word is legal, or UnknownOpcode
with the word, and then it is illegal (R93, R94). -/
def DecodeAnswer (w : Word) (r : Except DecodeError Instr) : Prop :=
  (∃ i, r = .ok i ∧ encode i = w ∧ i.WellFormed ∧ ¬ illegalWord w) ∨
    (r = .error (.unknownOpcode w) ∧ illegalWord w)

theorem DecodeAnswer.legal {w : Word} {i : Instr} (he : encode i = w) (hwf : i.WellFormed)
    (hl : ¬ illegalWord w) : DecodeAnswer w (.ok i) := .inl ⟨i, rfl, he, hwf, hl⟩

theorem DecodeAnswer.illegal {w : Word} (hl : illegalWord w) : DecodeAnswer w (.error (.unknownOpcode w)) :=
  .inr ⟨rfl, hl⟩

theorem decodeFamily0_answer {w : Word} (hF : fieldF w = 0x0) : DecodeAnswer w (decodeFamily0 w) := by
  unfold decodeFamily0
  split
  case h_3 h1 h2 => exact .illegal (.inl ⟨hF, by simpa using ⟨h1, h2⟩⟩)
  all_goals
    rename_i hB
    exact .legal (wordXB_of_fields hF (ignoredX_toNat w).symm hB) rfl (by simp [illegalWord, hF, hB])

theorem decodeFamily5_answer {w : Word} (hF : fieldF w = 0x5) : DecodeAnswer w (decodeFamily5 w) := by
  unfold decodeFamily5
  split
  · next hN =>
    exact .legal (word4_of_fields hF (fieldX_val w).symm (fieldY_val w).symm hN) rfl (by simp [illegalWord, hF, hN])
  · next hN => exact .illegal (.inr (.inl ⟨hF, hN⟩))

theorem decodeFamily8_answer {w : Word} (hF : fieldF w = 0x8) : DecodeAnswer w (decodeFamily8 w) := by
  unfold decodeFamily8
  split
  case h_10 h0 h1 h2 h3 h4 h5 h6 h7 hE =>
    have hlt : fieldN w < 16 := bits_lt w 3 0
    have hN : fieldN w ∈ [0x8, 0x9, 0xA, 0xB, 0xC, 0xD, 0xF] := by
      simp only [imp_false] at h0 h1 h2 h3 h4 h5 h6 h7 hE
      simp only [List.mem_cons, List.not_mem_nil, or_false]
      omega
    exact .illegal (.inr (.inr (.inl ⟨hF, hN⟩)))
  case h_7 hN | h_9 hN =>
    exact .legal (word4_of_fields hF (fieldX_val w).symm (ignoredY_toNat w).symm hN) rfl
      (by simp [illegalWord, hF, hN])
  all_goals
    rename_i hN
    exact .legal (word4_of_fields hF (fieldX_val w).symm (fieldY_val w).symm hN) rfl (by simp [illegalWord, hF, hN])

theorem decodeFamily9_answer {w : Word} (hF : fieldF w = 0x9) : DecodeAnswer w (decodeFamily9 w) := by
  unfold decodeFamily9
  split
  · next hN =>
    exact .legal (word4_of_fields hF (fieldX_val w).symm (fieldY_val w).symm hN) rfl (by simp [illegalWord, hF, hN])
  · next hN => exact .illegal (.inr (.inr (.inr (.inl ⟨hF, hN⟩))))

theorem decodeFamilyE_answer {w : Word} (hF : fieldF w = 0xE) : DecodeAnswer w (decodeFamilyE w) := by
  unfold decodeFamilyE
  split
  case h_3 h1 h2 => exact .illegal (.inr (.inr (.inr (.inr (.inl ⟨hF, by simpa using ⟨h1, h2⟩⟩)))))
  all_goals
    rename_i hB
    exact .legal (wordXB_of_fields hF (fieldX_val w).symm hB) rfl (by simp [illegalWord, hF, hB])

theorem decodeFamilyF_answer {w : Word} (hF : fieldF w = 0xF) : DecodeAnswer w (decodeFamilyF w) := by
  unfold decodeFamilyF
  split
  case h_10 h1 h2 h3 h4 h5 h6 h7 h8 h9 =>
    exact .illegal (.inr (.inr (.inr (.inr (.inr ⟨hF, by simpa using ⟨h1, h2, h3, h4, h5, h6, h7, h8, h9⟩⟩)))))
  all_goals
    rename_i hB
    exact .legal (wordXB_of_fields hF (fieldX_val w).symm hB) rfl (by simp [illegalWord, hF, hB])

/-- Every word is an instruction's, or illegal (R93, R94). -/
theorem decode_answer (w : Word) : DecodeAnswer w (decode w) := by
  have hnn : bits w 7 0 = (fieldNN w).toNat := by rw [bits_7_0, fieldNN_toNat]
  unfold decode
  split
  case h_1 hF => exact decodeFamily0_answer hF
  case h_6 hF => exact decodeFamily5_answer hF
  case h_9 hF => exact decodeFamily8_answer hF
  case h_10 hF => exact decodeFamily9_answer hF
  case h_15 hF => exact decodeFamilyE_answer hF
  case h_16 hF => exact decodeFamilyF_answer hF
  case h_2 hF | h_3 hF | h_11 hF | h_12 hF => exact .legal (wordA_of_fields hF) rfl (by simp [illegalWord, hF])
  case h_4 hF | h_5 hF | h_7 hF | h_8 hF | h_13 hF =>
    exact .legal (wordXB_of_fields hF (fieldX_val w).symm hnn) rfl (by simp [illegalWord, hF])
  case h_14 hF =>
    have hN : fieldN w ≤ 15 := Nat.le_of_lt_succ (bits_lt w 3 0)
    exact .legal (word4_of_fields hF (fieldX_val w).symm (fieldY_val w).symm rfl) (decide_eq_true hN)
      (by simp [illegalWord, hF])
  case h_17 =>
    have hlt : fieldF w < 16 := bits_lt w 15 12
    simp only [imp_false] at *
    omega

/-- Settles O2: the decoded instruction is the one whose word this is. -/
theorem encodeOfDecodeIsIdentity : Obligations.EncodeOfDecodeIsIdentity := by
  intro w i h
  rcases decode_answer w with ⟨j, hj, he, hwf, -⟩ | ⟨hn, -⟩
  · obtain rfl := Except.ok.inj (hj.symm.trans h)
    exact ⟨he, hwf⟩
  · cases hn.symm.trans h

/-- Settles O3: an instruction's word is legal, and a word that is no instruction's is illegal. -/
theorem unknownOpcodeExactlyOnIllegalWords : Obligations.UnknownOpcodeExactlyOnIllegalWords := by
  intro w
  rcases decode_answer w with ⟨i, hi, -, -, hl⟩ | ⟨he, hl⟩
  · exact ⟨fun h => absurd h hl, fun _ => ⟨i, hi⟩⟩
  · exact ⟨fun _ => he, fun h => absurd hl h⟩

/-! ## The rows of the opcode map -/

theorem decode_addByte_row {w : Word} (h : w &&& 0xF000 = 0x7000) :
    decode w = .ok (.addByte (fieldX w) (fieldNN w)) := by
  have hF : fieldF w = 0x7 := fieldF_of_and_F000 h (by decide)
  simp only [decode, hF]

theorem decode_jpV0_row {w : Word} (h : w &&& 0xF000 = 0xB000) : decode w = .ok (.jpV0 (fieldNNN w)) := by
  have hF : fieldF w = 0xB := fieldF_of_and_F000 h (by decide)
  simp only [decode, hF]

theorem decode_rnd_row {w : Word} (h : w &&& 0xF000 = 0xC000) : decode w = .ok (.rnd (fieldX w) (fieldNN w)) := by
  have hF : fieldF w = 0xC := fieldF_of_and_F000 h (by decide)
  simp only [decode, hF]

theorem decode_drw_row {w : Word} (h : w &&& 0xF000 = 0xD000) :
    decode w = .ok (.drw (fieldX w) (fieldY w) (fieldN w)) := by
  have hF : fieldF w = 0xD := fieldF_of_and_F000 h (by decide)
  simp only [decode, hF]

theorem decode_ldReg_row {w : Word} (h : w &&& 0xF00F = 0x8000) :
    decode w = .ok (.ldReg (fieldX w) (fieldY w)) := by
  obtain ⟨hd, hN⟩ : _ ∧ fieldN w = 0x0 := decode_of_and_F00F_family8 h (by decide) (by decide)
  simp only [hd, decodeFamily8, hN]

theorem decode_shr_row {w : Word} (h : w &&& 0xF00F = 0x8006) :
    decode w = .ok (.shr (fieldX w) (ignoredY w)) := by
  obtain ⟨hd, hN⟩ : _ ∧ fieldN w = 0x6 := decode_of_and_F00F_family8 h (by decide) (by decide)
  simp only [hd, decodeFamily8, hN]

theorem decode_shl_row {w : Word} (h : w &&& 0xF00F = 0x800E) :
    decode w = .ok (.shl (fieldX w) (ignoredY w)) := by
  obtain ⟨hd, hN⟩ : _ ∧ fieldN w = 0xE := decode_of_and_F00F_family8 h (by decide) (by decide)
  simp only [hd, decodeFamily8, hN]

theorem decode_skp_row {w : Word} (h : w &&& 0xF0FF = 0xE09E) : decode w = .ok (.skp (fieldX w)) := by
  obtain ⟨hF, hB⟩ : fieldF w = 0xE ∧ bits w 7 0 = 0x9E := fields_of_and_F0FF h (by decide)
  simp only [decode, hF, decodeFamilyE, hB]

theorem decode_sknp_row {w : Word} (h : w &&& 0xF0FF = 0xE0A1) : decode w = .ok (.sknp (fieldX w)) := by
  obtain ⟨hF, hB⟩ : fieldF w = 0xE ∧ bits w 7 0 = 0xA1 := fields_of_and_F0FF h (by decide)
  simp only [decode, hF, decodeFamilyE, hB]

theorem decode_ldKey_row {w : Word} (h : w &&& 0xF0FF = 0xF00A) : decode w = .ok (.ldKey (fieldX w)) := by
  obtain ⟨hd, hB⟩ : _ ∧ bits w 7 0 = 0x0A := decode_of_and_F0FF_familyF h (by decide) (by decide)
  simp only [hd, decodeFamilyF, hB]

theorem decode_addI_row {w : Word} (h : w &&& 0xF0FF = 0xF01E) : decode w = .ok (.addI (fieldX w)) := by
  obtain ⟨hd, hB⟩ : _ ∧ bits w 7 0 = 0x1E := decode_of_and_F0FF_familyF h (by decide) (by decide)
  simp only [hd, decodeFamilyF, hB]

theorem decode_ldF_row {w : Word} (h : w &&& 0xF0FF = 0xF029) : decode w = .ok (.ldF (fieldX w)) := by
  obtain ⟨hd, hB⟩ : _ ∧ bits w 7 0 = 0x29 := decode_of_and_F0FF_familyF h (by decide) (by decide)
  simp only [hd, decodeFamilyF, hB]

theorem decode_storeRegs_row {w : Word} (h : w &&& 0xF0FF = 0xF055) : decode w = .ok (.storeRegs (fieldX w)) := by
  obtain ⟨hd, hB⟩ : _ ∧ bits w 7 0 = 0x55 := decode_of_and_F0FF_familyF h (by decide) (by decide)
  simp only [hd, decodeFamilyF, hB]

theorem decode_loadRegs_row {w : Word} (h : w &&& 0xF0FF = 0xF065) : decode w = .ok (.loadRegs (fieldX w)) := by
  obtain ⟨hd, hB⟩ : _ ∧ bits w 7 0 = 0x65 := decode_of_and_F0FF_familyF h (by decide) (by decide)
  simp only [hd, decodeFamilyF, hB]

/-- A word that a row's mask and match select decodes to an instruction of the row. -/
theorem decode_of_selects {w : Word} {j : Instr} (h : j.row.selects w = true) :
    ∃ i, decode w = .ok i ∧ i.row = j.row := by
  have hm : w &&& j.row.mask = j.row.value := beq_iff_eq.mp h
  cases j with
  | cls _ => exact ⟨_, decode_cls_row hm, rfl⟩
  | ret _ => exact ⟨_, decode_ret_row hm, rfl⟩
  | jp _ => exact ⟨_, decode_jp_row hm, rfl⟩
  | call _ => exact ⟨_, decode_call_row hm, rfl⟩
  | seByte _ _ => exact ⟨_, decode_seByte_row hm, rfl⟩
  | sneByte _ _ => exact ⟨_, decode_sneByte_row hm, rfl⟩
  | seReg _ _ => exact ⟨_, decode_seReg_row hm, rfl⟩
  | ldByte _ _ => exact ⟨_, decode_ldByte_row hm, rfl⟩
  | addByte _ _ => exact ⟨_, decode_addByte_row hm, rfl⟩
  | ldReg _ _ => exact ⟨_, decode_ldReg_row hm, rfl⟩
  | orReg _ _ => exact ⟨_, decode_orReg_row hm, rfl⟩
  | andReg _ _ => exact ⟨_, decode_andReg_row hm, rfl⟩
  | xorReg _ _ => exact ⟨_, decode_xorReg_row hm, rfl⟩
  | addReg _ _ => exact ⟨_, decode_addReg_row hm, rfl⟩
  | subReg _ _ => exact ⟨_, decode_subReg_row hm, rfl⟩
  | shr _ _ => exact ⟨_, decode_shr_row hm, rfl⟩
  | subnReg _ _ => exact ⟨_, decode_subnReg_row hm, rfl⟩
  | shl _ _ => exact ⟨_, decode_shl_row hm, rfl⟩
  | sneReg _ _ => exact ⟨_, decode_sneReg_row hm, rfl⟩
  | ldI _ => exact ⟨_, decode_ldI_row hm, rfl⟩
  | jpV0 _ => exact ⟨_, decode_jpV0_row hm, rfl⟩
  | rnd _ _ => exact ⟨_, decode_rnd_row hm, rfl⟩
  | drw _ _ _ => exact ⟨_, decode_drw_row hm, rfl⟩
  | skp _ => exact ⟨_, decode_skp_row hm, rfl⟩
  | sknp _ => exact ⟨_, decode_sknp_row hm, rfl⟩
  | ldFromDt _ => exact ⟨_, decode_ldFromDt_row hm, rfl⟩
  | ldKey _ => exact ⟨_, decode_ldKey_row hm, rfl⟩
  | ldDt _ => exact ⟨_, decode_ldDt_row hm, rfl⟩
  | ldSt _ => exact ⟨_, decode_ldSt_row hm, rfl⟩
  | addI _ => exact ⟨_, decode_addI_row hm, rfl⟩
  | ldF _ => exact ⟨_, decode_ldF_row hm, rfl⟩
  | ldB _ => exact ⟨_, decode_ldB_row hm, rfl⟩
  | storeRegs _ => exact ⟨_, decode_storeRegs_row hm, rfl⟩
  | loadRegs _ => exact ⟨_, decode_loadRegs_row hm, rfl⟩

/-- The word of a well-formed instruction is one of its own row. -/
theorem selects_encode {i : Instr} (hwf : i.WellFormed) : i.row.selects (encode i) = true := by
  cases i with
  | cls a => exact Laws.EncodedRow.cls a hwf
  | ret a => exact Laws.EncodedRow.ret a hwf
  | jp a => exact Laws.EncodedRow.jp a hwf
  | call a => exact Laws.EncodedRow.call a hwf
  | seByte a b => exact Laws.EncodedRow.seByte a b hwf
  | sneByte a b => exact Laws.EncodedRow.sneByte a b hwf
  | seReg a b => exact Laws.EncodedRow.seReg a b hwf
  | ldByte a b => exact Laws.EncodedRow.ldByte a b hwf
  | addByte a b => exact Laws.EncodedRow.addByte a b hwf
  | ldReg a b => exact Laws.EncodedRow.ldReg a b hwf
  | orReg a b => exact Laws.EncodedRow.orReg a b hwf
  | andReg a b => exact Laws.EncodedRow.andReg a b hwf
  | xorReg a b => exact Laws.EncodedRow.xorReg a b hwf
  | addReg a b => exact Laws.EncodedRow.addReg a b hwf
  | subReg a b => exact Laws.EncodedRow.subReg a b hwf
  | shr a b => exact Laws.EncodedRow.shr a b hwf
  | subnReg a b => exact Laws.EncodedRow.subnReg a b hwf
  | shl a b => exact Laws.EncodedRow.shl a b hwf
  | sneReg a b => exact Laws.EncodedRow.sneReg a b hwf
  | ldI a => exact Laws.EncodedRow.ldI a hwf
  | jpV0 a => exact Laws.EncodedRow.jpV0 a hwf
  | rnd a b => exact Laws.EncodedRow.rnd a b hwf
  | drw a b c => exact Laws.EncodedRow.drw a b c hwf
  | skp a => exact Laws.EncodedRow.skp a hwf
  | sknp a => exact Laws.EncodedRow.sknp a hwf
  | ldFromDt a => exact Laws.EncodedRow.ldFromDt a hwf
  | ldKey a => exact Laws.EncodedRow.ldKey a hwf
  | ldDt a => exact Laws.EncodedRow.ldDt a hwf
  | ldSt a => exact Laws.EncodedRow.ldSt a hwf
  | addI a => exact Laws.EncodedRow.addI a hwf
  | ldF a => exact Laws.EncodedRow.ldF a hwf
  | ldB a => exact Laws.EncodedRow.ldB a hwf
  | storeRegs a => exact Laws.EncodedRow.storeRegs a hwf
  | loadRegs a => exact Laws.EncodedRow.loadRegs a hwf

/-- Settles O5: the decoder evaluates on each word. -/
theorem writtenWordsDecode : Obligations.WrittenWordsDecode := by
  unfold Obligations.WrittenWordsDecode
  decide

/-- Settles O4: the rows one way, and the round trip of O2 with the rows of the encoded words the other. -/
theorem decodeFollowsOpcodeMap : Obligations.DecodeFollowsOpcodeMap := by
  refine fun w j => ⟨decode_of_selects, fun ⟨i, hd, hrow⟩ => ?_⟩
  obtain ⟨rfl, hwf⟩ := encodeOfDecodeIsIdentity w i hd
  exact hrow ▸ selects_encode hwf

end Sys2Proof
end

section
/-! What an instruction that does not fault leaves unchanged (10_state.md). -/
namespace Sys2Proof.Machine

open Sys2Proof

/-! ## Frames of the operations left -/

theorem State.sameBut.setRun {s t : State} {parts : List Part} (h : s.sameBut parts t) (hm : Part.run ∈ parts)
    (q : RunState) : s.sameBut parts (t.setRun q) := by
  intro p hp
  cases p with
  | run => exact absurd hm hp
  | _ => exact h _ hp

theorem State.sameBut.setStage {s t : State} {parts : List Part} (h : s.sameBut parts t)
    (hm : Part.stage ∈ parts) (g : BootStage) : s.sameBut parts (t.setStage g) := by
  intro p hp
  cases p with
  | stage => exact absurd hm hp
  | _ => exact h _ hp

theorem State.sameBut.setVs {s t : State} {parts : List Part} (h : s.sameBut parts t) (hm : Part.v ∈ parts)
    (bytes : List Byte) : s.sameBut parts (t.setVs bytes) := by
  intro p hp
  cases p with
  | v => exact absurd hm hp
  | _ => exact h _ hp

theorem State.sameBut.countDraw {s t : State} {parts : List Part} (h : s.sameBut parts t)
    (hm : Part.draws ∈ parts) : s.sameBut parts t.countDraw := by
  intro p hp
  cases p with
  | draws => exact absurd hm hp
  | _ => exact h _ hp

/-! ## The bytes a multi-byte read answers -/

theorem Memory.readBytes_some {m : Memory} {a n : Nat} {bytes : List Byte}
    (h : Memory.readBytes m a n = some bytes) : bytes = (List.range n).map fun k => Memory.peek m (a + k) := by
  rw [Memory.readBytes_eq] at h
  split at h
  · exact (Option.some.inj h).symm
  · cases h

theorem Memory.length_readBytes {m : Memory} {a n : Nat} {bytes : List Byte}
    (h : Memory.readBytes m a n = some bytes) : bytes.length = n := by
  simp [Memory.readBytes_some h]

/-! ## The next state of the instructions that can fault, where they do not: from what they read, and back -/

section
variable {s : State} {x y : Reg}

theorem exec_drw_of_reads {n : Nat} {rows : List Byte} (h : Memory.readBytes s.mem (s.effAddr 0) n = some rows) :
    exec (.drw x y n) s =
      .next ((s.setScreen (s.screen.blit (s.getV x).toNat (s.getV y).toNat rows).1).setFlag
        (flagOf (s.screen.blit (s.getV x).toNat (s.getV y).toNat rows).2)).advance := by
  simp only [exec, execDrw, h]

theorem exec_skp_of_operand {k : Fin Config.numKeys} (h : s.keyOperand x = some k) :
    exec (.skp x) s = .next (s.skipIf (s.keyDown? k)) := by
  simp only [exec, execSkp, h]

theorem exec_sknp_of_operand {k : Fin Config.numKeys} (h : s.keyOperand x = some k) :
    exec (.sknp x) s = .next (s.skipIf (!(s.keyDown? k))) := by
  simp only [exec, execSknp, h]

theorem exec_ldF_of_operand {d : Fin Config.glyphCount} (h : s.digitOperand x = some d) :
    exec (.ldF x) s = .next (s.setI (glyphAddr d.val)).advance := by
  simp only [exec, execLdF, h]

theorem exec_loadRegs_of_reads {bytes : List Byte}
    (h : Memory.readBytes s.mem (s.effAddr 0) (x.val + 1) = some bytes) :
    exec (.loadRegs x) s = .next (s.setVs bytes).advance := by
  simp only [exec, execLoadRegs, h]

theorem storeAtI_of_writes {word : Word} {bytes : List Byte} {m : Memory}
    (h : Memory.writeBytes s.mem (s.effAddr 0) bytes = some m) :
    storeAtI word bytes s = .next (s.setMem m).advance := by
  simp only [storeAtI, h]

end

section
variable {s t : State} {x y : Reg} (ht : t.isFaulted = false)
include ht

theorem exec_ret_next {k : Nibble} (h : exec (.ret k) s = .next t) :
    ∃ (n : Nat) (hn : n < Config.stackDepth), s.sp.val = n + 1 ∧
      t = (s.setSp ⟨n, Nat.lt_succ_of_lt hn⟩).setPc s.stack[n] := by
  rcases Nat.eq_zero_or_pos s.sp.val with h0 | hpos
  · exact absurd ((exec_of_execFault (i := .ret k) (if_pos h0)).symm.trans h) (raise_ne_next ht)
  · have hn : s.sp.val - 1 < Config.stackDepth := by have := s.sp.isLt; omega
    have hsp : s.sp.val = s.sp.val - 1 + 1 := by omega
    exact ⟨_, hn, hsp, Host.Outcome.next.inj (h.symm.trans (exec_ret_of_succ k s hn hsp))⟩

theorem exec_call_next {nnn : Addr12} (h : exec (.call nnn) s = .next t) :
    ∃ hsp : s.sp.val < Config.stackDepth, t = ((s.setEntry ⟨s.sp.val, hsp⟩ (s.pc + 2)).setSp
      ⟨s.sp.val + 1, Nat.succ_lt_succ hsp⟩).setPc (pcOfAddr nnn) := by
  rcases Nat.lt_or_ge s.sp.val Config.stackDepth with hsp | hfull
  · exact ⟨hsp, Host.Outcome.next.inj (h.symm.trans (exec_call_of_lt nnn s hsp))⟩
  · have h16 : s.sp.val = 16 := Nat.le_antisymm (Nat.le_of_lt_succ s.sp.isLt) hfull
    exact absurd ((exec_of_execFault (i := .call nnn) (if_pos h16)).symm.trans h) (raise_ne_next ht)

theorem exec_drw_next {n : Nat} (h : exec (.drw x y n) s = .next t) :
    ∃ rows, Memory.readBytes s.mem (s.effAddr 0) n = some rows ∧
      t = ((s.setScreen (s.screen.blit (s.getV x).toNat (s.getV y).toNat rows).1).setFlag
        (flagOf (s.screen.blit (s.getV x).toNat (s.getV y).toNat rows).2)).advance := by
  cases hrows : Memory.readBytes s.mem (s.effAddr 0) n with
  | none =>
    simp only [exec, execDrw, hrows] at h
    exact absurd h (raise_ne_next ht)
  | some rows => exact ⟨rows, rfl, Host.Outcome.next.inj (h.symm.trans (exec_drw_of_reads hrows))⟩

theorem exec_skp_next (h : exec (.skp x) s = .next t) :
    ∃ k, s.keyOperand x = some k ∧ t = s.skipIf (s.keyDown? k) := by
  cases hk : s.keyOperand x with
  | none =>
    simp only [exec, execSkp, hk] at h
    exact absurd h (raise_ne_next ht)
  | some k => exact ⟨k, rfl, Host.Outcome.next.inj (h.symm.trans (exec_skp_of_operand hk))⟩

theorem exec_sknp_next (h : exec (.sknp x) s = .next t) :
    ∃ k, s.keyOperand x = some k ∧ t = s.skipIf (!(s.keyDown? k)) := by
  cases hk : s.keyOperand x with
  | none =>
    simp only [exec, execSknp, hk] at h
    exact absurd h (raise_ne_next ht)
  | some k => exact ⟨k, rfl, Host.Outcome.next.inj (h.symm.trans (exec_sknp_of_operand hk))⟩

theorem exec_ldF_next (h : exec (.ldF x) s = .next t) :
    ∃ d, s.digitOperand x = some d ∧ t = (s.setI (glyphAddr d.val)).advance := by
  cases hd : s.digitOperand x with
  | none =>
    simp only [exec, execLdF, hd] at h
    exact absurd h (raise_ne_next ht)
  | some d => exact ⟨d, rfl, Host.Outcome.next.inj (h.symm.trans (exec_ldF_of_operand hd))⟩

theorem exec_loadRegs_next (h : exec (.loadRegs x) s = .next t) :
    ∃ bytes, Memory.readBytes s.mem (s.effAddr 0) (x.val + 1) = some bytes ∧ t = (s.setVs bytes).advance := by
  cases hbytes : Memory.readBytes s.mem (s.effAddr 0) (x.val + 1) with
  | none =>
    simp only [exec, execLoadRegs, hbytes] at h
    exact absurd h (raise_ne_next ht)
  | some bytes => exact ⟨bytes, rfl, Host.Outcome.next.inj (h.symm.trans (exec_loadRegs_of_reads hbytes))⟩

theorem storeAtI_next {word : Word} {bytes : List Byte} (h : storeAtI word bytes s = .next t) :
    ∃ m, Memory.writeBytes s.mem (s.effAddr 0) bytes = some m ∧ t = (s.setMem m).advance := by
  rcases storeAtI_cases word bytes s with ⟨m, hm, hs⟩ | ⟨-, hs⟩
  · exact ⟨m, hm, Host.Outcome.next.inj (h.symm.trans hs)⟩
  · exact absurd (hs.symm.trans h) (raise_ne_next ht)

/-! ## The writers of each piece of state and of each register -/

/-- An instruction that does not fault keeps every piece of state it is not listed as a writer of. -/
theorem exec_frame {i : Instr} (h : exec i s = .next t) : s.sameBut (.pc :: mayWrite i) t := by
  have hrefl := s.sameBut_refl (.pc :: mayWrite i)
  cases i with
  | ret _ =>
    obtain ⟨n, hn, -, rfl⟩ := exec_ret_next ht h
    exact (hrefl.setSp (by simp [mayWrite]) _).setPc (by simp) _
  | call _ =>
    obtain ⟨hsp, rfl⟩ := exec_call_next ht h
    exact ((hrefl.setEntry (by simp [mayWrite]) _ _).setSp (by simp [mayWrite]) _).setPc (by simp) _
  | drw _ _ _ =>
    obtain ⟨rows, -, rfl⟩ := exec_drw_next ht h
    exact ((hrefl.setScreen (by simp [mayWrite]) _).setV (by simp [mayWrite]) _ _).setPc (by simp) _
  | skp _ =>
    obtain ⟨k, -, rfl⟩ := exec_skp_next ht h
    exact hrefl.setPc (by simp) _
  | sknp _ =>
    obtain ⟨k, -, rfl⟩ := exec_sknp_next ht h
    exact hrefl.setPc (by simp) _
  | ldF _ =>
    obtain ⟨d, -, rfl⟩ := exec_ldF_next ht h
    exact (hrefl.setI (by simp [mayWrite]) _).setPc (by simp) _
  | loadRegs _ =>
    obtain ⟨bytes, -, rfl⟩ := exec_loadRegs_next ht h
    exact (hrefl.setVs (by simp [mayWrite]) _).setPc (by simp) _
  | ldB _ | storeRegs _ =>
    obtain ⟨m, -, rfl⟩ := storeAtI_next ht h
    exact (hrefl.setMem (by simp [mayWrite]) _).setPc (by simp) _
  | cls _ =>
    obtain rfl := Host.Outcome.next.inj h
    exact (hrefl.setScreen (by simp [mayWrite]) _).setPc (by simp) _
  | jp _ | jpV0 _ | seByte _ _ | sneByte _ _ | seReg _ _ | sneReg _ _ =>
    obtain rfl := Host.Outcome.next.inj h
    exact hrefl.setPc (by simp) _
  | ldByte _ _ | addByte _ _ | ldReg _ _ | orReg _ _ | andReg _ _ | xorReg _ _ | ldFromDt _ =>
    obtain rfl := Host.Outcome.next.inj h
    exact (hrefl.setV (by simp [mayWrite]) _ _).setPc (by simp) _
  | addReg _ _ | subReg _ _ | shr _ _ | subnReg _ _ | shl _ _ =>
    obtain rfl := Host.Outcome.next.inj h
    exact ((hrefl.setV (by simp [mayWrite]) _ _).setV (by simp [mayWrite]) _ _).setPc (by simp) _
  | rnd _ _ =>
    obtain rfl := Host.Outcome.next.inj h
    exact ((hrefl.countDraw (by simp [mayWrite])).setV (by simp [mayWrite]) _ _).setPc (by simp) _
  | ldI _ | addI _ =>
    obtain rfl := Host.Outcome.next.inj h
    exact (hrefl.setI (by simp [mayWrite]) _).setPc (by simp) _
  | ldDt _ =>
    obtain rfl := Host.Outcome.next.inj h
    exact (hrefl.timerWrite_delay (by simp [mayWrite]) _).setPc (by simp) _
  | ldSt _ =>
    obtain rfl := Host.Outcome.next.inj h
    exact (hrefl.timerWrite_sound (by simp [mayWrite]) _).setPc (by simp) _
  | ldKey _ =>
    obtain rfl := Host.Outcome.next.inj h
    exact hrefl.setRun (by simp [mayWrite]) _

/-- An instruction that does not fault keeps every register it is not listed as a writer of. -/
theorem exec_regs_frame {i : Instr} (h : exec i s = .next t) {r : Reg} (hr : ¬ mayWriteReg i r) :
    t.getV r = s.getV r := by
  cases i with
  | drw _ _ _ =>
    obtain ⟨rows, -, rfl⟩ := exec_drw_next ht h
    exact State.getV_setV_other _ hr _
  | loadRegs x =>
    obtain ⟨bytes, hbytes, rfl⟩ := exec_loadRegs_next ht h
    have hlen : bytes.length = x.val + 1 := Memory.length_readBytes hbytes
    have hge : ¬ r.val < bytes.length := fun hlt => hr (show r.val ≤ x.val by omega)
    rw [State.getV_advance, State.getV_setVs, dif_neg hge]
  | ldByte _ _ | addByte _ _ | ldReg _ _ | orReg _ _ | andReg _ _ | xorReg _ _ | ldFromDt _ | rnd _ _ =>
    obtain rfl := Host.Outcome.next.inj h
    exact State.getV_setV_other _ hr _
  | addReg x _ | subReg x _ | shr x _ | subnReg x _ | shl x _ =>
    obtain rfl := Host.Outcome.next.inj h
    obtain ⟨hx, hvf⟩ : r ≠ x ∧ r ≠ Reg.vf := not_or.mp hr
    rw [State.getV_advance, State.getV_setResultFlag, if_neg hvf, if_neg hx]
  | cls _ | ret _ | jp _ | call _ | seByte _ _ | sneByte _ _ | seReg _ _ | sneReg _ _ | ldI _ | jpV0 _ | skp _
  | sknp _ | ldKey _ | ldDt _ | ldSt _ | addI _ | ldF _ | ldB _ | storeRegs _ =>
    exact exec_frame ht h .v (by simp [mayWrite]) r

end

/-- Settles O53: the frame of each instruction, and its registers one by one. -/
theorem onlyListedWritersChangeState : Obligations.OnlyListedWritersChangeState :=
  fun _ _ _ _ h ht => ⟨exec_frame ht h, fun _ => exec_regs_frame ht h⟩

end Sys2Proof.Machine
end

section
/-! The invariant of every step: canonical memory, consistent fault reports, and the boot order (60_exceptions.md
R301 to R303, 70_reset_and_hazards.md R341). -/
namespace Sys2Proof.Machine

open Sys2Proof

/-- A running state in canonical form meets the invariant: it has no report, and need not have started. -/
theorem State.Inv.of_running {s : State} (hwf : Memory.wf s.mem) (hr : s.run = .running) : s.Inv :=
  ⟨hwf, by rw [hr]; trivial, fun hn => absurd hr hn⟩

/-- The invariant speaks of four pieces of state alone. -/
theorem State.Inv.congr {s t : State} (h : s.Inv) (hm : t.mem = s.mem) (hr : t.run = s.run) (hp : t.pc = s.pc)
    (hg : t.stage = s.stage) : t.Inv := by
  unfold State.Inv
  rw [hm, hr, hp, hg]
  exact h

/-- Settles O57: the reset state runs, and its memory lists nothing. -/
theorem resetMeetsInvariant : Obligations.ResetMeetsInvariant := State.Inv.of_running Memory.wf_nil rfl

/-! ## The core's step -/

/-- The fault that R301's table names agrees with the decoding of the word it reports. -/
theorem consistent_of_execFault {w : Word} {i : Instr} {s : State} {kind : FaultKind} (hd : decode w = .ok i)
    (h : execFault i s = some kind) : (RunState.faulted kind (some w) s.pc).consistent s.pc := by
  cases i with
  | ret k =>
    obtain ⟨-, ⟨⟩⟩ := Option.ite_none_right_eq_some.mp h
    exact ⟨rfl, k, hd⟩
  | call nnn =>
    obtain ⟨-, ⟨⟩⟩ := Option.ite_none_right_eq_some.mp h
    exact ⟨rfl, nnn, hd⟩
  | drw x y n =>
    obtain ⟨-, ⟨⟩⟩ := Option.ite_none_right_eq_some.mp h
    exact ⟨rfl, .inl ⟨x, y, n, hd⟩⟩
  | ldB x =>
    obtain ⟨-, ⟨⟩⟩ := Option.ite_none_right_eq_some.mp h
    exact ⟨rfl, .inr (.inl ⟨x, hd⟩)⟩
  | storeRegs x =>
    obtain ⟨-, ⟨⟩⟩ := Option.ite_none_right_eq_some.mp h
    exact ⟨rfl, .inr (.inr (.inl ⟨x, hd⟩))⟩
  | loadRegs x =>
    obtain ⟨-, ⟨⟩⟩ := Option.ite_none_right_eq_some.mp h
    exact ⟨rfl, .inr (.inr (.inr ⟨x, hd⟩))⟩
  | skp x =>
    obtain ⟨-, ⟨⟩⟩ := Option.ite_none_right_eq_some.mp h
    exact ⟨rfl, .inl ⟨x, hd⟩⟩
  | sknp x =>
    obtain ⟨-, ⟨⟩⟩ := Option.ite_none_right_eq_some.mp h
    exact ⟨rfl, .inr (.inl ⟨x, hd⟩)⟩
  | ldF x =>
    obtain ⟨-, ⟨⟩⟩ := Option.ite_none_right_eq_some.mp h
    exact ⟨rfl, .inr (.inr ⟨x, hd⟩)⟩
  | cls _ | jp _ | seByte _ _ | sneByte _ _ | seReg _ _ | ldByte _ _ | addByte _ _ | ldReg _ _ | orReg _ _
  | andReg _ _ | xorReg _ _ | addReg _ _ | subReg _ _ | shr _ _ | subnReg _ _ | shl _ _ | sneReg _ _ | ldI _
  | jpV0 _ | rnd _ _ | ldFromDt _ | ldKey _ | ldDt _ | ldSt _ | addI _ => cases h

/-- An instruction that does not fault writes memory, if at all, by writes that keep the canonical form. -/
theorem exec_mem_wf {i : Instr} {s t : State} (ht : t.isFaulted = false) (h : exec i s = .next t)
    (hwf : Memory.wf s.mem) : Memory.wf t.mem := by
  cases i with
  | ldB _ | storeRegs _ =>
    obtain ⟨m, hm, rfl⟩ := storeAtI_next ht h
    exact Memory.writeBytes_wf hwf hm
  | ret _ =>
    obtain ⟨n, hn, -, rfl⟩ := exec_ret_next ht h
    exact hwf
  | call _ =>
    obtain ⟨hsp, rfl⟩ := exec_call_next ht h
    exact hwf
  | drw _ _ _ =>
    obtain ⟨rows, -, rfl⟩ := exec_drw_next ht h
    exact hwf
  | skp _ =>
    obtain ⟨k, -, rfl⟩ := exec_skp_next ht h
    exact hwf
  | sknp _ =>
    obtain ⟨k, -, rfl⟩ := exec_sknp_next ht h
    exact hwf
  | ldF _ =>
    obtain ⟨d, -, rfl⟩ := exec_ldF_next ht h
    exact hwf
  | loadRegs _ =>
    obtain ⟨bytes, -, rfl⟩ := exec_loadRegs_next ht h
    exact hwf
  | cls _ | jp _ | seByte _ _ | sneByte _ _ | seReg _ _ | ldByte _ _ | addByte _ _ | ldReg _ _ | orReg _ _
  | andReg _ _ | xorReg _ _ | addReg _ _ | subReg _ _ | shr _ _ | subnReg _ _ | shl _ _ | sneReg _ _ | ldI _
  | jpV0 _ | rnd _ _ | ldFromDt _ | ldKey _ | ldDt _ | ldSt _ | addI _ =>
    obtain rfl := Host.Outcome.next.inj h
    exact hwf

/-- No instruction changes the boot stage. -/
theorem exec_stage {i : Instr} {s t : State} (ht : t.isFaulted = false) (h : exec i s = .next t) :
    t.stage = s.stage :=
  exec_frame ht h .stage (by cases i <;> simp [mayWrite])

section
variable {s t : State} (hwf : Memory.wf s.mem) (hr : s.run = .running) (hg : s.stage = .started)
include hwf hr hg

theorem exec_inv {i : Instr} (hi : i.WellFormed) (h : exec i s = .next t) : t.Inv := by
  rcases exec_answer i s with ⟨kind, hk, he⟩ | ⟨hn, u, he, -, hrun⟩
  · obtain rfl := Host.Outcome.next.inj (he.symm.trans h)
    exact ⟨by rw [State.takeFault_mem]; exact Memory.ofBytes_wf _,
      consistent_of_execFault (decodeOfEncodeIsIdentity i hi) hk, fun _ => hg⟩
  · obtain rfl := Host.Outcome.next.inj (he.symm.trans h)
    have hu : u.isFaulted = false := exec_not_faulted hr hn he
    refine ⟨exec_mem_wf hu he hwf, ?_, fun _ => (exec_stage hu he).trans hg⟩
    rcases hrun with hrun | ⟨x, -, hrun⟩
    · rw [hrun, hr]; trivial
    · rw [hrun]; trivial

theorem fetchDecodeExecute_inv (h : fetchDecodeExecute s = .next t) : t.Inv := by
  rcases fetchDecodeExecute_cases s with ⟨hf, he⟩ | ⟨w, e, -, hd, he⟩ | ⟨w, i, -, hd, he⟩
  · obtain rfl := Host.Outcome.next.inj (he.symm.trans h)
    have hpc : Config.memSize ≤ s.pc.toNat + 1 := by
      by_contra hlt
      simp [s.fetchWord_of_lt (Nat.lt_of_not_le hlt)] at hf
    exact ⟨by rw [State.takeFault_mem]; exact Memory.ofBytes_wf _, ⟨rfl, hpc⟩, fun _ => hg⟩
  · obtain rfl := Host.Outcome.next.inj (he.symm.trans h)
    have hw : decode w = .error (.unknownOpcode w) := by
      rcases decode_answer w with ⟨i, hi, -⟩ | ⟨hu, -⟩
      · cases hi.symm.trans hd
      · exact hu
    exact ⟨by rw [State.takeFault_mem]; exact Memory.ofBytes_wf _, ⟨rfl, hw⟩, fun _ => hg⟩
  · exact exec_inv hwf hr hg (encodeOfDecodeIsIdentity w i hd).2 (he.symm.trans h)

end

theorem clockEdge_inv {s t : State} (hs : s.Inv) (h : clockEdge s = .next t) : t.Inv := by
  rcases clockEdge_cases s with ⟨hr, -, hc⟩ | ⟨-, hc⟩
  · exact fetchDecodeExecute_inv (s := s.start) hs.1 hr rfl (hc.symm.trans h)
  · obtain rfl := Host.Outcome.next.inj (hc.symm.trans h)
    exact hs

/-! ## The other events -/

theorem State.pressKey_inv {s : State} (hs : s.Inv) (k : Fin Config.numKeys) : (s.pressKey k).Inv := by
  rcases s.pressKey_cases k with ⟨x, -, -, hp⟩ | ⟨x, -, -, hp⟩ | ⟨-, hp⟩ <;> rw [hp]
  · exact .of_running hs.1 rfl
  · exact hs
  · exact hs

theorem loadEvent_inv {offset : Nat} {bytes : List Byte} {s t : State} (hs : s.Inv)
    (h : loadEvent offset bytes s = .next t) : t.Inv := by
  obtain ⟨hwf, -, hstart⟩ := hs
  have hrun : s.stage ≠ .started → s.run = .running := fun hg => not_not.mp fun hn => hg (hstart hn)
  rcases loadEvent_cases offset bytes s with ⟨-, hl⟩ | ⟨hg, -, -, m, hm, hl⟩ | ⟨hg, -, -, hl⟩
  · cases hl.symm.trans h
  · obtain rfl := Host.Outcome.next.inj (hl.symm.trans h)
    exact .of_running (Memory.writeBytes_wf hwf hm) (hrun hg)
  · obtain rfl := Host.Outcome.next.inj (hl.symm.trans h)
    exact .of_running hwf (hrun hg)

theorem deliver_inv {e : Input} {s t : State} (hs : s.Inv) (h : deliver e s = .next t) : t.Inv := by
  cases e with
  | clkInstr => exact clockEdge_inv hs h
  | load offset bytes => exact loadEvent_inv hs h
  | tick timer =>
    obtain rfl := Host.Outcome.next.inj h
    exact hs.congr (s.timerWrite_mem ..) (s.timerWrite_run ..) (s.timerWrite_pc ..) (s.timerWrite_stage ..)
  | keyDown k =>
    obtain rfl := Host.Outcome.next.inj h
    exact s.pressKey_inv hs k
  | keyUp k =>
    obtain rfl := Host.Outcome.next.inj h
    exact hs
  | reset =>
    obtain rfl := Host.Outcome.next.inj h
    exact .of_running Memory.wf_nil rfl

/-- What every event keeps, every step keeps: a step is an event, and the pending events are outside the invariant. -/
theorem step_keeps {P : State → Prop} (hdeliver : ∀ e s t, P s → deliver e s = .next t → P t)
    (hinputs : ∀ s l, P s → P (s.setInputs l)) {s t : State} (hs : P s) (h : step s = .next t) : P t := by
  rcases nextEvent_cases s with ⟨-, he⟩ | ⟨-, kind, word, p, -, he⟩ | ⟨e, rest, -, he⟩
  · exact hdeliver .clkInstr s t hs (he.symm.trans h)
  · cases he.symm.trans h
  · exact hdeliver e _ t (hinputs s rest hs) (he.symm.trans h)

/-- Settles O58: every event keeps the invariant, the clock's by the fault table and the round trip of decoding. -/
theorem stepKeepsInvariant : Obligations.StepKeepsInvariant :=
  fun _ _ => step_keeps (fun _ _ _ => deliver_inv) fun _ _ hs => hs

end Sys2Proof.Machine
end

section
/-! The bounds of PC and of the stack's entries (10_state.md R28, D9). -/
namespace Sys2Proof.Machine

open Sys2Proof

/-- No entry of the stack is above 0x1000, the address after the last fetchable word. -/
def State.StackBounded (s : State) : Prop := ∀ k : Fin Config.stackDepth, s.stack[k].toNat ≤ 0x1000

theorem State.PcBounded.of_running {s : State} (hr : s.run = .running) (hp : s.pc.toNat ≤ 0x10FE)
    (hs : s.StackBounded) : s.PcBounded := by
  simp only [State.PcBounded, hr]
  exact ⟨hp, hs⟩

theorem State.PcBounded.of_waiting {s : State} {x : Reg} (hr : s.run = .awaitingKey x) (hp : s.pc.toNat ≤ 0xFFE)
    (hs : s.StackBounded) : s.PcBounded := by
  simp only [State.PcBounded, hr]
  exact ⟨by omega, hp, hs⟩

theorem State.PcBounded.stack_of_running {s : State} (h : s.PcBounded) (hr : s.run = .running) :
    s.StackBounded := by
  simp only [State.PcBounded, hr] at h
  exact h.2

theorem State.PcBounded.of_wait {s : State} {x : Reg} (h : s.PcBounded) (hr : s.run = .awaitingKey x) :
    s.pc.toNat ≤ 0xFFE ∧ s.StackBounded := by
  simp only [State.PcBounded, hr] at h
  exact h.2

/-- The bounds speak of three pieces of state alone. -/
theorem State.PcBounded.congr {s t : State} (h : s.PcBounded) (hp : t.pc = s.pc) (hr : t.run = s.run)
    (hs : t.stack = s.stack) : t.PcBounded := by
  unfold State.PcBounded
  rw [hp, hr, hs]
  exact h

/-- A fault leaves PC (R302). -/
theorem State.pcBounded_takeFault {s : State} (hp : s.pc.toNat ≤ 0x10FE) (kind : FaultKind) (word : Option Word) :
    (s.takeFault kind word).PcBounded := ⟨hp, trivial⟩

theorem State.stackBounded_reset : State.reset.StackBounded := by
  unfold State.StackBounded
  decide

/-- Settles O59: PC is 0x200 and every entry is zero. -/
theorem resetMeetsPcBounded : Obligations.ResetMeetsPcBounded :=
  .of_running rfl (by decide) State.stackBounded_reset

/-! ## The core's step -/

/-- The table of R121 from a fetchable PC: only JP V0 goes above 0x1002, to at most 0xFFF + 0xFF. -/
theorem toNat_pcAfter_le {s : State} (hp : s.pc.toNat ≤ 0xFFE) (hs : s.StackBounded) (i : Instr) :
    (pcAfter i s).toNat ≤ 0x10FE := by
  have h2 : (s.pc + 2).toNat = s.pc.toNat + 2 := toNat_pc_add_two s.pc hp
  have h4 : (s.pc + 4).toNat = s.pc.toNat + 4 := toNat_pc_add_four s.pc hp
  cases i with
  | ret k =>
    have hlt : s.sp.val - 1 < Config.stackDepth := by have := s.sp.isLt; simp only [Config.stackDepth] at *; omega
    have hentry : s.returnAddress.toNat ≤ 0x1000 := hs ⟨s.sp.val - 1, hlt⟩
    simp only [pcAfter, pcOfEntry_eq]
    omega
  | jp nnn | call nnn =>
    have := nnn.isLt
    simp only [pcAfter, ← pcOfAddr_eq, toNat_pcOfAddr]
    omega
  | jpV0 nnn =>
    have := nnn.isLt
    have := s.getV_lt 0
    simp only [pcAfter, ← pcOfAddr_add_eq, toNat_pcOfAddr_add]
    omega
  | seByte _ _ | sneByte _ _ | seReg _ _ | sneReg _ _ | skp _ | sknp _ =>
    simp only [pcAfter]
    split <;> omega
  | ldKey _ =>
    simp only [pcAfter]
    omega
  | cls _ | ldByte _ _ | addByte _ _ | ldReg _ _ | orReg _ _ | andReg _ _ | xorReg _ _ | addReg _ _ | subReg _ _
  | shr _ _ | subnReg _ _ | shl _ _ | ldI _ | rnd _ _ | drw _ _ _ | ldFromDt _ | ldDt _ | ldSt _ | addI _ | ldF _
  | ldB _ | storeRegs _ | loadRegs _ =>
    simp only [pcAfter]
    omega

section
variable {s t : State} (hp : s.pc.toNat ≤ 0xFFE) (hs : s.StackBounded)
include hp hs

/-- CALL alone writes an entry, the address after a fetchable word (R124). -/
theorem exec_stackBounded {i : Instr} (ht : t.isFaulted = false) (h : exec i s = .next t) : t.StackBounded := by
  intro k
  cases i with
  | call nnn =>
    obtain ⟨hsp, rfl⟩ := exec_call_next ht h
    have hk := s.stack_setEntry ⟨s.sp.val, hsp⟩ (s.pc + 2) k.val k.isLt
    show ((s.setEntry ⟨s.sp.val, hsp⟩ (s.pc + 2)).stack[k.val]).toNat ≤ 0x1000
    rw [hk]
    split
    · rw [toNat_pc_add_two s.pc hp]
      omega
    · exact hs k
  | _ =>
    rw [exec_frame ht h .stack (by simp [mayWrite]) k]
    exact hs k

theorem exec_pcBounded {i : Instr} (hr : s.run = .running) (h : exec i s = .next t) : t.PcBounded := by
  rcases exec_answer i s with ⟨kind, -, he⟩ | ⟨hn, u, he, -, hrun⟩
  · obtain rfl := Host.Outcome.next.inj (he.symm.trans h)
    exact State.pcBounded_takeFault (by omega) _ _
  · obtain rfl := Host.Outcome.next.inj (he.symm.trans h)
    have hu : u.isFaulted = false := exec_not_faulted hr hn he
    have hstack : u.StackBounded := exec_stackBounded hp hs hu he
    have hpc : u.pc = pcAfter i s := exec_pc he hu
    rcases hrun with hrun | ⟨x, rfl, hrun⟩
    · exact .of_running (hrun.trans hr) (hpc ▸ toNat_pcAfter_le hp hs i) hstack
    · exact .of_waiting hrun (hpc ▸ hp) hstack

end

theorem fetchDecodeExecute_pcBounded {s t : State} (hs : s.PcBounded) (hr : s.run = .running)
    (h : fetchDecodeExecute s = .next t) : t.PcBounded := by
  rcases fetchDecodeExecute_cases s with ⟨-, he⟩ | ⟨w, e, -, -, he⟩ | ⟨w, i, hf, -, he⟩
  · obtain rfl := Host.Outcome.next.inj (he.symm.trans h)
    exact State.pcBounded_takeFault hs.1 _ _
  · obtain rfl := Host.Outcome.next.inj (he.symm.trans h)
    exact State.pcBounded_takeFault hs.1 _ _
  · have hp : s.pc.toNat ≤ 0xFFE := by
      by_contra hlt
      simp [s.fetchWord_of_ge (show 4096 ≤ s.pc.toNat + 1 by omega)] at hf
    exact exec_pcBounded hp (hs.stack_of_running hr) hr (he.symm.trans h)

theorem clockEdge_pcBounded {s t : State} (hs : s.PcBounded) (h : clockEdge s = .next t) : t.PcBounded := by
  rcases clockEdge_cases s with ⟨hr, -, hc⟩ | ⟨-, hc⟩
  · exact fetchDecodeExecute_pcBounded (s := s.start) hs hr (hc.symm.trans h)
  · obtain rfl := Host.Outcome.next.inj (hc.symm.trans h)
    exact hs

/-! ## The other events -/

theorem State.pressKey_pcBounded {s : State} (hs : s.PcBounded) (k : Fin Config.numKeys) :
    (s.pressKey k).PcBounded := by
  rcases s.pressKey_cases k with ⟨x, hr, -, hk⟩ | ⟨x, -, -, hk⟩ | ⟨-, hk⟩ <;> rw [hk]
  · obtain ⟨hp, hstack⟩ := hs.of_wait hr
    refine .of_running rfl ?_ hstack
    show (s.pc + 2).toNat ≤ 0x10FE
    rw [toNat_pc_add_two s.pc hp]
    omega
  · exact hs
  · exact hs

theorem loadEvent_pcBounded {offset : Nat} {bytes : List Byte} {s t : State} (hs : s.PcBounded)
    (h : loadEvent offset bytes s = .next t) : t.PcBounded := by
  rcases loadEvent_cases offset bytes s with ⟨-, hl⟩ | ⟨-, -, -, m, -, hl⟩ | ⟨-, -, -, hl⟩
  · cases hl.symm.trans h
  · obtain rfl := Host.Outcome.next.inj (hl.symm.trans h)
    exact hs
  · obtain rfl := Host.Outcome.next.inj (hl.symm.trans h)
    exact hs

theorem deliver_pcBounded {e : Input} {s t : State} (hs : s.PcBounded) (h : deliver e s = .next t) :
    t.PcBounded := by
  cases e with
  | clkInstr => exact clockEdge_pcBounded hs h
  | load offset bytes => exact loadEvent_pcBounded hs h
  | tick timer =>
    obtain rfl := Host.Outcome.next.inj h
    exact hs.congr (s.timerWrite_pc ..) (s.timerWrite_run ..) (s.timerWrite_stack ..)
  | keyDown k =>
    obtain rfl := Host.Outcome.next.inj h
    exact s.pressKey_pcBounded hs k
  | keyUp k =>
    obtain rfl := Host.Outcome.next.inj h
    exact hs
  | reset =>
    obtain rfl := Host.Outcome.next.inj h
    exact .of_running rfl resetMeetsPcBounded.1 State.stackBounded_reset

/-- Settles O60: every event keeps the bounds; the clock's from a fetched word by R121's table. -/
theorem stepKeepsPcBounded : Obligations.StepKeepsPcBounded :=
  fun _ _ => step_keeps (fun _ _ _ => deliver_pcBounded) fun _ _ hs => hs

end Sys2Proof.Machine
end

section
/-! The Address Space through the state, load and boot (20_memory.md, 70_reset_and_hazards.md). -/
namespace Sys2Proof.Machine

open Sys2Proof

/-! ## Memory -/

/-- A write inside the space (R62). -/
theorem State.memWrite_of_lt (s : State) {a : Nat} (h : a < Config.memSize) (b : Byte) :
    s.memWrite a b = some (s.setMem (Memory.poke s.mem a b)) := by
  rw [State.memWrite, Memory.write_of_lt _ h, Option.map_some]

theorem State.memWrite_of_ge (s : State) {a : Nat} (h : Config.memSize ≤ a) (b : Byte) :
    s.memWrite a b = none := by
  rw [State.memWrite, Memory.write_of_ge _ h, Option.map_none]

/-- Settles O6: below 4096 the write is one `poke` of the memory. -/
theorem readAfterWrite : Obligations.ReadAfterWrite := by
  refine fun s a b hwf => ⟨fun h => ⟨s.memRead_of_ge h, s.memWrite_of_ge h b⟩, fun h =>
    ⟨_, s.memWrite_of_lt h b, Memory.poke_wf hwf h b, ?_, fun c hc => ?_, (s.sameBut_refl _).setMem (by decide) _⟩⟩
  · exact (State.memRead_of_lt _ h).trans (congrArg some (Memory.peek_poke_same hwf a b))
  · have hpeek : Memory.peek (Memory.poke s.mem a b) c = Memory.peek s.mem c := Memory.peek_poke_other s.mem hc b
    simp only [State.memRead, State.setMem_mem, Memory.read, hpeek]

section
variable {s : State} {m : Memory} {a : Nat} {bytes : List Byte} (hw : Memory.writeBytes s.mem a bytes = some m)
include hw

/-- Bytes written inside the space are the bytes read (R67). -/
theorem State.memRead_of_writeBytes (hwf : Memory.wf s.mem) (hfit : a + bytes.length ≤ Config.memSize) {k : Nat}
    (hk : k < bytes.length) : (s.setMem m).memRead (a + k) = some bytes[k] :=
  (State.memRead_of_lt _ (by omega)).trans (congrArg some (Memory.peek_writeBytes hwf hw k hk))

/-- Every other address reads as before (R67). -/
theorem State.memRead_of_writeBytes_other {c : Nat} (hc : c < a ∨ a + bytes.length ≤ c) :
    (s.setMem m).memRead c = s.memRead c := by
  simp only [State.memRead, State.setMem_mem, Memory.read, Memory.peek_writeBytes_other hw hc]

end

/-! ## The memory of the reset state (R340, R342) -/

theorem length_glyphData : Config.glyphData.length = 80 := rfl

theorem Memory.bootByte_of_lt {a : Nat} (h : a < 80) : Config.glyphData[a]? = some (Memory.bootByte a) := by
  have hb : Memory.bootByte a = Config.glyphData.getD a 0 := rfl
  rw [hb, List.getD_eq_getElem?_getD, List.getElem?_eq_getElem (by rwa [length_glyphData]), Option.getD_some]

theorem Memory.bootByte_of_ge {a : Nat} (h : 80 ≤ a) : Memory.bootByte a = 0 := by
  have hb : Memory.bootByte a = Config.glyphData.getD a 0 := rfl
  rw [hb, List.getD_eq_getElem?_getD, List.getElem?_eq_none (by rwa [length_glyphData]), Option.getD_none]

/-- The reset state's memory reads as the boot content (log 6). -/
theorem State.memRead_reset {a : Nat} (h : a < Config.memSize) :
    State.reset.memRead a = some (Memory.bootByte a) := State.memRead_of_lt _ h

/-- Settles O10: a reset's every piece is the reset state's, whose memory is the boot content. -/
theorem resetGivesResetValues : Obligations.ResetGivesResetValues := by
  refine fun s => ⟨s.hostReset, rfl, ?_, rfl, rfl, ?_, rfl, rfl, rfl, fun a ha => ?_, fun a hge hlt => ?_,
    Screen.cell_blank, ?_, rfl, rfl⟩
  · show ∀ r : Reg, State.reset.getV r = 0
    decide
  · show ∀ k : Fin Config.stackDepth, State.reset.stack[k] = 0
    decide
  · rw [Memory.bootByte_of_lt ha]
    exact State.memRead_reset (by simp only [Config.memSize]; omega)
  · rw [← Memory.bootByte_of_ge hge]
    exact State.memRead_reset hlt
  · show ∀ k : Fin Config.numKeys, State.reset.keyDown? k = false
    decide

/-- In canonical form no cell lies outside the space. -/
theorem Memory.peek_of_ge {m : Memory} (h : Memory.wf m) {a : Nat} (ha : Config.memSize ≤ a) :
    Memory.peek m a = Memory.bootByte a :=
  Memory.peek_of_unlisted fun c hc heq => by have := (h.2 c hc).1; omega

theorem Memory.zeroed_wf : Memory.wf Memory.zeroed := Memory.ofBytes_wf _

/-- The glyphs over zeroed memory read as the boot content everywhere. -/
theorem Memory.peek_preloadGlyphs {m : Memory} (h : Memory.preloadGlyphs Memory.zeroed = some m) (a : Nat) :
    Memory.peek m a = Memory.bootByte a := by
  rcases Nat.lt_or_ge a 80 with hlt | hge
  · have hk : a < Config.glyphData.length := hlt
    have hpeek : Memory.peek m (Config.fontBase + a) = Config.glyphData[a] :=
      Memory.peek_writeBytes Memory.zeroed_wf h a hk
    rw [Config.fontBase, Nat.zero_add] at hpeek
    rw [hpeek]
    exact Option.some.inj ((List.getElem?_eq_getElem hk).symm.trans (Memory.bootByte_of_lt hlt))
  · rw [Memory.peek_writeBytes_other h (.inr hge)]
    rcases Nat.lt_or_ge a Config.memSize with hin | hout
    · rw [Memory.zeroed, Memory.peek_ofBytes _ hin, Memory.bootByte_of_ge hge]
    · exact Memory.peek_of_ge Memory.zeroed_wf hout

/-- Settles O11: the preloaded memory reads as the reset state's, and both are in canonical form. -/
theorem glyphPreloadGivesResetMemory : Obligations.GlyphPreloadGivesResetMemory := by
  refine ⟨fun a ha => ?_, ?_⟩
  · rw [Memory.read_of_lt _ ha, Memory.zeroed, Memory.peek_ofBytes _ ha]
  · obtain ⟨m, hm⟩ := Option.isSome_iff_exists.mp
      (Memory.writeBytes_isSome Memory.zeroed Config.fontBase Config.glyphData (.inr (by decide)))
    have hnil : m = [] := Memory.ext_of_wf (Memory.writeBytes_wf Memory.zeroed_wf hm) Memory.wf_nil
      (Memory.peek_preloadGlyphs hm)
    exact hm.trans (congrArg some hnil)

/-! ## Load and boot -/

/-- Settles O8: a load is one write of its bytes, or one change of the stage. -/
theorem loadPlacesBytesOrReportsOutOfRange : Obligations.LoadPlacesBytesOrReportsOutOfRange := by
  intro s offset bytes hwf
  rcases loadEvent_cases offset bytes s with ⟨hg, hl⟩ | ⟨hg, hfit, hreply, m, hm, hl⟩ | ⟨hg, hbig, hreply, hl⟩
  · exact ⟨fun hn => absurd hg hn, fun hn => absurd hg hn, fun _ => hl⟩
  · refine ⟨fun _ _ => ⟨_, hl, hreply, fun k hk => State.memRead_of_writeBytes hm hwf hfit hk,
      fun a ha => State.memRead_of_writeBytes_other hm ha, rfl,
      ((s.sameBut_refl _).setMem (by decide) m).setStage (by decide) _⟩,
      fun _ hbig => absurd hfit (Nat.not_le.mpr hbig), fun hs => absurd hs hg⟩
  · exact ⟨fun _ hfit => absurd hfit (Nat.not_le.mpr hbig), fun _ _ => ⟨_, hl, hreply, rfl,
      (s.sameBut_refl _).setStage (by decide) _, clockEdge_of_loadFailed rfl⟩, fun hs => absurd hs hg⟩

/-- Settles O12: booting is a load at 0x200 into the reset state. -/
theorem bootPlacesProgramAt0x200 : Obligations.BootPlacesProgramAt0x200 := by
  intro program
  have hbase : Config.programBase = 0x200 := rfl
  have hsize : Config.memSize = 4096 := rfl
  rcases State.reset.load_cases Config.programBase program with ⟨hfit, m, hm, hb⟩ | ⟨hbig, hb⟩
  · refine ⟨fun _ => ⟨_, hb, rfl, rfl, fun k hk => State.memRead_of_writeBytes hm Memory.wf_nil hfit hk,
      fun a ha => State.memRead_of_writeBytes_other hm ha, (State.reset.sameBut_refl _).setMem (by decide) m⟩,
      fun hlong => ?_⟩
    omega
  · refine ⟨fun hshort => ?_, fun _ => hb⟩
    omega

end Sys2Proof.Machine
end

section
/-! The step and its faults (40_control_flow.md R120, 60_exceptions.md R300 to R319). -/
namespace Sys2Proof.Machine

open Sys2Proof

/-! ## The next event -/

theorem step_of_cons {s : State} {e : Input} {rest : List Input} (h : s.inputs = e :: rest) :
    step s = deliver e (s.setInputs rest) := by
  simp only [step, nextEvent, h]

theorem step_of_nil {s : State} (h : s.inputs = []) (hf : s.isFaulted = false) : step s = clockEdge s := by
  rcases nextEvent_cases s with ⟨-, he⟩ | ⟨-, kind, word, p, hr, -⟩ | ⟨e, rest, hi, -⟩
  · exact he
  · rw [State.isFaulted, hr] at hf
    cases hf
  · cases h.symm.trans hi

theorem State.not_faulted_of_running {s : State} (hr : s.run = .running) : s.isFaulted = false := by
  rw [State.isFaulted, hr]
  rfl

/-- Settles O13: the next event is read off `step`, and the clock's tick runs the fetched instruction. -/
theorem stepRunsDecodedInstruction : Obligations.StepRunsDecodedInstruction := by
  refine ⟨fun s e rest => step_of_cons, fun s => step_of_nil, fun s b0 b1 i ⟨hr, hg⟩ h0 h1 hd => ?_⟩
  have hf : s.fetchWord = some (wordOfBytes b0 b1) := State.fetchWord_of_reads h0 h1
  have hclock : clockEdge s = exec i s.start := clockEdge_of_decode hr hg hf hd
  refine ⟨hclock, fun hi => (step_of_nil hi (State.not_faulted_of_running hr)).trans hclock, fun rest hi => ?_⟩
  exact (step_of_cons hi).trans (clockEdge_of_decode (s := s.setInputs rest) hr hg hf hd)

/-! ## Placing a word (log 7) -/

theorem decode_of_decodeTableWord {w : Nat} {i : Instr} (h : decodeTableWord 16 w = some i) :
    decode (tableWord 16 w) = .ok i := by
  simp only [decodeTableWord, decodeBytes, wordOfBytes_bytes] at h
  split at h
  · next hd =>
    split at hd
    · next hj =>
      cases hd
      cases h
      exact hj
    · cases hd
  · cases h

theorem State.fetchablePc_lt (s : State) : s.fetchablePc.toNat + 1 < Config.memSize := by
  unfold State.fetchablePc
  split
  · assumption
  · decide

/-- The placed word is the fetched one. -/
theorem State.fetchWord_placeWord {s : State} (hwf : Memory.wf s.mem) (w : Word) :
    (s.placeWord w).fetchWord = some w := by
  have hlt : s.fetchablePc.toNat + 1 < Config.memSize := s.fetchablePc_lt
  have hpoked : Memory.wf (Memory.poke s.mem s.fetchablePc.toNat (highByte w)) :=
    Memory.poke_wf hwf (by omega) _
  rw [State.fetchWord_of_lt (s.placeWord w) hlt]
  simp only [State.placeWord]
  rw [Memory.peek_poke_same hpoked, Memory.peek_poke_other _ (by omega), Memory.peek_poke_same hwf,
    wordOfBytes_bytes]

theorem BootStage.loaded_ne_loadFailed (g : BootStage) : g.loaded ≠ .loadFailed := by
  cases g <;> decide

/-- The step after a placed word is the clock's tick, with the pending events as they were. -/
theorem step_placeWord (s : State) (w : Word) :
    step (s.placeWord w) = clockEdge ((s.placeWord w).setInputs s.inputs) := by
  cases hi : s.inputs with
  | nil =>
    have hnil : (s.placeWord w).inputs = [] := by simp only [State.placeWord, hi, clockFirst]
    rw [step_of_nil hnil (State.not_faulted_of_running rfl), ← hnil]
    rfl
  | cons e rest =>
    have hcons : (s.placeWord w).inputs = .clkInstr :: e :: rest := by simp only [State.placeWord, hi, clockFirst]
    exact step_of_cons hcons

/-- Settles O14: the next event is the clock's tick, and it fetches the placed word. -/
theorem placedWordRunsNext : Obligations.PlacedWordRunsNext := by
  intro s w i hwf hd
  refine (step_placeWord s (tableWord 16 w)).trans ?_
  exact clockEdge_of_decode (s := (s.placeWord (tableWord 16 w)).setInputs s.inputs) rfl
    s.stage.loaded_ne_loadFailed (State.fetchWord_placeWord hwf _) (decode_of_decodeTableWord hd)

/-! ## Which step faults (R301, R305) -/

/-- The start of the clock changes nothing the fault table reads. -/
theorem execFault_start (i : Instr) (s : State) : execFault i s.start = execFault i s := by
  cases i <;> rfl

/-- A running core's step is the fault the table names, or leaves the core unfaulted where it names none. -/
theorem clockEdge_coreFault {s : State} (hs : s.Runs) :
    (∃ kind word, coreFault s = some (kind, word) ∧ clockEdge s = .next (s.start.takeFault kind word)) ∨
    (coreFault s = none ∧ ∃ t, clockEdge s = .next t ∧ t.isFaulted = false) := by
  obtain ⟨hr, hg⟩ := hs
  rcases Nat.lt_or_ge (s.pc.toNat + 1) Config.memSize with hlt | hge
  · have hin : ¬ (s.pc.toNat ≥ 4096 ∨ s.pc.toNat + 1 ≥ 4096) := by simp only [Config.memSize] at hlt; omega
    have hf := s.fetchWord_of_lt hlt
    simp only [coreFault, if_neg hin, State.byteAt]
    generalize wordOfBytes (Memory.peek s.mem s.pc.toNat) (Memory.peek s.mem (s.pc.toNat + 1)) = w at hf
    cases hd : decode w with
    | error e =>
      refine .inl ⟨_, _, rfl, ?_⟩
      simp only [clockEdge_of_runs hr hg, fetchDecodeExecute, State.fetchWord_start, hf, hd, raise]
    | ok i =>
      have hclock : clockEdge s = exec i s.start := clockEdge_of_decode hr hg hf hd
      have hw : encode i = w := (encodeOfDecodeIsIdentity w i hd).1
      rcases exec_answer i s.start with ⟨kind, hk, he⟩ | ⟨hn, t, he, -⟩
      · rw [execFault_start] at hk
        exact .inl ⟨kind, some w, by simp only [hk, Option.map_some], by rw [hclock, he, hw]⟩
      · have ht : t.isFaulted = false := exec_not_faulted (s := s.start) hr hn he
        rw [execFault_start] at hn
        exact .inr ⟨by simp only [hn, Option.map_none], t, hclock.trans he, ht⟩
  · have hout : s.pc.toNat ≥ 4096 ∨ s.pc.toNat + 1 ≥ 4096 := .inr hge
    refine .inl ⟨_, _, by rw [coreFault, if_pos hout], ?_⟩
    exact clockEdge_of_fetch_outOfRange ⟨hr, hg⟩ (by simp only [Config.memSize] at hge; omega)

theorem State.report_of_not_faulted {s : State} (h : s.isFaulted = false) : s.outputs.fault = none := by
  simpa [State.isFaulted, State.outputs] using h

/-- Settles O15: the step's fault is the table's, and a load that does not fit leaves RUN. -/
theorem coreFaultsExactlyPerTable : Obligations.CoreFaultsExactlyPerTable := by
  refine ⟨fun s kind word hs hc => ?_, fun s hs hc => ?_, fun s offset bytes hg hbig => ?_⟩
  · rcases clockEdge_coreFault hs with ⟨kind', word', hc', he⟩ | ⟨hn, -⟩
    · cases hc'.symm.trans hc
      exact ⟨_, he, rfl, rfl, rfl⟩
    · cases hn.symm.trans hc
  · rcases clockEdge_coreFault hs with ⟨kind, word, hc', -⟩ | ⟨-, t, he, ht⟩
    · cases hc'.symm.trans hc
    · exact ⟨t, he, ht, State.report_of_not_faulted ht⟩
  · rcases loadEvent_cases offset bytes s with ⟨hs, -⟩ | ⟨-, hfit, -⟩ | ⟨-, -, hreply, hl⟩
    · exact absurd hs hg
    · exact absurd hfit (Nat.not_le.mpr hbig)
    · exact ⟨_, hl, hreply, rfl, rfl⟩

/-! ## A faulted run (R306) -/

/-- Settles O16: the clock ticks only a running core, and with no event pending `runAlone` stops with the report. -/
theorem faultedCoreTakesNoStep : Obligations.FaultedCoreTakesNoStep := by
  refine fun s kind word p hr => ⟨clockEdge_of_not_running (by simp [hr]), fun hi => ?_⟩
  simp only [step, nextEvent, hi, runAlone, hr]

/-- A key-down of a core that does not wait only records the level (R316). -/
theorem State.pressKey_of_no_wait {s : State} (h : ∀ x, s.run ≠ .awaitingKey x) (k : Fin Config.numKeys) :
    s.pressKey k = s.setKey k true := by
  rcases s.pressKey_cases k with ⟨x, hx, -⟩ | ⟨x, hx, -⟩ | ⟨-, hp⟩
  · exact absurd hx (h x)
  · exact absurd hx (h x)
  · exact hp

/-- A load changes memory and the boot stage alone (R72, R343). -/
theorem loadEvent_frame {offset : Nat} {bytes : List Byte} {s t : State} (h : loadEvent offset bytes s = .next t) :
    s.sameBut [.mem, .stage] t := by
  rcases loadEvent_cases offset bytes s with ⟨-, hl⟩ | ⟨-, -, -, m, -, hl⟩ | ⟨-, -, -, hl⟩
  · cases hl.symm.trans h
  · obtain rfl := Host.Outcome.next.inj (hl.symm.trans h)
    exact ((s.sameBut_refl _).setMem (by decide) m).setStage (by decide) _
  · obtain rfl := Host.Outcome.next.inj (hl.symm.trans h)
    exact (s.sameBut_refl _).setStage (by decide) _

/-- No event but a reset changes RUN or PC of a faulted run (R306). -/
theorem deliver_of_faulted {e : Input} {s t : State} (hf : s.isFaulted = true) (he : e ≠ .reset)
    (h : deliver e s = .next t) : t.run = s.run ∧ t.pc = s.pc := by
  have hwait : ∀ x, s.run ≠ .awaitingKey x := fun x hx => by simp [State.isFaulted, RunState.report, hx] at hf
  have hrun : s.run ≠ .running := fun hr => by simp [State.isFaulted, RunState.report, hr] at hf
  cases e with
  | clkInstr =>
    obtain rfl := Host.Outcome.next.inj ((clockEdge_of_not_running hrun).symm.trans h)
    exact ⟨rfl, rfl⟩
  | tick timer =>
    obtain rfl := Host.Outcome.next.inj h
    exact ⟨s.tick_run timer, s.timerWrite_pc timer _⟩
  | keyDown k =>
    obtain rfl := Host.Outcome.next.inj h
    rw [State.pressKey_of_no_wait hwait k]
    exact ⟨rfl, rfl⟩
  | keyUp k =>
    obtain rfl := Host.Outcome.next.inj h
    exact ⟨rfl, rfl⟩
  | reset => exact absurd rfl he
  | load offset bytes => exact ⟨loadEvent_run h, loadEvent_frame h .pc (by decide)⟩

/-- Settles O17: the reset's RUN and PC are the reset state's. -/
theorem onlyResetLeavesFaulted : Obligations.OnlyResetLeavesFaulted := by
  intro s t kind word p e hr h
  have hf : s.isFaulted = true := by rw [State.isFaulted, hr]; rfl
  refine ⟨fun he => deliver_of_faulted hf he h, fun he => ?_⟩
  subst he
  obtain rfl := Host.Outcome.next.inj h
  exact ⟨rfl, rfl⟩

end Sys2Proof.Machine
end

section
/-! Single instructions: jumps, arithmetic, the index register and the stack (40_control_flow.md, 41_alu.md,
42_index_memory.md). -/
namespace Sys2Proof.Machine

open Sys2Proof

/-! ## Control flow -/

/-- Settles O23: the jump is one `setPc` of a sum that does not wrap. -/
theorem jumpV0AddsWithoutMask : Obligations.JumpV0AddsWithoutMask :=
  fun nnn s => ⟨_, rfl, toNat_pcOfAddr_add nnn (s.getV 0), (s.sameBut_refl _).setPc (by decide) _⟩

/-- A piece of state that agrees leaves the frame's list. -/
theorem State.sameBut.of_same {s t : State} {part : Part} {parts : List Part} (h : s.sameBut (part :: parts) t)
    (hs : s.same t part) : s.sameBut parts t := by
  intro p hp
  by_cases he : p = part
  · exact he ▸ hs
  · exact h p (by simp [he, hp])

/-- Settles O24: the return pops the entry that the call pushed, and SP is back. -/
theorem callThenReturnComesBack : Obligations.CallThenReturnComesBack := by
  intro nnn k s hsp
  refine ⟨_, _, exec_call_of_lt nnn s hsp, exec_ret_of_succ k _ hsp rfl, ?_, ?_⟩
  · exact (s.stack_setEntry _ _ _ hsp).trans (if_pos rfl)
  · refine State.sameBut.of_same (part := .sp) ?_ rfl
    exact (((((s.sameBut_refl _).setEntry (by decide) _ _).setSp (by decide) _).setPc (by decide) _).setSp
      (by decide) _).setPc (by decide) _

/-! ## Arithmetic -/

/-- Settles O26: each is one `setV`, of the sum and of the other register. -/
theorem addImmediateAndCopyWriteNoFlag : Obligations.AddImmediateAndCopyWriteNoFlag := by
  refine ⟨fun x nn s => ⟨_, rfl, ?_, s.setV_advance_frame x _⟩, fun x y s => ⟨_, rfl, ?_, s.setV_advance_frame x _⟩⟩
  · rw [State.getV_advance, State.getV_setV_same, toNat_addResult, regOfByte_eq]
  · rw [State.getV_advance, State.getV_setV_same]

/-- SHL's flag is bit 7 where it stands (R173, D5). -/
theorem toNat_shlFlag (a : RegValue) : (shlFlag a).toNat = if a.toNat ≥ 128 then 0x80 else 0x00 := by
  have ha : a.toNat < 256 := a.isLt
  have hflag : shlFlag a = a &&& 0x80 := by simp [shlFlag, Config.shlFlagNormalised]
  have hand : (shlFlag a).toNat = a.toNat &&& 2 ^ 7 := by rw [hflag]; exact BitVec.toNat_and ..
  rw [hand, Nat.and_two_pow, Nat.testBit_eq_decide_div_mod_eq]
  split
  · have hbit : a.toNat / 2 ^ 7 % 2 = 1 := by omega
    rw [hbit]
    rfl
  · have hbit : a.toNat / 2 ^ 7 % 2 = 0 := by omega
    rw [hbit]
    rfl

/-- Settles O30: each shift is one `setResultFlag`, whose flag is the bit shifted out. -/
theorem shiftsSetShiftedOutBit : Obligations.ShiftsSetShiftedOutBit := by
  refine ⟨fun x y s => ⟨_, rfl, fun hx => ?_, ?_, s.setResultFlag_advance_frame x _ _⟩,
    fun x y s => ⟨_, rfl, fun hx => ?_, ?_, s.setResultFlag_advance_frame x _ _⟩⟩
  · rw [State.getV_advance, s.getV_setResultFlag_dest hx, toNat_shrResult]
  · rw [State.getV_advance, State.getV_setResultFlag_vf, toNat_shrFlag]
  · rw [State.getV_advance, s.getV_setResultFlag_dest hx, toNat_shlResult]
  · rw [State.getV_advance, State.getV_setResultFlag_vf, toNat_shlFlag]

/-- Settles O31: the byte is the free value of the counter, whatever it is, under the mask. -/
theorem randomByteUnderMask : Obligations.RandomByteUnderMask := by
  intro x nn s
  obtain ⟨hregs, hpc, -⟩ := s.countDraw.setV_advance_frame x (regOfByte (Config.randomByte s.draws &&& nn))
  refine ⟨_, rfl, fun k => ?_, rfl, hregs, hpc,
    (((s.sameBut_refl _).countDraw (by decide)).setV (by decide) x _).setPc (by decide) _⟩
  rw [rndWith, State.getV_advance, State.getV_setV_same, regOfByte_eq, BitVec.getLsbD_and]

/-! ## The index register -/

/-- Settles O33: the sum is one `setI`. -/
theorem addToIndexWrapsAt16Bits : Obligations.AddToIndexWrapsAt16Bits :=
  fun x s => ⟨_, rfl, toNat_index_add s.i (s.getV x), rfl,
    ((s.sameBut_refl _).setI (by decide) _).setPc (by decide) _⟩

/-- Settles O34: a digit is one `setI` of its glyph's address, and above 0xF R301's table names the fault. -/
theorem loadFontSetsGlyphAddress : Obligations.LoadFontSetsGlyphAddress := by
  refine fun x s => ⟨fun h => ⟨_, exec_ldF_of_operand (s.digitOperand_of_le x h), toNat_glyphAddr _ h, rfl, ?_⟩,
    fun h => ⟨_, exec_of_execFault (if_pos h), rfl, rfl⟩⟩
  exact ((s.sameBut_refl _).setI (by decide) _).setPc (by decide) _

/-! ## Bulk store and load -/

theorem Memory.readBytes_of_fits (m : Memory) {a n : Nat} (h : n = 0 ∨ a + n ≤ Config.memSize) :
    ∃ bytes, Memory.readBytes m a n = some bytes := ⟨_, (Memory.readBytes_eq m a n).trans (if_pos h)⟩

/-- The bytes of a multi-byte read are the reads of their addresses (R67). -/
theorem Memory.getElem?_readBytes {m : Memory} {a n : Nat} {bytes : List Byte}
    (h : Memory.readBytes m a n = some bytes) {k : Nat} (hk : k < n) : bytes[k]? = Memory.read m (a + k) := by
  have hfit : n = 0 ∨ a + n ≤ Config.memSize := by
    by_contra hout
    cases (if_neg hout).symm.trans ((Memory.readBytes_eq m a n).symm.trans h)
  rw [Memory.read_of_lt m (by omega), Memory.readBytes_some h]
  simp [hk]

section
variable {x : Reg} {s : State} (hfit : s.effAddr x.val < 4096)
include hfit

/-- LD [I], Vx inside the space: each register's byte at its address, and nothing else (R204). -/
theorem exec_storeRegs_spec (hwf : Memory.wf s.mem) : ∃ t, exec (.storeRegs x) s = .next t ∧
    (∀ r : Reg, r ≤ x → t.memRead (s.effAddr r.val) = some (s.getV r)) ∧
    (∀ a, a < s.effAddr 0 ∨ s.effAddr x.val < a → t.memRead a = s.memRead a) ∧
    t.pc = s.pc + 2 ∧ s.sameBut [.mem, .pc] t := by
  have hlen : (s.regBytes x).length = x.val + 1 := s.length_regBytes x
  obtain ⟨t, he, hread, hother, hframe⟩ := storeAtI_spec (encode (.storeRegs x)) (s.regBytes x) s hwf
    (by rw [hlen]; exact hfit)
  refine ⟨t, he, fun r hr => ?_, fun a ha => hother a ?_, hframe⟩
  · have hk : r.val < (s.regBytes x).length := by rw [hlen]; exact Nat.lt_succ_of_le hr
    rw [hread r.val hk, s.getElem_regBytes]
  · rw [hlen]
    exact ha

/-- LD Vx, [I] inside the space: each register from its address, and nothing else (R205). -/
theorem exec_loadRegs_spec : ∃ t, exec (.loadRegs x) s = .next t ∧
    (∀ r : Reg, r ≤ x → some (t.getV r) = s.memRead (s.effAddr r.val)) ∧
    (∀ r : Reg, x < r → t.getV r = s.getV r) ∧ t.pc = s.pc + 2 ∧ s.sameBut [.v, .pc] t := by
  have hend : s.effAddr 0 + (x.val + 1) ≤ Config.memSize := hfit
  obtain ⟨bytes, hbytes⟩ := Memory.readBytes_of_fits s.mem (.inr hend)
  have hlen : bytes.length = x.val + 1 := Memory.length_readBytes hbytes
  refine ⟨_, exec_loadRegs_of_reads hbytes, fun r hr => ?_, fun r hr => ?_, rfl,
    ((s.sameBut_refl _).setVs (by decide) _).setPc (by decide) _⟩
  · have hk : r.val < x.val + 1 := Nat.lt_succ_of_le hr
    have hread : bytes[r.val]? = s.memRead (s.effAddr r.val) := Memory.getElem?_readBytes hbytes hk
    rw [State.getV_advance, State.getV_setVs, dif_pos (by omega), ← hread, List.getElem?_eq_getElem (by omega)]
    exact congrArg some (BitVec.setWidth_eq _)
  · have hge : ¬ r.val < bytes.length := by rw [hlen]; exact Nat.not_lt.mpr hr
    rw [State.getV_advance, State.getV_setVs, dif_neg hge]

end

/-- Settles O36: the store is `storeAtI` of the registers' bytes, and R301's table names its fault. -/
theorem bulkStoreWritesRegisters : Obligations.BulkStoreWritesRegisters :=
  ⟨fun _ _ hwf hfit => exec_storeRegs_spec hfit hwf, fun _ _ h => ⟨_, exec_of_execFault (if_pos h), rfl, rfl⟩⟩

/-- Settles O37: the load is `setVs` of the bytes read, and R301's table names its fault. -/
theorem bulkLoadReadsRegisters : Obligations.BulkLoadReadsRegisters :=
  ⟨fun _ _ hfit => exec_loadRegs_spec hfit, fun _ _ h => ⟨_, exec_of_execFault (if_pos h), rfl, rfl⟩⟩

/-- Settles O38: the two reads of the fetch are of stored bytes. -/
theorem storeIsSeenByNextFetch : Obligations.StoreIsSeenByNextFetch := by
  intro x r r' s hwf hfit hr' hsucc hpc
  obtain ⟨t, he, hread, -, hpct, -⟩ := exec_storeRegs_spec hfit hwf
  have hr : r ≤ x := Fin.le_def.mpr (by have := Fin.le_def.mp hr'; omega)
  have hlo : t.pc.toNat = s.effAddr r.val := hpct ▸ hpc
  have hhi : t.pc.toNat + 1 = s.effAddr r'.val := by rw [hlo, hsucc]; rfl
  exact ⟨t, he, State.fetchWord_of_reads (hlo ▸ hread r hr) (hhi ▸ hread r' hr')⟩

/-! ## DRW -/

/-- Settles O42: the rows are the bytes read at I, and the blit and its flag are the model's `Screen.blit`. -/
theorem drawBlitsBytesAtI : Obligations.DrawBlitsBytesAtI := by
  refine ⟨fun x y n s hfit => ?_, fun x y n s hn hout => ?_⟩
  · have hend : n = 0 ∨ s.effAddr 0 + n ≤ Config.memSize := hfit
    obtain ⟨rows, hrows⟩ := Memory.readBytes_of_fits s.mem hend
    have hvf : s.sameRegsBut [Reg.vf] (s.setScreen (s.screen.blit (s.getV x).toNat (s.getV y).toNat rows).1) :=
      fun _ _ => rfl
    refine ⟨_, rows, exec_drw_of_reads hrows, Memory.length_readBytes hrows,
      fun k hk => Memory.getElem?_readBytes hrows hk, fun _ _ => rfl, State.getV_setV_same _ Reg.vf _,
      hvf.setV (by simp) _, rfl,
      (((s.sameBut_refl _).setScreen (by decide) _).setV (by decide) _ _).setPc (by decide) _⟩
  · have hfault : n ≥ 1 ∧ s.i.toNat + n - 1 ≥ 4096 := by simp only [State.effAddr] at hout; omega
    exact ⟨_, exec_of_execFault (if_pos hfault), rfl, rfl⟩

end Sys2Proof.Machine
end

section
/-! Timers and the keypad (44_timers_keypad.md, 60_exceptions.md R309 to R321). -/
namespace Sys2Proof.Machine

open Sys2Proof

/-! ## The delay timer under ticks -/

/-- `n` ticks of the delay timer lower it by `n`, to zero at the least (R309). -/
theorem runUnder_delay_ticks (n : Nat) (s : State) :
    ∃ t, runUnder (fun _ => .tick .delay) n s = .next t ∧ t.dt.toNat = s.dt.toNat - n := by
  induction n with
  | zero => exact ⟨s, rfl, rfl⟩
  | succ n ih =>
    obtain ⟨t, ht, hdt⟩ := ih
    refine ⟨t.tick .delay, by simp only [runUnder, ht, deliver], ?_⟩
    have htick : (t.tick .delay).dt.toNat = t.dt.toNat - 1 := toNat_tickValue t.dt
    omega

/-- Settles O46: the ticks count down from the written value. -/
theorem timerReadsWrittenValueLessTicks : Obligations.TimerReadsWrittenValueLessTicks := by
  intro x r n s
  obtain ⟨u, hu, hdt⟩ := runUnder_delay_ticks n (s.timerWrite .delay (s.getV x)).advance
  refine ⟨_, u, _, by simp only [exec, execLdDt, timerOfReg_eq], hu, rfl, ?_⟩
  rw [State.getV_advance, State.getV_setV_same, regOfTimer_eq]
  exact hdt

/-! ## Key tests -/

theorem State.keyOperand_eq {s : State} {x : Reg} {k : Fin Config.numKeys} (h : (s.getV x).toNat = k.val) :
    s.keyOperand x = some k := by
  rw [s.keyOperand_of_le x (h ▸ Nat.le_of_lt_succ k.isLt)]
  exact congrArg some (Fin.ext h)

/-- Settles O47: each test is `skipIf` of the key's level, and above 0xF R301's table names the fault. -/
theorem keyTestsSkipByLevel : Obligations.KeyTestsSkipByLevel :=
  ⟨fun x k s h => ⟨⟨_, exec_skp_of_operand (State.keyOperand_eq h), s.skipIf_spec _ id id⟩,
    ⟨_, exec_sknp_of_operand (State.keyOperand_eq h), s.skipIf_spec _ (by simp) (by simp)⟩⟩,
    fun x s h => ⟨⟨_, exec_of_execFault (if_pos h), rfl, rfl⟩, ⟨_, exec_of_execFault (if_pos h), rfl, rfl⟩⟩⟩

/-! ## The key wait -/

/-- What a written key reads, and what the others do. -/
theorem State.setKey_spec (s : State) (k : Fin Config.numKeys) (b : Bool) : (s.setKey k b).keyDown? k = b ∧
    (∀ j, j ≠ k → (s.setKey k b).keyDown? j = s.keyDown? j) ∧ s.sameBut [.key] (s.setKey k b) :=
  ⟨(s.keyDown_setKey k k b).trans (if_pos rfl), fun j hj => (s.keyDown_setKey k j b).trans (if_neg hj),
    (s.sameBut_refl _).setKey (by decide) k b⟩

/-- A key-down of a key that was up completes the wait (R266). -/
theorem State.pressKey_completes {s : State} {x : Reg} {k : Fin Config.numKeys} (hr : s.run = .awaitingKey x)
    (hk : s.keyDown? k = false) :
    s.pressKey k = (((s.setKey k true).setV x (BitVec.ofNat 8 k.val)).advance).setRun .running := by
  rcases s.pressKey_cases k with ⟨y, hy, -, hp⟩ | ⟨y, -, hd, -⟩ | ⟨hn, -⟩
  · obtain rfl := RunState.awaitingKey.inj (hy.symm.trans hr)
    exact hp
  · cases hd.symm.trans hk
  · exact absurd hr (hn x)

/-- A key-down of a key already down does nothing in the wait (R266). -/
theorem State.pressKey_of_key_down {s : State} {x : Reg} {k : Fin Config.numKeys} (hr : s.run = .awaitingKey x)
    (hk : s.keyDown? k = true) : s.pressKey k = s := by
  rcases s.pressKey_cases k with ⟨y, -, hd, -⟩ | ⟨y, -, -, hp⟩ | ⟨hn, -⟩
  · cases hd.symm.trans hk
  · exact hp
  · exact absurd hr (hn x)

/-- No event but a key-down and a reset ends the wait, moves PC or writes a register (R266). -/
theorem deliver_keeps_wait {e : Input} {s t : State} {x : Reg} (hr : s.run = .awaitingKey x)
    (hkey : ∀ k, e ≠ .keyDown k) (hreset : e ≠ .reset) (h : deliver e s = .next t) :
    t.run = .awaitingKey x ∧ t.pc = s.pc ∧ ∀ r : Reg, t.getV r = s.getV r := by
  have hrun : t.run = s.run := by
    rcases deliver_leaves_wait hr h with hr | he | ⟨k, he, -⟩
    · exact hr
    · exact absurd he hreset
    · exact absurd he (hkey k)
  refine ⟨hrun.trans hr, ?_⟩
  cases e with
  | clkInstr =>
    obtain rfl := eq_of_clockEdge_of_wait hr h
    exact ⟨rfl, fun _ => rfl⟩
  | tick timer =>
    obtain rfl := Host.Outcome.next.inj h
    exact ⟨s.timerWrite_pc timer _, s.getV_timerWrite timer _⟩
  | keyDown k => exact absurd rfl (hkey k)
  | keyUp k =>
    obtain rfl := Host.Outcome.next.inj h
    exact ⟨rfl, fun _ => rfl⟩
  | reset => exact absurd rfl hreset
  | load offset bytes => exact ⟨loadEvent_frame h .pc (by decide), loadEvent_frame h .v (by decide)⟩

/-- Settles O48: what a key-down does is `pressKey`'s three cases; a key-up is one `setKey`. -/
theorem keyWaitCompletesOnNewKeyDown : Obligations.KeyWaitCompletesOnNewKeyDown := by
  refine ⟨fun x s => ⟨_, rfl, rfl, (s.sameBut_refl _).setRun (by decide) _⟩, fun x k s hr hk => ?_,
    fun x k s hr hk => ⟨s, congrArg Host.Outcome.next (State.pressKey_of_key_down hr hk), s.sameBut_refl _⟩,
    fun x e s t => deliver_keeps_wait,
    fun k s hr =>
      ⟨_, congrArg Host.Outcome.next (State.pressKey_of_no_wait (by simp [hr]) k), s.setKey_spec k true⟩,
    fun k s => ⟨_, rfl, s.setKey_spec k false⟩⟩
  obtain ⟨hdown, hothers, -⟩ := s.setKey_spec k true
  have hregs : s.sameRegsBut [x] (s.setKey k true) := fun _ _ => rfl
  refine ⟨_, congrArg Host.Outcome.next (State.pressKey_completes hr hk), hdown, hothers, ?_, hregs.setV (by simp) _,
    rfl, rfl, ((((s.sameBut_refl _).setKey (by decide) k true).setV (by decide) x _).setPc (by decide) _).setRun
      (by decide) _⟩
  rw [State.getV_setRun, State.getV_advance, State.getV_setV_same]
  exact (BitVec.toNat_ofNat ..).trans (Nat.mod_eq_of_lt (Nat.lt_trans k.isLt (by decide)))

end Sys2Proof.Machine
end

section
/-! Blitting (43_raster.md R230 to R234): one set bit is one toggle, and a sprite's set bits fall on distinct cells. -/
namespace Sys2Proof.Machine

open Sys2Proof

/-! ## What a run of toggles does -/

/-- From `acc` to `acc'` exactly the cells of `P` were inverted, and the collision is noted where one of them was 1. -/
structure Blitted (P : Nat → Nat → Prop) (acc acc' : Screen × Bool) : Prop where
  inverted : ∀ cx cy, cx < 64 → cy < 32 → P cx cy → acc'.1.cell cx cy = !(acc.1.cell cx cy)
  kept : ∀ cx cy, cx < 64 → cy < 32 → ¬ P cx cy → acc'.1.cell cx cy = acc.1.cell cx cy
  collision : acc'.2 = true ↔ acc.2 = true ∨ ∃ cx cy, cx < 64 ∧ cy < 32 ∧ P cx cy ∧ acc.1.cell cx cy = true

theorem Blitted.none {P : Nat → Nat → Prop} (hP : ∀ cx cy, ¬ P cx cy) (acc : Screen × Bool) : Blitted P acc acc where
  inverted cx cy _ _ h := absurd h (hP cx cy)
  kept _ _ _ _ _ := rfl
  collision := by simp [hP]

/-- One set bit inverts its cell, at the wrapped coordinates. -/
theorem Blitted.bit (acc : Screen × Bool) (x y : Nat) :
    Blitted (fun cx cy => cx = x % 64 ∧ cy = y % 32) acc (Screen.blitBit acc x y) where
  inverted cx cy _ _ h := by
    obtain ⟨rfl, rfl⟩ := h
    simp [Screen.blitBit, Screen.cell_toggle]
  kept cx cy hx hy h := by
    have hne : ¬ (cx % Config.screenW = x % Config.screenW ∧ cy % Config.screenH = y % Config.screenH) := by
      rwa [Nat.mod_eq_of_lt hx, Nat.mod_eq_of_lt hy]
    simp only [Screen.blitBit, Screen.cell_toggle, if_neg hne]
  collision := by
    have hcell : acc.1.cell (x % 64) (y % 32) = acc.1.cell x y := acc.1.cell_mod x y
    have hx : x % 64 < 64 := Nat.mod_lt _ (by decide)
    have hy : y % 32 < 32 := Nat.mod_lt _ (by decide)
    simp only [Screen.blitBit, Bool.or_eq_true]
    refine or_congr_right ⟨fun h => ⟨_, _, hx, hy, ⟨rfl, rfl⟩, hcell.trans h⟩, ?_⟩
    rintro ⟨_, _, -, -, ⟨rfl, rfl⟩, h⟩
    exact hcell.symm.trans h

/-- Two runs of toggles on disjoint cells are one on both. -/
theorem Blitted.trans {P Q R : Nat → Nat → Prop} {a b c : Screen × Bool} (hab : Blitted P a b) (hbc : Blitted Q b c)
    (hdisj : ∀ cx cy, P cx cy → ¬ Q cx cy) (hR : ∀ cx cy, R cx cy ↔ P cx cy ∨ Q cx cy) : Blitted R a c where
  inverted cx cy hx hy h := by
    rcases (hR cx cy).mp h with hP | hQ
    · rw [hbc.kept cx cy hx hy (hdisj cx cy hP), hab.inverted cx cy hx hy hP]
    · rw [hbc.inverted cx cy hx hy hQ, hab.kept cx cy hx hy fun hP => hdisj cx cy hP hQ]
  kept cx cy hx hy h := by
    obtain ⟨hP, hQ⟩ := not_or.mp fun hPQ => h ((hR cx cy).mpr hPQ)
    rw [hbc.kept cx cy hx hy hQ, hab.kept cx cy hx hy hP]
  collision := by
    rw [hbc.collision, hab.collision, or_assoc]
    refine or_congr_right ⟨?_, ?_⟩
    · rintro (⟨cx, cy, hx, hy, hP, hc⟩ | ⟨cx, cy, hx, hy, hQ, hc⟩)
      · exact ⟨cx, cy, hx, hy, (hR cx cy).mpr (.inl hP), hc⟩
      · rw [hab.kept cx cy hx hy fun hP => hdisj cx cy hP hQ] at hc
        exact ⟨cx, cy, hx, hy, (hR cx cy).mpr (.inr hQ), hc⟩
    · rintro ⟨cx, cy, hx, hy, hPQ, hc⟩
      rcases (hR cx cy).mp hPQ with hP | hQ
      · exact .inl ⟨cx, cy, hx, hy, hP, hc⟩
      · rw [← hab.kept cx cy hx hy fun hP => hdisj cx cy hP hQ] at hc
        exact .inr ⟨cx, cy, hx, hy, hQ, hc⟩

/-! ## Rows and sprites -/

/-- One of the first `n` bits of a row at `(x, y)` is set for the cell `(cx, cy)` (R232). -/
def rowSets (row : Byte) (n x y cx cy : Nat) : Prop :=
  ∃ b, b < n ∧ row.getLsbD (7 - b) = true ∧ cx = (x + b) % 64 ∧ cy = y % 32

theorem rowSets_succ (row : Byte) (n x y cx cy : Nat) : rowSets row (n + 1) x y cx cy ↔
    rowSets row n x y cx cy ∨ (row.getLsbD (7 - n) = true ∧ cx = (x + n) % 64 ∧ cy = y % 32) := by
  constructor
  · rintro ⟨b, hb, h⟩
    rcases Nat.lt_succ_iff_lt_or_eq.mp hb with hlt | rfl
    · exact .inl ⟨b, hlt, h⟩
    · exact .inr h
  · rintro (⟨b, hb, h⟩ | h)
    · exact ⟨b, by omega, h⟩
    · exact ⟨n, by omega, h⟩

/-- The first `n` bits of a row fall on distinct columns. -/
theorem blitted_bits (row : Byte) (acc : Screen × Bool) (x y : Nat) {n : Nat} (hn : n ≤ 8) :
    Blitted (rowSets row n x y) acc ((List.range n).foldl
      (fun acc bit => if row.getLsbD (7 - bit) then Screen.blitBit acc (x + bit) y else acc) acc) := by
  induction n with
  | zero => exact .none (fun cx cy ⟨b, hb, _⟩ => absurd hb (Nat.not_lt_zero b)) acc
  | succ n ih =>
    rw [List.range_succ, List.foldl_append, List.foldl_cons, List.foldl_nil]
    have hprev := ih (by omega)
    by_cases hbit : row.getLsbD (7 - n) = true
    · rw [if_pos hbit]
      refine hprev.trans (.bit _ (x + n) y) ?_ (fun cx cy => by simp only [rowSets_succ, hbit, true_and])
      rintro cx cy ⟨b, hb, -, hcx, -⟩ ⟨hcx', -⟩
      omega
    · rw [if_neg hbit]
      refine hprev.trans (.none (P := fun _ _ => False) (fun _ _ => id) _) (fun _ _ _ => id)
        (fun cx cy => by simp [rowSets_succ, hbit])

theorem blitted_row (row : Byte) (acc : Screen × Bool) (x y : Nat) :
    Blitted (rowSets row 8 x y) acc (Screen.blitRow acc x y row) := blitted_bits row acc x y (Nat.le_refl 8)

theorem spriteSets_cons (row : Byte) (rows : List Byte) (x y cx cy : Nat) :
    spriteSets (row :: rows) x y cx cy ↔ rowSets row 8 x y cx cy ∨ spriteSets rows x (y + 1) cx cy := by
  constructor
  · rintro ⟨r, b, hr, hb, hbit, hcx, hcy⟩
    cases r with
    | zero => exact .inl ⟨b, hb, hbit, hcx, hcy⟩
    | succ r => exact .inr ⟨r, b, Nat.lt_of_succ_lt_succ hr, hb, hbit, hcx, by omega⟩
  · rintro (⟨b, hb, hbit, hcx, hcy⟩ | ⟨r, b, hr, hb, hbit, hcx, hcy⟩)
    · exact ⟨0, b, Nat.zero_lt_succ _, hb, hbit, hcx, hcy⟩
    · exact ⟨r + 1, b, Nat.succ_lt_succ hr, hb, hbit, hcx, by omega⟩

/-- The rows of a sprite of at most 32 rows fall on distinct rows of the grid. -/
theorem blitted_rows (x : Nat) (rows : List Byte) : ∀ (acc : Screen × Bool) (y : Nat), rows.length ≤ 32 →
    Blitted (spriteSets rows x y) acc (Screen.blitRows acc x y rows) := by
  induction rows with
  | nil => exact fun acc y _ => .none (fun cx cy ⟨r, b, hr, _⟩ => absurd hr (Nat.not_lt_zero r)) acc
  | cons row rows ih =>
    intro acc y hlen
    rw [List.length_cons] at hlen
    refine (blitted_row row acc x y).trans (ih _ (y + 1) (by omega)) ?_ (spriteSets_cons row rows x y)
    rintro cx cy ⟨b, -, -, -, hcy⟩ ⟨r, b', hr, -, -, -, hcy'⟩
    omega

/-- A blit of a sprite of at most 15 rows (R92). -/
theorem blitted_blit (sc : Screen) (x y : Nat) {rows : List Byte} (h : rows.length ≤ 15) :
    Blitted (spriteSets rows x y) (sc, false) (sc.blit x y rows) := blitted_rows x rows _ y (by omega)

theorem spriteSets_lt {rows : List Byte} {x y cx cy : Nat} (h : spriteSets rows x y cx cy) : cx < 64 ∧ cy < 32 := by
  obtain ⟨r, b, -, -, -, rfl, rfl⟩ := h
  exact ⟨Nat.mod_lt _ (by decide), Nat.mod_lt _ (by decide)⟩

/-- Settles O39: the toggled cells are the sprite's, each toggled once. -/
theorem blitXorsEachCell : Obligations.BlitXorsEachCell := fun sc x y _ hlen cx cy hx hy =>
  ⟨(blitted_blit sc x y hlen).inverted cx cy hx hy, (blitted_blit sc x y hlen).kept cx cy hx hy⟩

/-! ## Collision -/

/-- The second blit of a sprite undoes the first. -/
theorem cell_blit_twice (sc : Screen) (x y : Nat) {rows : List Byte} (hlen : rows.length ≤ 15) (cx cy : Nat) :
    ((sc.blit x y rows).1.blit x y rows).1.cell cx cy = sc.cell cx cy := by
  have h1 := blitted_blit sc x y hlen
  have h2 := blitted_blit (sc.blit x y rows).1 x y hlen
  have hx : cx % 64 < 64 := Nat.mod_lt _ (by decide)
  have hy : cy % 32 < 32 := Nat.mod_lt _ (by decide)
  rw [← Screen.cell_mod, ← Screen.cell_mod sc]
  by_cases hs : spriteSets rows x y (cx % 64) (cy % 32)
  · rw [h2.inverted _ _ hx hy hs, h1.inverted _ _ hx hy hs, Bool.not_not]
  · rw [h2.kept _ _ hx hy hs, h1.kept _ _ hx hy hs]

/-- Settles O40: the collision is noted where a set bit met a 1, and after the first blit those are the cells that
were 0. -/
theorem collisionExactlyOnOneOverOne : Obligations.CollisionExactlyOnOneOverOne := by
  intro sc x y rows hlen
  have h1 := blitted_blit sc x y hlen
  have h2 := blitted_blit (sc.blit x y rows).1 x y hlen
  have hinv : ∀ {cx cy}, spriteSets rows x y cx cy → (sc.blit x y rows).1.cell cx cy = !(sc.cell cx cy) :=
    fun hs => h1.inverted _ _ (spriteSets_lt hs).1 (spriteSets_lt hs).2 hs
  refine ⟨h1.collision.trans ?_, h2.collision.trans ?_, cell_blit_twice sc x y hlen⟩
  · simp only [Bool.false_eq_true, false_or]
    constructor
    · rintro ⟨cx, cy, hx, hy, hs, hc⟩
      exact ⟨cx, cy, hx, hy, hs, hc, by rw [hinv hs, hc, Bool.not_true]⟩
    · rintro ⟨cx, cy, hx, hy, hs, hc, -⟩
      exact ⟨cx, cy, hx, hy, hs, hc⟩
  · simp only [Bool.false_eq_true, false_or]
    constructor
    · rintro ⟨cx, cy, -, -, hs, hc⟩
      exact ⟨cx, cy, hs, by simpa [hinv hs] using hc⟩
    · rintro ⟨cx, cy, hs, hc⟩
      exact ⟨cx, cy, (spriteSets_lt hs).1, (spriteSets_lt hs).2, hs, by rw [hinv hs, hc, Bool.not_false]⟩

end Sys2Proof.Machine
end

section
/-! The host's events, the output ports, schedules and the end of a run (60_exceptions.md R309 to R319,
70_reset_and_hazards.md R356, R357). -/
namespace Sys2Proof.Machine

open Sys2Proof

/-! ## The host's events and memory -/

/-- A frame with more pieces listed says less. -/
theorem State.sameBut.mono {s t : State} {parts parts' : List Part} (h : s.sameBut parts t)
    (hsub : ∀ p ∈ parts, p ∈ parts') : s.sameBut parts' t := fun p hp => h p fun hmem => hp (hsub p hmem)

theorem State.pressKey_frame (s : State) (k : Fin Config.numKeys) :
    s.sameBut [.v, .pc, .key, .run] (s.pressKey k) := by
  rcases s.pressKey_cases k with ⟨x, -, -, hp⟩ | ⟨x, -, -, hp⟩ | ⟨-, hp⟩ <;> rw [hp]
  · exact ((((s.sameBut_refl _).setKey (by decide) _ _).setV (by decide) _ _).setPc (by decide) _).setRun
      (by decide) _
  · exact s.sameBut_refl _
  · exact (s.sameBut_refl _).setKey (by decide) _ _

/-- Once the run has started, the events but the clock's and a reset keep memory and the raster among others. -/
theorem deliver_frame_of_started {e : Input} {s t : State} (hg : s.stage = .started) (hclk : e ≠ .clkInstr)
    (hreset : e ≠ .reset) (h : deliver e s = .next t) : s.sameBut [.v, .pc, .dt, .st, .key, .run] t := by
  cases e with
  | clkInstr => exact absurd rfl hclk
  | reset => exact absurd rfl hreset
  | tick timer =>
    obtain rfl := Host.Outcome.next.inj h
    exact (s.sameBut_refl _).tick (by decide) (by decide) timer
  | keyDown k =>
    obtain rfl := Host.Outcome.next.inj h
    exact (s.pressKey_frame k).mono (by decide)
  | keyUp k =>
    obtain rfl := Host.Outcome.next.inj h
    exact (s.sameBut_refl _).setKey (by decide) k false
  | load offset bytes =>
    rcases loadEvent_cases offset bytes s with ⟨-, hl⟩ | ⟨hn, -⟩ | ⟨hn, -⟩
    · cases hl.symm.trans h
    · exact absurd hg hn
    · exact absurd hg hn

/-- Settles O9: the frame of the host's events, for memory and for the raster. -/
theorem onlyTheCoreWritesMemoryOnceStarted : Obligations.OnlyTheCoreWritesMemoryOnceStarted :=
  fun _ _ _ hg hclk hreset h =>
    have hframe := deliver_frame_of_started hg hclk hreset h
    ⟨hframe .mem (by decide), hframe .screen (by decide)⟩

/-! ## The output ports -/

/-- The snapshot is row-major: bit k is in row k / 64 and column k % 64 (R37, R315). -/
theorem Screen.getLsbD_snapshot (sc : Screen) {k : Nat} (hk : k < Config.screenW * Config.screenH) :
    sc.snapshot.getLsbD k = sc.cell (k % Config.screenW) (k / Config.screenW) := by
  rw [Screen.snapshot, BitVec.getLsbD_ofFnLE, dif_pos hk]

theorem Screen.getLsbD_snapshot_cell (sc : Screen) {x y : Nat} (hx : x < 64) (hy : y < 32) :
    sc.snapshot.getLsbD (y * 64 + x) = sc.cell x y := by
  have hcol : (y * 64 + x) % 64 = x := by omega
  have hrow : (y * 64 + x) / 64 = y := by omega
  rw [sc.getLsbD_snapshot (show y * 64 + x < 64 * 32 by omega), hcol, hrow]

theorem RunState.awaiting_iff (r : RunState) : r.awaiting = true ↔ ∃ x, r = .awaitingKey x := by
  cases r <;> simp [RunState.awaiting]

theorem RunState.report_eq_some_iff (r : RunState) (kind : FaultKind) (word : Option Word) (p : PcValue) :
    r.report = some (kind, word, p) ↔ r = .faulted kind word p := by
  cases r <;> simp [RunState.report]

@[simp] theorem State.outputs_screen (s : State) : s.outputs.screen = s.screen.snapshot := by
  simp only [State.outputs]

/-- Settles O43: each port is read off the state, the key wait and the report off RUN. -/
theorem outputPortsShowState : Obligations.OutputPortsShowState := by
  intro s
  refine ⟨fun x y hx hy => ?_, rfl, rfl, s.run.awaiting_iff, s.run.report_eq_some_iff⟩
  rw [State.outputs_screen]
  exact s.screen.getLsbD_snapshot_cell hx hy

/-! ## Schedules: the core's step -/

/-- An event that is neither the clock's nor a reset nor a load changes at most DT, ST and the keys of a running
core. -/
theorem deliver_frame_of_running {e : Input} {s t : State} (hframe : s.sameBut [.dt, .st, .key] t)
    (hr : s.run = .running) (hclk : e ≠ .clkInstr) (hreset : e ≠ .reset)
    (hload : ∀ offset bytes, e ≠ .load offset bytes) :
    ∃ u, deliver e t = .next u ∧ s.sameBut [.dt, .st, .key] u := by
  have hrt : t.run = .running := (hframe .run (by decide)).trans hr
  cases e with
  | clkInstr => exact absurd rfl hclk
  | reset => exact absurd rfl hreset
  | load offset bytes => exact absurd rfl (hload offset bytes)
  | tick timer => exact ⟨_, rfl, hframe.tick (by decide) (by decide) timer⟩
  | keyUp k => exact ⟨_, rfl, hframe.setKey (by decide) k false⟩
  | keyDown k =>
    refine ⟨_, congrArg Host.Outcome.next (State.pressKey_of_no_wait (by simp [hrt]) k), ?_⟩
    exact hframe.setKey (by decide) k true

theorem runUnder_succ {sched : Schedule} {n : Nat} {s t : State} (h : runUnder sched n s = .next t) :
    runUnder sched (n + 1) s = deliver (sched n) t := by simp only [runUnder, h]

/-- Until the clock ticks, a running core keeps all but DT, ST and the keys. -/
theorem runUnder_frame_of_running {sched : Schedule} {s : State} (hr : s.run = .running)
    (hreset : ∀ n, sched n ≠ .reset) (hload : ∀ n offset bytes, sched n ≠ .load offset bytes) (n : Nat)
    (hclk : ∀ k, k < n → sched k ≠ .clkInstr) :
    ∃ t, runUnder sched n s = .next t ∧ s.sameBut [.dt, .st, .key] t := by
  induction n with
  | zero => exact ⟨s, rfl, s.sameBut_refl _⟩
  | succ n ih =>
    obtain ⟨t, ht, hframe⟩ := ih fun k hk => hclk k (by omega)
    obtain ⟨u, hu, hframe'⟩ :=
      deliver_frame_of_running hframe hr (hclk n (by omega)) (hreset n) (hload n)
    exact ⟨u, (runUnder_succ ht).trans hu, hframe'⟩

/-- Settles O51: fairness gives a first tick of the clock, and the events before it leave the core running. -/
theorem runningCoreEventuallySteps : Obligations.RunningCoreEventuallySteps := by
  intro sched s hfair hreset hload ⟨hr, hg⟩
  have hex : ∃ n, sched n = .clkInstr := (hfair 0).imp fun _ h => h.2
  have hmin : ∀ k, k < Nat.find hex → sched k ≠ .clkInstr := fun k hk => Nat.find_min hex hk
  obtain ⟨t, ht, hframe⟩ := runUnder_frame_of_running hr hreset hload (Nat.find hex) hmin
  have hrt : t.run = .running := (hframe .run (by decide)).trans hr
  have hgt : t.stage ≠ .loadFailed := fun h => hg ((hframe .stage (by decide)).symm.trans h)
  refine ⟨Nat.find hex, t, ht, hmin, Nat.find_spec hex, hframe, ?_⟩
  rw [runUnder_succ ht, Nat.find_spec hex]
  exact clockEdge_of_runs hrt hgt

/-! ## Schedules: a timer during the key wait -/

/-- A tick of a timer never raises a timer. -/
theorem State.timerRead_tick_le (s : State) (timer other : Timer) :
    ((s.tick other).timerRead timer).toNat ≤ (s.timerRead timer).toNat := by
  cases timer <;> cases other
  · exact (toNat_tickValue s.dt).trans_le (Nat.sub_le ..)
  · exact Nat.le_refl _
  · exact Nat.le_refl _
  · exact (toNat_tickValue s.st).trans_le (Nat.sub_le ..)

/-- A tick of a timer lowers it by one, to zero at the least (R309). -/
theorem State.timerRead_tick (s : State) (timer : Timer) :
    ((s.tick timer).timerRead timer).toNat = (s.timerRead timer).toNat - 1 := by
  rw [State.tick, State.timerRead_timerWrite, toNat_tickValue]

/-- The core waits at `p`, with at most `v` left in the timer. -/
def State.WaitsWith (timer : Timer) (x : Reg) (p : PcValue) (v : Nat) (t : State) : Prop :=
  t.run = .awaitingKey x ∧ t.pc = p ∧ (t.timerRead timer).toNat ≤ v

section
variable {timer : Timer} {x : Reg} {p : PcValue} {v : Nat} {t : State} (ht : t.WaitsWith timer x p v)
include ht

theorem State.WaitsWith.tick_other (other : Timer) : (t.tick other).WaitsWith timer x p v :=
  ⟨(t.tick_run other).trans ht.1, (t.timerWrite_pc other _).trans ht.2.1,
    (t.timerRead_tick_le timer other).trans ht.2.2⟩

theorem State.WaitsWith.tick : (t.tick timer).WaitsWith timer x p (v - 1) := by
  obtain ⟨hr, hp, hv⟩ := ht
  refine ⟨(t.tick_run timer).trans hr, (t.timerWrite_pc timer _).trans hp, ?_⟩
  rw [t.timerRead_tick]
  exact Nat.sub_le_sub_right hv 1

/-- No event of the clock or a timer ends the wait or raises the timer. -/
theorem State.WaitsWith.deliver {e : Input} (he : e.isTick = true) :
    ∃ u, Machine.deliver e t = .next u ∧ u.WaitsWith timer x p v := by
  cases e with
  | clkInstr => exact ⟨t, clockEdge_of_not_running (by simp [ht.1]), ht⟩
  | tick other => exact ⟨_, rfl, ht.tick_other other⟩
  | keyDown _ | keyUp _ | reset | load _ _ => cases he

end

section
variable {sched : Schedule} {timer : Timer} {s : State} {x : Reg} {p : PcValue}
variable (hticks : ∀ n, (sched n).isTick = true)
include hticks

theorem runUnder_waitsWith {n v : Nat} {t : State} (hrun : runUnder sched n s = .next t)
    (ht : t.WaitsWith timer x p v) (k : Nat) :
    ∃ u, runUnder sched (n + k) s = .next u ∧ u.WaitsWith timer x p v := by
  induction k with
  | zero => exact ⟨t, hrun, ht⟩
  | succ k ih =>
    obtain ⟨u, hu, hw⟩ := ih
    obtain ⟨u', hu', hw'⟩ := hw.deliver (hticks (n + k))
    exact ⟨u', (runUnder_succ hu).trans hu', hw'⟩

/-- Under a schedule fair to the timer a wait comes to zero: each next tick lowers what is left. -/
theorem runUnder_reaches_zero (hfair : sched.fairTo timer) (v : Nat) : ∀ {n : Nat} {t : State},
    runUnder sched n s = .next t → t.WaitsWith timer x p v →
    ∃ m u, runUnder sched m s = .next u ∧ u.WaitsWith timer x p 0 := by
  induction v with
  | zero => exact fun hrun ht => ⟨_, _, hrun, ht⟩
  | succ v ih =>
    intro n t hrun ht
    obtain ⟨m, hnm, hm⟩ := hfair n
    obtain ⟨k, rfl⟩ := Nat.exists_eq_add_of_le hnm
    obtain ⟨u, hu, hw⟩ := runUnder_waitsWith hticks hrun ht k
    exact ih ((runUnder_succ hu).trans (by rw [hm]; rfl)) hw.tick

end

/-- Settles O50: the wait starts with the timer's own value and comes to zero. -/
theorem timerReachesZeroDuringKeyWait : Obligations.TimerReachesZeroDuringKeyWait := by
  intro sched timer s x hfair hticks hr
  obtain ⟨n, t, ht, hrun, hpc, hzero⟩ :=
    runUnder_reaches_zero (n := 0) hticks hfair _ rfl ⟨hr, rfl, Nat.le_refl (s.timerRead timer).toNat⟩
  exact ⟨n, t, ht, BitVec.eq_of_toNat_eq (Nat.le_zero.mp hzero), hrun, hpc⟩

/-! ## The end of a run (R357) -/

theorem State.isFinished_iff (s : State) : s.isFinished = true ↔
    s.Runs ∧ s.fetchWord = some (wordA 0x1 s.pc.toNat) ∧ s.pc.toNat < 4096 := by
  simp [State.isFinished, and_assoc]

/-- The word 1NNN with NNN = PC is a jump to PC. -/
theorem decode_selfJump {p : PcValue} (h : p.toNat < 4096) :
    ∃ nnn : Addr12, decode (wordA 0x1 p.toNat) = .ok (.jp nnn) ∧ pcOfAddr nnn = p := by
  have hn : (BitVec.ofNat 12 p.toNat).toNat = p.toNat := (BitVec.toNat_ofNat ..).trans (Nat.mod_eq_of_lt h)
  refine ⟨BitVec.ofNat 12 p.toNat, ?_, BitVec.eq_of_toNat_eq ((toNat_pcOfAddr _).trans hn)⟩
  have hd := decodeOfEncodeIsIdentity (.jp (BitVec.ofNat 12 p.toNat)) rfl
  rwa [encode, hn] at hd

/-- At a self-jump the clock notes the start and changes nothing else. -/
theorem clockEdge_of_finished {s : State} (h : s.isFinished = true) : clockEdge s = .next s.start := by
  obtain ⟨⟨hr, hg⟩, hf, hlt⟩ := s.isFinished_iff.mp h
  obtain ⟨nnn, hd, hpc⟩ := decode_selfJump hlt
  rw [clockEdge_of_decode hr hg hf hd]
  show Host.Outcome.next (s.start.setPc (pcOfAddr nnn)) = .next s.start
  rw [hpc]
  rfl

theorem State.isFinished_start {s : State} (h : s.isFinished = true) : s.start.isFinished = true := by
  obtain ⟨⟨hr, -⟩, hf, hlt⟩ := s.isFinished_iff.mp h
  exact s.start.isFinished_iff.mpr ⟨⟨hr, by simp⟩, hf, hlt⟩

/-- Settles O56: the jump is to PC itself, and a timer is no part of what makes a run finished. -/
theorem finishedRunStaysFinished : Obligations.FinishedRunStaysFinished :=
  fun s h => ⟨⟨_, clockEdge_of_finished h, (s.sameBut_refl _).setStage (by decide) _, s.start_of_started,
      State.isFinished_start h⟩,
    ⟨_, rfl, (s.sameBut_refl _).timerWrite_delay (by decide) _, h⟩,
    ⟨_, rfl, (s.sameBut_refl _).timerWrite_sound (by decide) _, h⟩⟩

end Sys2Proof.Machine
end

section
/-! What an execution does not read: ST, the stack's entries at and above SP, and the pending events (10_state.md
R31, R34). -/
namespace Sys2Proof.Machine

open Sys2Proof

/-- The state with other contents in the pieces that an execution does not read. -/
def State.withUnread (s : State) (st : TimerValue) (stack : Vector EntryValue Config.stackDepth)
    (inputs : List Input) : State :=
  { s with st := st, stack := stack, inputs := inputs }

/-- ST after an execution from `s`, where ST was `st`: FX18 alone writes it. -/
def stAfter (i : Instr) (s : State) (st : TimerValue) : TimerValue :=
  match i with
  | .ldSt x => (s.getV x).setWidth Config.timerWidth
  | _ => st

/-- The stack's entries after an execution from `s`, where they were `stack`: CALL alone writes one, at SP. -/
def stackAfter (i : Instr) (s : State) (stack : Vector EntryValue Config.stackDepth) :
    Vector EntryValue Config.stackDepth :=
  match i with
  | .call _ => if h : s.sp.val < Config.stackDepth then stack.set s.sp.val (s.pc + 2) h else stack
  | _ => stack

/-! ## Executions -/

theorem execFault_withUnread (i : Instr) (s : State) (st : TimerValue) (stack : Vector EntryValue Config.stackDepth)
    (inputs : List Input) : execFault i (s.withUnread st stack inputs) = execFault i s := by
  cases i <;> rfl

/-- A fault forgets what was not read, but for the pending events (R304; log 3). -/
theorem exec_withUnread_of_execFault {i : Instr} {s : State} {kind : FaultKind} (h : execFault i s = some kind)
    (st : TimerValue) (stack : Vector EntryValue Config.stackDepth) (inputs : List Input) :
    exec i (s.withUnread st stack inputs) = .next ((s.setInputs inputs).takeFault kind (some (encode i))) := by
  rw [← execFault_withUnread i s st stack inputs] at h
  rw [exec_of_execFault h]
  exact congrArg Host.Outcome.next (State.takeFault_congr rfl rfl rfl rfl kind _)

section
variable {i : Instr} {s t : State} (ht : t.isFaulted = false) (h : exec i s = .next t)
include ht h

/-- An execution that does not fault does the same whatever is in the pieces it does not read: RET reads the entry
below SP, so the entries below SP are the same. -/
theorem exec_withUnread (st : TimerValue) {stack : Vector EntryValue Config.stackDepth}
    (hstack : ∀ k : Fin Config.stackDepth, k.val < s.sp.val → stack[k] = s.stack[k]) (inputs : List Input) :
    exec i (s.withUnread st stack inputs) =
      .next (t.withUnread (stAfter i s st) (stackAfter i s stack) inputs) := by
  cases i with
  | ret k =>
    obtain ⟨n, hn, hsp, rfl⟩ := exec_ret_next ht h
    have hentry : stack[n] = s.stack[n] := hstack ⟨n, hn⟩ (by rw [hsp]; exact Nat.lt_succ_self n)
    rw [← hentry]
    exact exec_ret_of_succ k (s.withUnread st stack inputs) hn hsp
  | call nnn =>
    obtain ⟨hsp, rfl⟩ := exec_call_next ht h
    simp only [stackAfter, dif_pos hsp]
    exact exec_call_of_lt nnn (s.withUnread st stack inputs) hsp
  | drw _ _ _ =>
    obtain ⟨rows, hrows, rfl⟩ := exec_drw_next ht h
    exact exec_drw_of_reads (s := s.withUnread st stack inputs) hrows
  | skp _ =>
    obtain ⟨k, hk, rfl⟩ := exec_skp_next ht h
    exact exec_skp_of_operand (s := s.withUnread st stack inputs) hk
  | sknp _ =>
    obtain ⟨k, hk, rfl⟩ := exec_sknp_next ht h
    exact exec_sknp_of_operand (s := s.withUnread st stack inputs) hk
  | ldF _ =>
    obtain ⟨d, hd, rfl⟩ := exec_ldF_next ht h
    exact exec_ldF_of_operand (s := s.withUnread st stack inputs) hd
  | loadRegs _ =>
    obtain ⟨bytes, hbytes, rfl⟩ := exec_loadRegs_next ht h
    exact exec_loadRegs_of_reads (s := s.withUnread st stack inputs) hbytes
  | ldB _ | storeRegs _ =>
    obtain ⟨m, hm, rfl⟩ := storeAtI_next ht h
    exact storeAtI_of_writes (s := s.withUnread st stack inputs) hm
  | cls _ | jp _ | seByte _ _ | sneByte _ _ | seReg _ _ | ldByte _ _ | addByte _ _ | ldReg _ _ | orReg _ _
  | andReg _ _ | xorReg _ _ | addReg _ _ | subReg _ _ | shr _ _ | subnReg _ _ | shl _ _ | sneReg _ _ | ldI _
  | jpV0 _ | rnd _ _ | ldFromDt _ | ldKey _ | ldDt _ | ldSt _ | addI _ =>
    obtain rfl := Host.Outcome.next.inj h
    rfl

/-- The pieces an execution does not read, after it. -/
theorem exec_unread_after : t.st = stAfter i s s.st ∧ t.stack = stackAfter i s s.stack ∧ t.inputs = s.inputs := by
  have hself : t = t.withUnread (stAfter i s s.st) (stackAfter i s s.stack) s.inputs :=
    Host.Outcome.next.inj (h.symm.trans (exec_withUnread ht h s.st (fun _ _ => rfl) s.inputs))
  exact ⟨congrArg State.st hself, congrArg State.stack hself, (congrArg State.inputs hself).trans rfl⟩

end

/-! ## ST (R34) -/

theorem stAfter_of_ne_ldSt {i : Instr} (h : ¬ ∃ x, i = .ldSt x) (s : State) (st : TimerValue) :
    stAfter i s st = st := by
  cases i with
  | ldSt x => exact absurd ⟨x, rfl⟩ h
  | _ => rfl

/-- The same execution with ST at `b`. -/
theorem exec_timerWrite_sound {i : Instr} {s t : State} (ht : t.isFaulted = false) (h : exec i s = .next t)
    (b : TimerValue) : exec i (s.timerWrite .sound b) = .next (t.timerWrite .sound (stAfter i s b)) := by
  obtain ⟨-, hstack, hinputs⟩ := exec_unread_after ht h
  refine (exec_withUnread ht h b (fun _ _ => rfl) s.inputs).trans ?_
  rw [← hstack, ← hinputs]
  rfl

/-- Settles O54: a fault forgets ST, LD ST, Vx writes it from a register, and every other instruction keeps it. -/
theorem soundTimerIsNeverRead : Obligations.SoundTimerIsNeverRead := by
  intro i s b hr
  rcases exec_answer i s with ⟨kind, hk, he⟩ | ⟨hn, t, he, -⟩
  · exact ⟨_, he, fun _ => exec_withUnread_of_execFault hk b s.stack s.inputs, fun hno => absurd (.inr rfl) hno⟩
  · have ht : t.isFaulted = false := exec_not_faulted hr hn he
    refine ⟨t, he, ?_, fun hno => ?_⟩
    · rintro (⟨x, rfl⟩ | hf)
      · have hst : t.st = stAfter (.ldSt x) s b := (exec_unread_after ht he).1
        rw [exec_timerWrite_sound ht he b, ← hst]
        rfl
      · cases ht.symm.trans hf
    · rw [exec_timerWrite_sound ht he b, stAfter_of_ne_ldSt fun hx => hno (.inl hx)]

/-! ## The stack's entries (R31, D38) -/

/-- Entries that agree below SP agree below the new SP: CALL writes the entry that SP rises over. -/
theorem stackAfter_agrees {i : Instr} {s t : State} (ht : t.isFaulted = false) (h : exec i s = .next t)
    {stack : Vector EntryValue Config.stackDepth}
    (hstack : ∀ k : Fin Config.stackDepth, k.val < s.sp.val → stack[k] = s.stack[k]) (k : Fin Config.stackDepth)
    (hk : k.val < t.sp.val) : (stackAfter i s stack)[k] = (stackAfter i s s.stack)[k] := by
  cases i with
  | call nnn =>
    obtain ⟨hsp, rfl⟩ := exec_call_next ht h
    have hle : k.val < s.sp.val + 1 := hk
    simp only [stackAfter, dif_pos hsp, Fin.getElem_fin, Vector.getElem_set]
    split
    · rfl
    · exact hstack k (by omega)
  | ret _ =>
    obtain ⟨n, hn, hsp, rfl⟩ := exec_ret_next ht h
    have hlt : k.val < n := hk
    exact hstack k (by omega)
  | _ =>
    have hsp : t.sp = s.sp := exec_frame ht h .sp (by simp [mayWrite])
    exact hstack k (hsp ▸ hk)

/-- Settles O55: a fault forgets the stack, and every other execution keeps the two stacks equal below SP. -/
theorem stackEntriesAboveSpAreUnobservable : Obligations.StackEntriesAboveSpAreUnobservable := by
  intro i s other hr hagree
  rcases exec_answer i s with ⟨kind, hk, he⟩ | ⟨hn, t, he, -⟩
  · have hother : exec i { s with stack := other } = .next (s.takeFault kind (some (encode i))) :=
      exec_withUnread_of_execFault hk s.st other s.inputs
    generalize s.takeFault kind (some (encode i)) = t at he hother
    exact ⟨t, t, he, hother, rfl, fun _ _ => rfl⟩
  · have ht : t.isFaulted = false := exec_not_faulted hr hn he
    obtain ⟨hst, hstack, hinputs⟩ := exec_unread_after ht he
    refine ⟨t, { t with stack := stackAfter i s other }, he,
      (exec_withUnread ht he s.st hagree s.inputs).trans ?_, rfl, fun k hk => ?_⟩
    · rw [← hst, ← hinputs]
      rfl
    · rw [hstack]
      exact stackAfter_agrees ht he hagree k hk

end Sys2Proof.Machine
end

section
/-! Every schedule is a run of steps (70_reset_and_hazards.md R356; log 1): an event does the same whatever is
pending. -/
namespace Sys2Proof.Machine

open Sys2Proof

/-! ## One event after another -/

/-- Go on from a next state; a stop stays. -/
def Result.andThen (r : Result) (f : State → Result) : Result :=
  match r with
  | .next s => f s
  | .fault q => .fault q
  | .refused q => .refused q

theorem Result.andThen_next (r : Result) : Result.andThen r .next = r := by cases r <;> rfl

theorem Result.andThen_assoc (r : Result) (f g : State → Result) :
    Result.andThen (Result.andThen r f) g = Result.andThen r fun s => Result.andThen (f s) g := by
  cases r <;> rfl

/-- The answer with other pending events. -/
def Result.setInputs (r : Result) (l : List Input) : Result := Result.andThen r fun s => .next (s.setInputs l)

theorem runUnder_eq_andThen (sched : Schedule) (n : Nat) (s : State) :
    runUnder sched (n + 1) s = Result.andThen (runUnder sched n s) (deliver (sched n)) := by
  cases h : runUnder sched n s <;> simp only [runUnder, h, Result.andThen]

theorem runSteps_eq_andThen (n : Nat) (s : State) : runSteps (n + 1) s = Result.andThen (step s) (runSteps n) := by
  cases h : step s <;> simp only [runSteps, h, Result.andThen]

/-- A schedule after its first event. -/
def Schedule.tail (sched : Schedule) : Schedule := fun n => sched (n + 1)

theorem Schedule.take_succ (sched : Schedule) (n : Nat) :
    sched.take (n + 1) = sched 0 :: sched.tail.take n := by
  simp [Schedule.take, Schedule.tail, List.range_succ_eq_map, Function.comp_def]

/-- A run under a schedule, from its first event on. -/
theorem runUnder_eq_first (sched : Schedule) (n : Nat) (s : State) :
    runUnder sched (n + 1) s = Result.andThen (deliver (sched 0) s) (runUnder sched.tail n) := by
  induction n with
  | zero => exact (Result.andThen_next _).symm
  | succ n ih =>
    have htail : runUnder sched.tail (n + 1) =
        fun t => Result.andThen (runUnder sched.tail n t) (deliver (sched (n + 1))) :=
      funext (runUnder_eq_andThen sched.tail n)
    rw [runUnder_eq_andThen, ih, Result.andThen_assoc, htail]

/-! ## Events whatever is pending -/

theorem raise_setInputs (kind : FaultKind) (word : Option Word) (s : State) (l : List Input) :
    raise kind word (s.setInputs l) = Result.setInputs (raise kind word s) l :=
  congrArg Host.Outcome.next (s.takeFault_setInputs l kind word)

theorem exec_setInputs (i : Instr) {s : State} (hr : s.run = .running) (l : List Input) :
    exec i (s.setInputs l) = Result.setInputs (exec i s) l := by
  rcases exec_answer i s with ⟨kind, hk, he⟩ | ⟨hn, t, he, -⟩
  · rw [he, ← raise, ← raise_setInputs]
    exact exec_withUnread_of_execFault hk s.st s.stack l
  · have ht : t.isFaulted = false := exec_not_faulted hr hn he
    obtain ⟨hst, hstack, -⟩ := exec_unread_after ht he
    rw [he]
    refine (exec_withUnread ht he s.st (fun _ _ => rfl) l).trans ?_
    rw [← hst, ← hstack]
    rfl

theorem fetchDecodeExecute_setInputs {s : State} (hr : s.run = .running) (l : List Input) :
    fetchDecodeExecute (s.setInputs l) = Result.setInputs (fetchDecodeExecute s) l := by
  have hfetch : (s.setInputs l).fetchWord = s.fetchWord := rfl
  simp only [fetchDecodeExecute, hfetch]
  cases s.fetchWord with
  | none => exact raise_setInputs .outOfRange none s l
  | some w =>
    cases hd : decode w with
    | error e => simp only [hd, raise_setInputs]
    | ok i => simp only [hd, exec_setInputs i hr l]

theorem clockEdge_setInputs (s : State) (l : List Input) :
    clockEdge (s.setInputs l) = Result.setInputs (clockEdge s) l := by
  rcases clockEdge_cases s with ⟨hr, hg, he⟩ | ⟨hr | hg, he⟩
  · rw [he, clockEdge_of_runs (s := s.setInputs l) hr hg]
    exact fetchDecodeExecute_setInputs (s := s.start) hr l
  · rw [he, clockEdge_of_not_running (s := s.setInputs l) hr]
    rfl
  · rw [he, clockEdge_of_loadFailed (s := s.setInputs l) hg]
    rfl

theorem State.pressKey_setInputs (s : State) (k : Fin Config.numKeys) (l : List Input) :
    (s.setInputs l).pressKey k = (s.pressKey k).setInputs l := by
  rcases s.pressKey_cases k with ⟨x, hr, hk, hp⟩ | ⟨x, hr, hk, hp⟩ | ⟨hr, hp⟩ <;> rw [hp]
  · exact State.pressKey_completes (s := s.setInputs l) hr hk
  · exact State.pressKey_of_key_down (s := s.setInputs l) hr hk
  · exact State.pressKey_of_no_wait (s := s.setInputs l) hr k

theorem loadEvent_setInputs (offset : Nat) (bytes : List Byte) (s : State) (l : List Input) :
    loadEvent offset bytes (s.setInputs l) = Result.setInputs (loadEvent offset bytes s) l := by
  rcases loadEvent_cases offset bytes s with ⟨hg, he⟩ | ⟨hg, hfit, -, m, hm, he⟩ | ⟨hg, hbig, -, he⟩ <;>
    rcases loadEvent_cases offset bytes (s.setInputs l) with
      ⟨hg', he'⟩ | ⟨hg', hfit', -, m', hm', he'⟩ | ⟨hg', hbig', -, he'⟩
  · rw [he, he']; rfl
  · exact absurd hg hg'
  · exact absurd hg hg'
  · exact absurd hg' hg
  · obtain rfl : m' = m := Option.some.inj (hm'.symm.trans hm)
    rw [he, he']; rfl
  · omega
  · exact absurd hg' hg
  · omega
  · rw [he, he']; rfl

theorem deliver_setInputs (e : Input) (s : State) (l : List Input) :
    deliver e (s.setInputs l) = Result.setInputs (deliver e s) l := by
  cases e with
  | clkInstr => exact clockEdge_setInputs s l
  | tick timer => cases timer <;> rfl
  | keyDown k => exact congrArg Host.Outcome.next (s.pressKey_setInputs k l)
  | keyUp k => rfl
  | reset => rfl
  | load offset bytes => exact loadEvent_setInputs offset bytes s l

/-- An event leaves no event pending where none was. -/
theorem eq_setInputs_nil_of_deliver {e : Input} {s t : State} (h : deliver e (s.setInputs []) = .next t) :
    t = t.setInputs [] := by
  have hself := deliver_setInputs e (s.setInputs []) []
  rw [h] at hself
  exact Host.Outcome.next.inj (h.symm.trans hself)

/-- Settles O52: each step delivers the first pending event, which does what it does with none pending. -/
theorem everySchedulePrefixIsARunOfSteps : Obligations.EverySchedulePrefixIsARunOfSteps := by
  intro sched n
  induction n generalizing sched with
  | zero => exact fun s => rfl
  | succ n ih =>
    intro s
    have hstep : step (s.setInputs (sched.take (n + 1))) =
        Result.setInputs (deliver (sched 0) (s.setInputs [])) (sched.tail.take n) := by
      rw [Schedule.take_succ, ← deliver_setInputs]
      exact step_of_cons rfl
    rw [runSteps_eq_andThen, runUnder_eq_first, hstep]
    cases hd : deliver (sched 0) (s.setInputs []) with
    | next t =>
      show runSteps n (t.setInputs (sched.tail.take n)) = runUnder sched.tail n t
      rw [ih sched.tail t, ← eq_setInputs_nil_of_deliver hd]
    | fault r => rfl
    | refused r => rfl

end Sys2Proof.Machine
end
